-- ==== Sys2Proof/Word.lean ====
section
/-! DEFINITION. The word types of PAC-1 (spec/00_scope.md rules R10, R12, R14). -/

namespace Sys2Proof

/-- One byte of memory, and one 8-bit channel of a pixel (rule R10). -/
abbrev Byte := BitVec 8

/-- A 32-bit register, command word or SpanMask word (rules R10, R21, R80). -/
abbrev Word := BitVec 32

/-- A 32-bit byte address (rule R10). -/
abbrev Addr := BitVec 32

/-- A pixel: four 8-bit channels, channel k in bits [8k+7:8k] (rules R10, R13). -/
abbrev Pixel := BitVec 32

/-- A channel widened to 16 bits (rules R10, R14). -/
abbrev WideLane := BitVec 16

/-- An ordered group of W pixels, lane 0 first (rule R32). -/
abbrev PixelVector := List Pixel

/-- A per-lane selector, one 32-bit mask word per lane, lane 0 first (rule R34). -/
abbrev SpanMask := List Word

end Sys2Proof
end

