-- ==== Sys2Proof/Config.lean ====
section
/-! DEFINITION. What an implementation or its platform fixes (spec/00_scope.md rules R9, R11), and
the free values of the model. The open parameters are plain data that State carries in its field
`cfg`, so that every claim about all states is a claim about every legal parameter (log entry 3). -/

namespace Sys2Proof

/-- The legal lane counts W of rule R9: 4, 8 or 16. -/
inductive Lanes where
  | w4
  | w8
  | w16
  deriving DecidableEq, Repr

/-- W as a number. -/
def Lanes.count : Lanes → Nat
  | .w4 => 4
  | .w8 => 8
  | .w16 => 16

/-- What the platform's memory map says of a region (rules R59, R72): `plain` is memory without read
side effects whose writes are idempotent, `sideEffecting` is any other memory. -/
inductive RegionKind where
  | plain
  | sideEffecting
  deriving DecidableEq, Repr

/-- One region of the platform's memory map: the addresses base to base + size - 1. An address in no
region is not backed (rule R72). -/
structure Region where
  base : Nat
  size : Nat
  kind : RegionKind
  deriving DecidableEq, Repr

/-- The open parameters a model takes as arguments (rule R11), and the platform's memory map
(rules R72, R73). `regBase` is REG_BASE and `revCh` is REV_CH. -/
structure Params where
  lanes   : Lanes
  regBase : Addr
  revCh   : BitVec 2
  memMap  : List Region
  deriving DecidableEq, Repr

/-- The parameters of State.reset: W = 8 and REV_CH = 0 are the defaults of the spec (rules R9, R106).
DESIGN CHOICE: REG_BASE = 0 and a map of one plain region that backs all 2^32 bytes (log entry 3). -/
def Params.default : Params :=
  { lanes := .w8, regBase := 0, revCh := 0, memMap := [⟨0, 2 ^ 32, .plain⟩] }

/-- What memory holds after power-on, as (address, byte) pairs that may list every address. A free value: nothing
constrains it (rule R222, log entry 4). -/
opaque Config.powerOn : List (Nat × Byte)

/-- RESET_DRAW of rule R11: at the n-th draw, whether pixel j of the interrupted iteration holds its new
value. A free value: nothing constrains it (log entry 6). -/
opaque Config.resetDraw (n : Nat) (j : Nat) : Bool

/-- The byte a racing reader of a running command's destination receives at the n-th draw (rule R203:
"the reader's value is any value"). A free value: nothing constrains it (log entry 8). -/
opaque Config.raceByte (n : Nat) : Byte

end Sys2Proof
end

