-- ==== Sys2Proof/Syntax.lean ====
section
/-! DEFINITION. The commands of PAC-1, one constructor per row of spec/opcode_table.json
(spec/30_encoding.md rules R80, R81, R88). -/

namespace Sys2Proof

/-- A command. Its one operand field is ACH, the alpha channel index (rule R84); the other operands are
the registers DST, SRC, MSK and COUNT (rule R87). An index of 4 or more can be written down in the
assembler form `ach=<a>` and has no encoding: WellFormed refuses it (log entry 22). -/
inductive Instr where
  | opOver (ach : Nat)
  | opOverM (ach : Nat)
  | opOverrev (ach : Nat)
  | opOverrevM (ach : Nat)
  | opOutrev (ach : Nat)
  | opOutrevM (ach : Nat)
  | opAdd (ach : Nat)
  | opAddM (ach : Nat)
  deriving DecidableEq, Repr

/-- The alpha channel index ACH of a command (rule R84). -/
def Instr.ach : Instr → Nat
  | .opOver a | .opOverM a | .opOverrev a | .opOverrevM a
  | .opOutrev a | .opOutrevM a | .opAdd a | .opAddM a => a

end Sys2Proof
end

