-- ==== Sys2Proof/Machine/State.lean ====
section
/-! DEFINITION. The state of the block, plain data, its outcomes' reasons, and the state after reset
(spec/10_state.md). -/

namespace Sys2Proof.Machine

/-- Why the machine is stuck. -/
inductive Fault where
  /-- Raised by VecRead, VecWrite and another agent's access at an address the platform does not back:
  "stuck: the access has no step" (rules R72, R203; for another agent, log entry 9). Safe: the model stops. -/
  | unbacked (a : Addr)
  deriving DecidableEq, Repr

/-- Why the model gives no meaning. -/
inductive Refusal where
  /-- Raised by an arm of exec whose instruction has no meaning yet; no arm does. Safe. -/
  | notModelled (mnemonic : String)
  /-- Raised at acceptance when a used range would wrap past 2^32 (rules R61, R203). Safe. -/
  | rangeWraps
  /-- Raised at acceptance when the destination overlaps the source or the used mask other than exactly
  (rules R70, R203). Safe. -/
  | partialOverlap
  /-- Raised at acceptance and at an access when a used range touches memory with side effects
  (rules R59, R203). Safe. -/
  | sideEffectingMemory
  /-- Raised when another agent writes a used range of a running command (rules R71, R203). Safe. -/
  | racingWrite
  /-- Raised by mul16 on a lane above 255: "a model must refuse such an input" (rule R103). No run reaches
  it. Safe. -/
  | wideMultiplyOperand
  deriving DecidableEq, Repr

/-- A step's outcome, or the outcome of a part of a step that answers a value. -/
abbrev Res (α : Type) := Host.Outcome α Fault Refusal

/-- The writable host-visible registers (rules R21 to R25). STATUS is held as its two bits. -/
structure HostRegs where
  cmd   : Word
  busy  : Bool
  err   : Bool
  dst   : Addr
  src   : Addr
  msk   : Addr
  count : Word
  deriving DecidableEq, Repr

/-- The latched command and the iteration registers (rules R30, R31). -/
structure Engine where
  cFUNC : BitVec 2
  cM    : Bool
  cACH  : BitVec 2
  iD    : Addr
  iS    : Addr
  iM    : Addr
  iN    : Word
  deriving DecidableEq, Repr

/-- The two widened halves of a PixelVector, channel k of pixel j at lane 4j+k of its half (rule R33). -/
structure Halves where
  lo : List WideLane
  hi : List WideLane
  deriving DecidableEq, Repr

/-- The datapath registers (rules R32 to R35). -/
structure Datapath where
  VM  : PixelVector
  VS  : PixelVector
  VE  : PixelVector
  VD  : PixelVector
  VR  : PixelVector
  hVM : Halves
  hVS : Halves
  hVE : Halves
  hVD : Halves
  hVR : Halves
  LM  : SpanMask
  fT  : Bool
  fZ  : Bool
  fO  : Bool
  deriving DecidableEq, Repr

/-- The direction of a request on the memory port, `mem_we` of rule R38. -/
inductive AccessKind where
  | read
  | write
  deriving DecidableEq, Repr

/-- One performed request on the memory port (rule R38): `mem_we`, `mem_addr`, `mem_lane_en`, and the
lanes of `mem_rdata` of a read or of `mem_wdata` of a write (what they hold for a disabled lane: log entry 17). -/
structure MemAccess where
  kind   : AccessKind
  base   : Addr
  laneEn : List Bool
  lanes  : PixelVector
  deriving DecidableEq, Repr

/-- A register write request on the host's bus: the bus address, `reg_size4` and `reg_wdata` (rule R38). -/
structure RegWrite where
  busAddr : Addr
  size4   : Bool
  data    : Word
  deriving DecidableEq, Repr

/-- A turn of an agent. The list of them in State says who moves next (log entries 1 and 16). -/
inductive HostEvent where
  /-- The host writes a register (rules R21, R28, R29). -/
  | regWrite (w : RegWrite)
  /-- The host reads a register (rules R21, R28, R29). -/
  | regRead (busAddr : Addr) (size4 : Bool)
  /-- The host polls STATUS until BUSY reads 0, the statement WAIT (rule R91). -/
  | wait
  /-- The engine takes its next step, or nothing happens when it is idle (rule R229). -/
  | engine
  /-- Reset is asserted, perhaps during a register write (rules R205, R220). -/
  | reset (coincident : Option RegWrite)
  /-- Another agent writes a byte of memory (rules R65, R71). -/
  | memWrite (a : Addr) (b : Byte)
  /-- Another agent reads a byte of memory (rules R64, R71). -/
  | memRead (a : Addr)
  deriving DecidableEq, Repr

/-- Memory. `powerOn` is what it held before anything wrote to it, as any pairs; no step changes it. `cells` are
the bytes that differ from it, by rising address: the canonical form is Memory.wf. -/
structure Memory where
  powerOn : List Host.Cell
  cells   : List Host.Cell
  deriving DecidableEq, Repr

/-- The state. `regs`, `eng` and `dp` are the groups (a), (b) and (c) of rule R20. -/
structure State where
  /-- The open parameters and PARAM (rules R11, R26). No step changes it. -/
  cfg       : Params
  regs      : HostRegs
  eng       : Engine
  dp        : Datapath
  mem       : Memory
  /-- The requests the block performed on its memory port in the last step, oldest first (rules R38, R179). -/
  memPort   : List MemAccess
  /-- `reg_rdata`: the word the host's last register read received (rule R38). -/
  hostRdata : Word
  /-- The byte another agent's last memory read received (the model's own field, log entry 13). -/
  hostByte  : Byte
  /-- How many free values were drawn (the model's own field, log entries 6 and 8). -/
  draws     : Nat
  /-- The turns to come, next first (log entry 1). -/
  inputs    : List HostEvent
  deriving DecidableEq, Repr

/-- The host-visible registers after reset (rule R39). -/
def HostRegs.reset : HostRegs :=
  { cmd := 0, busy := false, err := false, dst := 0, src := 0, msk := 0, count := 0 }

/-- The engine state after reset. DESIGN CHOICE: the spec leaves it unspecified (rule R39), zero here
(log entry 5). -/
def Engine.reset : Engine :=
  { cFUNC := 0, cM := false, cACH := 0, iD := 0, iS := 0, iM := 0, iN := 0 }

/-- Halves of W pixels with every lane zero. -/
def Halves.zero (w : Nat) : Halves := ⟨List.replicate (2 * w) 0, List.replicate (2 * w) 0⟩

/-- The datapath registers after reset. DESIGN CHOICE: the spec leaves them unspecified (rule R39), zero
here (log entry 5). -/
def Datapath.reset (w : Nat) : Datapath :=
  { VM := List.replicate w 0, VS := List.replicate w 0, VE := List.replicate w 0
    VD := List.replicate w 0, VR := List.replicate w 0
    hVM := Halves.zero w, hVS := Halves.zero w, hVE := Halves.zero w
    hVD := Halves.zero w, hVR := Halves.zero w
    LM := List.replicate w 0, fT := false, fZ := false, fO := false }

/-- Memory to which nothing has written: its contents are the free value of the power-on (rule R222, log entry 4). -/
def Memory.reset : Memory := ⟨Config.powerOn, []⟩

/-- The machine right after reset (rules R39, R220): registers at their reset values, nothing launched,
memory with nothing listed, no turn waiting. -/
def State.reset : State :=
  { cfg := Params.default, regs := HostRegs.reset, eng := Engine.reset
    dp := Datapath.reset Params.default.lanes.count
    mem := Memory.reset, memPort := [], hostRdata := 0, hostByte := 0, draws := 0, inputs := [] }

end Sys2Proof.Machine
end

