-- ==== Sys2Proof/Machine/Primitives.lean ====
section
/-! DEFINITION. The fixed-point blend primitives: channel_widener, saturating_alpha_multiply and
channel_narrower (spec/40_primitives.md). -/

namespace Sys2Proof.Machine

/-- `p.ch[k] = p[8k+7:8k]` (rule R13). -/
def ch (p : Pixel) (k : Nat) : Byte := p.extractLsb' (8 * k) 8

/-- The pixel of four channels, channel 0 first (rule R51). -/
def pixelOf (c0 c1 c2 c3 : Byte) : Pixel := c3 ++ c2 ++ c1 ++ c0

/-- The pixel whose channel k is `f k`, "for k in 0..3". -/
def perChannel (f : Nat → Byte) : Pixel := pixelOf (f 0) (f 1) (f 2) (f 3)

/-- `widen(p)`: the four channels zero-extended to 16 bits, channel 0 first (rule R100). -/
def widen (p : Pixel) : List WideLane :=
  [(ch p 0).setWidth 16, (ch p 1).setWidth 16, (ch p 2).setWidth 16, (ch p 3).setWidth 16]

/-- `mul8(a, b) := ((a*b + 128) * 257) >> 16`, computed without wrapping (rule R102). -/
def mul8 (a b : Byte) : Byte := BitVec.ofNat 8 (((a.toNat * b.toNat + 128) * 257) >>> 16)

/-- `mul16(x, y)`: a 16-bit multiply-low and add, then the high half of the product with 0x0101. A lane with
a non-zero upper byte has no specified result and is answered by none (rule R103). -/
def mul16 (x y : WideLane) : Option WideLane :=
  if x.toNat ≤ 255 ∧ y.toNat ≤ 255 then
    let t : WideLane := x * y + 0x0080
    some (BitVec.ofNat 16 ((t.toNat * 0x0101) >>> 16))
  else none

/-- `neg8(a) := 255 - a` (rule R104). -/
def neg8 (a : Byte) : Byte := 255 - a

/-- `neg16(v) := v XOR 0x00FF` (rule R104). -/
def neg16 (v : WideLane) : WideLane := v ^^^ 0x00FF

/-- `bcastA(p, a)`: all four channels equal to channel a of p (rule R105). -/
def bcastA (p : Pixel) (a : Nat) : Pixel := perChannel fun _ => ch p a

/-- `bcastA_rev(p)`: all four channels equal to channel REV_CH of p. No command uses it (rule R106,
log entry 19). -/
def bcastARev (cfg : Params) (p : Pixel) : Pixel := perChannel fun _ => ch p cfg.revCh.toNat

/-- `maskc(s, m, a)`: the effective source of a masked command (rule R107). -/
def maskc (s m : Pixel) (a : Nat) : Pixel := perChannel fun k => mul8 (ch s k) (ch m a)

/-- `sadd8(x, y) := min(x + y, 255)` (rule R108). -/
def sadd8 (x y : Byte) : Byte := BitVec.ofNat 8 (min (x.toNat + y.toNat) 255)

/-- `narrow16(v)`: unsigned saturation to 8 bits (rule R109). -/
def narrow16 (v : WideLane) : Byte := if v.toNat ≤ 255 then v.setWidth 8 else 255

/-- `narrow(w[0..3])` on four lanes (rule R109). -/
def narrow (w0 w1 w2 w3 : WideLane) : Pixel :=
  pixelOf (narrow16 w0) (narrow16 w1) (narrow16 w2) (narrow16 w3)

/-- The widened lanes of a run of pixels: channel k of pixel j at lane 4j+k (rules R33, R101). -/
def widenHalf : PixelVector → List WideLane
  | [] => []
  | p :: ps => widen p ++ widenHalf ps

/-- `widenV(V)`: `lo` holds pixels 0..W/2-1 and `hi` the others (rules R33, R101). -/
def widenV (V : PixelVector) : Halves :=
  ⟨widenHalf (V.take (V.length / 2)), widenHalf (V.drop (V.length / 2))⟩

/-- The pixels of a half, four lanes a pixel (rule R110). -/
def narrowHalf : List WideLane → PixelVector
  | w0 :: w1 :: w2 :: w3 :: rest => narrow w0 w1 w2 w3 :: narrowHalf rest
  | _ => []

/-- `narrowV(lo, hi)`, the inverse placement of widenV (rule R110). -/
def narrowV (h : Halves) : PixelVector := narrowHalf h.lo ++ narrowHalf h.hi

/-! ### Lane-wise operations on widened halves -/

/-- The broadcast on a half: "each group of four 16-bit lanes of one pixel is set to that pixel's lane a"
(rule R105). -/
def bcastHalf (a : Nat) : List WideLane → List WideLane
  | w0 :: w1 :: w2 :: w3 :: rest =>
    List.replicate 4 ([w0, w1, w2, w3].getD a 0) ++ bcastHalf a rest
  | _ => []

/-- `bcastA` on both halves (rule R105). -/
def Halves.bcast (a : Nat) (h : Halves) : Halves := ⟨bcastHalf a h.lo, bcastHalf a h.hi⟩

/-- `neg16` on every lane (rule R104). -/
def Halves.neg (h : Halves) : Halves := ⟨h.lo.map neg16, h.hi.map neg16⟩

/-- `mul16` lane by lane on one half. -/
def mulHalf : List WideLane → List WideLane → Option (List WideLane)
  | x :: xs, y :: ys =>
    match mul16 x y, mulHalf xs ys with
    | some r, some rs => some (r :: rs)
    | _, _ => none
  | _, _ => some []

/-- `mul16` lane by lane on both halves (rule R103). -/
def Halves.mul (x y : Halves) : Option Halves :=
  match mulHalf x.lo y.lo, mulHalf x.hi y.hi with
  | some lo, some hi => some ⟨lo, hi⟩
  | _, _ => none

/-- `sadd8` channel by channel on two pixels (rule R108). -/
def saddPixel (p q : Pixel) : Pixel := perChannel fun k => sadd8 (ch p k) (ch q k)

/-- `sadd8` on two PixelVectors, on narrowed 8-bit channels (rule R108). -/
def saddV (V U : PixelVector) : PixelVector := List.zipWith saddPixel V U

end Sys2Proof.Machine
end

