-- ==== Sys2Proof/Machine/Flags.lean ====
section
/-! DEFINITION. The shortcut flags of the fast_path_shortcut_detector (spec/43_fast_path.md). The block has
no condition codes; STATUS.BUSY and STATUS.ERR are the only status bits (spec/10_state.md rule R37). -/

namespace Sys2Proof.Machine

/-- `isZero(V)`: every lane is 0, inactive lanes included (rules R160, R163). -/
def isZero (V : PixelVector) : Bool := V.all fun p => decide (p = 0)

/-- `isOpaque(V, a)`: channel a of every lane is 0xFF, inactive lanes included (rules R161, R163). -/
def isOpaque (V : PixelVector) (a : Nat) : Bool := V.all fun p => decide (ch p a = 0xFF)

/-- `isTransparentMask(V, a)`: channel a of every mask lane is 0, inactive lanes included
(rules R162, R163). -/
def isTransparentMask (V : PixelVector) (a : Nat) : Bool := V.all fun p => decide (ch p a = 0x00)

/-- fT ← isTransparentMask(VM, a) (rule R35). -/
def testTransparent (a : Nat) (d : Datapath) : Datapath := { d with fT := isTransparentMask d.VM a }

/-- fZ ← isZero(VE) (rule R35). -/
def testZero (d : Datapath) : Datapath := { d with fZ := isZero d.VE }

/-- fO ← isOpaque(VE, a) (rule R35). -/
def testOpaque (a : Nat) (d : Datapath) : Datapath := { d with fO := isOpaque d.VE a }

end Sys2Proof.Machine
end

