-- ==== Sys2Proof/WellFormed.lean ====
section
/-! DEFINITION. Which commands have an encoding (spec/30_encoding.md rules R81, R84). -/

namespace Sys2Proof

/-- A command is well formed when its alpha channel index fits the 2-bit field ACH (rules R81, R84:
"Every value of ACH is legal", so this is the only check). -/
def Instr.wellFormed (i : Instr) : Bool := i.ach < 4

end Sys2Proof
end

