-- ==== Sys2Proof/Decode.lean ====
section
/-! DEFINITION. The decoder of a command word, total on all 2^32 words and rejecting by name, and the
encoder (spec/30_encoding.md rules R81, R85, R86, R88, R89). -/

namespace Sys2Proof

/-- Why a word is illegal (rule R89): a FUNC of 4 to 15, or a set bit among [31:7]. -/
inductive DecodeError where
  | reservedFunc
  | reservedBits
  deriving DecidableEq, Repr

/-- FUNC, bits [3:0] (rule R81). -/
def fieldFUNC (w : Word) : BitVec 4 := w.extractLsb' 0 4

/-- M, bit [4] (rule R81). -/
def fieldM (w : Word) : Bool := w.getLsbD 4

/-- ACH, bits [6:5] (rule R81). -/
def fieldACH (w : Word) : BitVec 2 := w.extractLsb' 5 2

/-- The reserved bits [31:7] (rules R81, R85). -/
def fieldReserved (w : Word) : BitVec 25 := w.extractLsb' 7 25

/-- The legality test of rule R86: `(w & 0xFFFFFF80) == 0 and (w & 0xF) <= 3`. -/
def legal (w : Word) : Bool := w &&& 0xFFFFFF80#32 == 0#32 && (w &&& 0xF#32).toNat ≤ 3

/-- The command of a row of rule R88: the operator number FUNC[1:0] (rule R82), M and ACH. -/
def ofFields (func : BitVec 2) (m : Bool) (ach : BitVec 2) : Instr :=
  if func = 0#2 then (if m then .opOverM ach.toNat else .opOver ach.toNat)
  else if func = 1#2 then (if m then .opOverrevM ach.toNat else .opOverrev ach.toNat)
  else if func = 2#2 then (if m then .opOutrevM ach.toNat else .opOutrev ach.toNat)
  else (if m then .opAddM ach.toNat else .opAdd ach.toNat)

/-- The decoder (rules R86, R88, R89). -/
def decode (w : Word) : Except DecodeError Instr :=
  if fieldReserved w ≠ 0#25 then .error .reservedBits
  else if 3 < (fieldFUNC w).toNat then .error .reservedFunc
  else .ok (ofFields (w.extractLsb' 0 2) (fieldM w) (fieldACH w))

/-- The operator number of a command (rule R82). -/
def Instr.func : Instr → BitVec 2
  | .opOver _ | .opOverM _ => 0
  | .opOverrev _ | .opOverrevM _ => 1
  | .opOutrev _ | .opOutrevM _ => 2
  | .opAdd _ | .opAddM _ => 3

/-- Whether a mask buffer is present, the M bit of a command (rule R83). -/
def Instr.masked : Instr → Bool
  | .opOver _ | .opOverrev _ | .opOutrev _ | .opAdd _ => false
  | .opOverM _ | .opOverrevM _ | .opOutrevM _ | .opAddM _ => true

/-- The `match` column of rule R88, the word of a command whose ACH is 0. -/
def Instr.matchWord : Instr → Word
  | .opOver _ => 0x00000000
  | .opOverM _ => 0x00000010
  | .opOverrev _ => 0x00000001
  | .opOverrevM _ => 0x00000011
  | .opOutrev _ => 0x00000002
  | .opOutrevM _ => 0x00000012
  | .opAdd _ => 0x00000003
  | .opAddM _ => 0x00000013

/-- The encoder: "The word for ACH = a is `match | (a << 5)`" (rule R88). -/
def encode (i : Instr) : Word := i.matchWord ||| (BitVec.ofNat 32 i.ach <<< 5)

/-- The command a word of the opcode table stands for: a command is one 32-bit word on the register
port, so its bits are the table's bits (rule R80). -/
def decodeTableWord (nbits w : Nat) : Option Instr :=
  match decode (BitVec.ofNat 32 (w % 2 ^ nbits)) with
  | .ok i => some i
  | .error _ => none

end Sys2Proof
end

