-- ==== Sys2Proof/Machine/Operators.lean ====
section
/-! DEFINITION. The operator kernels: the per-pixel functions of the four operators, and the kernels on
widened halves that the datapath runs (spec/41_operators.md, spec/44_row_driver.md rule R172). -/

namespace Sys2Proof.Machine

/-! ### Per-pixel functions (rules R120 to R123) -/

/-- `over(e, d, a)` (rule R120). -/
def overPixel (e d : Pixel) (a : Nat) : Pixel :=
  perChannel fun k => sadd8 (ch e k) (mul8 (ch d k) (neg8 (ch e a)))

/-- `overrev(e, d, a)` (rule R121). -/
def overrevPixel (e d : Pixel) (a : Nat) : Pixel :=
  perChannel fun k => sadd8 (ch d k) (mul8 (ch e k) (neg8 (ch d a)))

/-- `outrev(e, d, a)` (rule R122). -/
def outrevPixel (e d : Pixel) (a : Nat) : Pixel :=
  perChannel fun k => mul8 (ch d k) (neg8 (ch e a))

/-- `add(e, d, a)`; the argument a is unused (rule R123). -/
def addPixel (e d : Pixel) (_a : Nat) : Pixel := perChannel fun k => sadd8 (ch e k) (ch d k)

/-- The per-pixel function op_FUNC of a command (rules R82, R181). -/
def opPixel (i : Instr) (e d : Pixel) : Pixel :=
  match i with
  | .opOver a | .opOverM a => overPixel e d a
  | .opOverrev a | .opOverrevM a => overrevPixel e d a
  | .opOutrev a | .opOutrevM a => outrevPixel e d a
  | .opAdd a | .opAddM a => addPixel e d a

/-- The effective source of a command: maskc(s, m, a) when a mask is present, s otherwise (rules R83, R181). -/
def effective (i : Instr) (s m : Pixel) : Pixel := if i.masked then maskc s m i.ach else s

/-! ### Kernels on widened halves (rules R33, R172 stage 7)

A kernel takes the widened halves of VE and VD and answers the 16-bit lanes that reach the narrower, or
none where mul16 has no result. The saturating add runs afterwards on narrowed channels (rule R108,
log entry 14). -/

/-- The multiply of Over and OutReverse: d times the negated alpha of e. -/
def kernelDst (a : Nat) (hE hD : Halves) : Option Halves := Halves.mul hD ((hE.bcast a).neg)

/-- The multiply of OverReverse: e times the negated alpha of d. -/
def kernelSrc (a : Nat) (hE hD : Halves) : Option Halves := Halves.mul hE ((hD.bcast a).neg)

/-- Add has no multiply: the source lanes pass. -/
def kernelPass (hE : Halves) : Option Halves := some hE

end Sys2Proof.Machine
end

