-- ==== Sys2Proof/Machine/Ops.lean ====
section
/-! DEFINITION. The named operations: outcomes in sequence, memory (spec/20_memory.md), the register
block (spec/10_state.md), and the one error of the block (spec/60_exceptions.md). -/

namespace Sys2Proof.Machine

/-! ### Outcomes in sequence -/

/-- Do `f` on the answer of `o`; a fault or a refusal of `o` stands. -/
def andThen {α β : Type} (o : Res α) (f : α → Res β) : Res β :=
  match o with
  | .next a => f a
  | .fault r => .fault r
  | .refused r => .refused r

/-- Whether an outcome is an answer with the property `p` (for tests and claims). -/
def answers {α : Type} (o : Res α) (p : α → Bool) : Bool :=
  match o with
  | .next a => p a
  | .fault _ => false
  | .refused _ => false

/-! ### Bytes of memory (rule R50) -/

/-- The byte some pairs give an address, or `d` where they list none. -/
def lookup (d : Byte) : List Host.Cell → Nat → Byte
  | [], _ => d
  | (k, v) :: rest, a => if k = a then v else lookup d rest a

/-- What an unlisted address reads as: what memory held after power-on, of which a model must not assume anything
(rule R222). The pairs may list every address, so the 0 of the others rules no contents out (log entry 4). -/
def Memory.unlisted (m : Memory) (a : Nat) : Byte := lookup 0 m.powerOn a

/-- The byte at an address. -/
def Memory.read (m : Memory) (a : Nat) : Byte := lookup (m.unlisted a) m.cells a

/-- Put a byte before the entries above it, listing it only when it differs from the unlisted byte `d`. -/
def consCell (d : Byte) (a : Nat) (b : Byte) (rest : List Host.Cell) : List Host.Cell :=
  if b = d then rest else (a, b) :: rest

/-- The entries after a byte is written, in canonical form; `d` is its unlisted byte. -/
def writeCell (d : Byte) : List Host.Cell → Nat → Byte → List Host.Cell
  | [], a, b => consCell d a b []
  | (k, v) :: rest, a, b =>
    if a < k then consCell d a b ((k, v) :: rest)
    else if a = k then consCell d a b rest
    else (k, v) :: writeCell d rest a b

/-- Write a byte, keeping the canonical form. -/
def Memory.write (m : Memory) (a : Nat) (b : Byte) : Memory :=
  { m with cells := writeCell (m.unlisted a) m.cells a b }

/-- The canonical form of entries at `lo` or above: addresses strictly rising and below 2^32, no entry
equal to the unlisted byte at its address. -/
def canonicalFrom (unlisted : Nat → Byte) : Nat → List Host.Cell → Bool
  | _, [] => true
  | lo, (k, v) :: rest =>
    decide (lo ≤ k) && decide (k < 2 ^ 32) && v != unlisted k && canonicalFrom unlisted (k + 1) rest

/-- The canonical form of memory. -/
def Memory.wf (m : Memory) : Bool := canonicalFrom m.unlisted 0 m.cells

/-- The byte at a 32-bit address. -/
def byteAt (m : Memory) (a : Addr) : Byte := Memory.read m a.toNat

/-- Write the byte at a 32-bit address. -/
def setByte (m : Memory) (a : Addr) (b : Byte) : Memory := Memory.write m a.toNat b

/-! ### Pixels in memory (rule R51: little-endian, channel k is the byte at a + k) -/

/-- The value of `MemRead(a, 4)`. Addresses are taken modulo 2^32 (log entry 24). -/
def readPixel (m : Memory) (a : Addr) : Pixel :=
  pixelOf (byteAt m a) (byteAt m (a + 1)) (byteAt m (a + 2)) (byteAt m (a + 3))

/-- The effect of `MemWrite(a, 4, p)`. -/
def writePixel (m : Memory) (a : Addr) (p : Pixel) : Memory :=
  setByte (setByte (setByte (setByte m a (ch p 0)) (a + 1) (ch p 1)) (a + 2) (ch p 2)) (a + 3) (ch p 3)

/-! ### The platform's memory map (rules R59, R72) -/

/-- Whether a region holds an address. -/
def Region.holds (r : Region) (a : Nat) : Bool :=
  decide (r.base ≤ a) && decide (a < r.base + r.size)

/-- What the platform has at an address: side effects win where regions overlap (log entry 11), and an address
in no region is not backed. DESIGN CHOICE: the spec gives a buffer no length, so a buffer of rule R203 ends only
where the regions end (log entry 26). -/
def kindAt (map : List Region) (a : Nat) : Option RegionKind :=
  if map.any (fun r => r.kind == .sideEffecting && Region.holds r a) then some .sideEffecting
  else if map.any (fun r => Region.holds r a) then some .plain
  else none

/-- An access to one byte: stuck where the platform backs nothing, refused where memory has side effects
(rules R72, R203; another agent's access alike, log entry 9). -/
def checkByte (cfg : Params) (a : Addr) : Res Unit :=
  match kindAt cfg.memMap a.toNat with
  | some .plain => .next ()
  | some .sideEffecting => .refused .sideEffectingMemory
  | none => .fault (.unbacked a)

/-- An access to the four bytes of a pixel. DESIGN CHOICE: where several are not backed, the fault names the
lowest (log entry 9). -/
def checkPixel (cfg : Params) (a : Addr) : Res Unit :=
  andThen (checkByte cfg a) fun _ =>
  andThen (checkByte cfg (a + 1)) fun _ =>
  andThen (checkByte cfg (a + 2)) fun _ => checkByte cfg (a + 3)

/-- `MemRead(a, 4)` as an access (rules R13, R51). -/
def memRead (cfg : Params) (m : Memory) (a : Addr) : Res Pixel :=
  andThen (checkPixel cfg a) fun _ => .next (readPixel m a)

/-- `MemWrite(a, 4, p)` as an access (rules R13, R51). -/
def memWrite (cfg : Params) (m : Memory) (a : Addr) (p : Pixel) : Res Memory :=
  andThen (checkPixel cfg a) fun _ => .next (writePixel m a p)

/-! ### Vector accesses (rules R55, R56) -/

/-- The mask word of an active lane (rule R151). -/
def activeLane : Word := 0xFFFFFFFF

/-- The mask word of an inactive lane (rule R151). -/
def inactiveLane : Word := 0x00000000

/-- `VecRead(base, LM)`: lane i is the pixel at base + 4·i when active, and 0 without an access when
inactive (rule R55). The lanes are read "in no particular order"; DESIGN CHOICE: where several are stuck, the
fault is the lowest lane's (log entry 9). -/
def vecRead (cfg : Params) (m : Memory) : Addr → SpanMask → Res PixelVector
  | _, [] => .next []
  | base, l :: lm =>
    andThen (if l = activeLane then memRead cfg m base else .next 0) fun p =>
    andThen (vecRead cfg m (base + 4) lm) fun ps => .next (p :: ps)

/-- `VecWrite(base, LM, V)`: lane i is stored at base + 4·i when active, and no access is made when
inactive (rule R56). DESIGN CHOICE: where several lanes are stuck, the fault is the lowest's (log entry 9). -/
def vecWrite (cfg : Params) : Memory → Addr → SpanMask → PixelVector → Res Memory
  | m, base, l :: lm, p :: ps =>
    andThen (if l = activeLane then memWrite cfg m base p else .next m) fun m' =>
      vecWrite cfg m' (base + 4) lm ps
  | m, _, _, _ => .next m

/-- The lane enables of a request: `mem_lane_en[i] = 1` exactly for the active lanes (rules R38, R55). -/
def laneEnables (lm : SpanMask) : List Bool := lm.map (fun l => decide (l = activeLane))

/-! ### Updates of State -/

/-- Replace the host-visible registers. -/
def State.setRegs (s : State) (r : HostRegs) : State := { s with regs := r }

/-- Replace the engine state. -/
def State.setEng (s : State) (e : Engine) : State := { s with eng := e }

/-- Replace the datapath registers. -/
def State.setDp (s : State) (d : Datapath) : State := { s with dp := d }

/-- Replace memory. -/
def State.setMem (s : State) (m : Memory) : State := { s with mem := m }

/-- Record a request performed on the memory port (rule R179). -/
def State.addAccess (s : State) (a : MemAccess) : State := { s with memPort := s.memPort ++ [a] }

/-- Take the next turn: the remaining turns, and a memory port on which nothing happened yet. -/
def State.takeTurn (s : State) (rest : List HostEvent) : State :=
  { s with memPort := [], inputs := rest }

/-- The word the host's register read receives (rule R38, `reg_rdata`). -/
def State.setRdata (s : State) (w : Word) : State := { s with hostRdata := w }

/-- The byte another agent's memory read receives. -/
def State.setHostByte (s : State) (b : Byte) : State := { s with hostByte := b }

/-- Count one more draw of a free value. -/
def State.countDraw (s : State) : State := { s with draws := s.draws + 1 }

/-- Put turns before the turns to come. -/
def State.pushTurns (s : State) (es : List HostEvent) : State := { s with inputs := es ++ s.inputs }

/-! ### Vector accesses of the block, recorded on the memory port -/

/-- The lane count W (rule R9). -/
def State.lanes (s : State) : Nat := s.cfg.lanes.count

/-- A vector read of the block, gated by LM (rules R34, R55). DESIGN CHOICE: the record holds 0 for the
`mem_rdata` of a disabled lane, which the port ignores (rule R38, log entry 17). -/
def vread (base : Addr) (s : State) : Res (PixelVector × State) :=
  andThen (vecRead s.cfg s.mem base s.dp.LM) fun v =>
    .next (v, s.addAccess ⟨.read, base, laneEnables s.dp.LM, v⟩)

/-- A vector write of the block, gated by LM (rules R34, R56). -/
def vwrite (base : Addr) (v : PixelVector) (s : State) : Res State :=
  andThen (vecWrite s.cfg s.mem base s.dp.LM v) fun m =>
    .next ((s.setMem m).addAccess ⟨.write, base, laneEnables s.dp.LM, v⟩)

/-! ### The register block (rules R21 to R28) -/

/-- The registers of rule R21. -/
inductive RegName where
  | cmd
  | status
  | dst
  | src
  | msk
  | count
  | param
  | reserved
  deriving DecidableEq, Repr

/-- The register at a word-aligned offset (rules R21, R27). -/
def regAt (off : BitVec 8) : RegName :=
  if off = 0x00 then .cmd
  else if off = 0x04 then .status
  else if off = 0x08 then .dst
  else if off = 0x0C then .src
  else if off = 0x10 then .msk
  else if off = 0x14 then .count
  else if off = 0x18 then .param
  else .reserved

/-- Bits [1:0] of DST, SRC and MSK are hardwired to 0, on a write and on a read (rule R24). -/
def hardwire (a : Addr) : Addr := a &&& 0xFFFFFFFC#32

/-- STATUS as a word: BUSY in bit 0, ERR in bit 1, [31:2] read 0 (rule R23). -/
def statusWord (r : HostRegs) : Word :=
  (if r.busy then 1#32 else 0#32) ||| (if r.err then 2#32 else 0#32)

/-- The `busy` output equals STATUS.BUSY (rule R38). -/
def busyPort (s : State) : Bool := s.regs.busy

/-- PARAM as a word: W in bits [7:0], [31:8] read 0 (rule R26). -/
def paramWord (cfg : Params) : Word := BitVec.ofNat 32 cfg.lanes.count

/-- What a 32-bit read of a register returns; a read has no side effect (rules R21 to R27, R29). -/
def readRegister (r : RegName) (s : State) : Word :=
  match r with
  | .cmd => s.regs.cmd
  | .status => statusWord s.regs
  | .dst => hardwire s.regs.dst
  | .src => hardwire s.regs.src
  | .msk => hardwire s.regs.msk
  | .count => s.regs.count
  | .param => paramWord s.cfg
  | .reserved => 0

/-- A 32-bit write of DST, SRC, MSK or COUNT; writes to STATUS, PARAM and the reserved offsets are ignored
(rules R21, R23 to R27). A write of CMD presents a command instead (rule R22) and is not this operation's. -/
def writeRegister (r : RegName) (v : Word) (s : State) : State :=
  match r with
  | .dst => s.setRegs { s.regs with dst := hardwire v }
  | .src => s.setRegs { s.regs with src := hardwire v }
  | .msk => s.setRegs { s.regs with msk := hardwire v }
  | .count => s.setRegs { s.regs with count := v }
  | .cmd | .status | .param | .reserved => s

/-! ### The block's one error (rules R200, R201, R206) -/

/-- Raise IllegalCommand, the error action of rule R201: STATUS.ERR becomes 1 and nothing else changes.
The block has no trap entry, no saved state and no return from a trap (rule R206), so this is the whole of
taking an exception, and there is no return beside it: ERR falls at the next acceptance or at reset. -/
def raiseIllegalCommand (s : State) : State := s.setRegs { s.regs with err := true }

end Sys2Proof.Machine
end

