-- ==== Sys2Proof/Machine/SpanMask.lean ====
section
/-! DEFINITION. The span_mask_iterator (spec/42_span_mask_iterator.md). -/

namespace Sys2Proof.Machine

/-- k = min(n, W), the number of active lanes (rule R150). -/
def activeCount (w : Nat) (n : Word) : Nat := min n.toNat w

/-- Lanes i, i+1, … of the mask with k active lanes: lane i is active when i < k (rule R150). -/
def spanMaskFrom (k i : Nat) : Nat → SpanMask
  | 0 => []
  | w + 1 => (if i < k then activeLane else inactiveLane) :: spanMaskFrom k (i + 1) w

/-- LM of `span_mask(n)` for W lanes (rules R150, R151). -/
def spanMask (w : Nat) (n : Word) : SpanMask := spanMaskFrom (activeCount w n) 0 w

/-- Entry t of the table of rule R152: lanes 0..W-t-1 active, lanes W-t..W-1 inactive. -/
def spanMaskTable (w t : Nat) : SpanMask :=
  List.replicate (w - t) activeLane ++ List.replicate (min t w) inactiveLane

end Sys2Proof.Machine
end

