-- ==== Sys2Proof/Machine/Operands.lean ====
section
/-! DEFINITION. The operands of a command: the three buffers (spec/30_encoding.md rule R87), the contract
on their ranges (spec/60_exceptions.md rule R203), and the stages of an iteration that load, combine and
store them (spec/44_row_driver.md rule R172). -/

namespace Sys2Proof.Machine

/-! ### Ranges (rules R57, R61, R70) -/

/-- Pixel j of a buffer is at base + 4·j (rule R53). -/
def pixelAddr (base : Addr) (j : Nat) : Addr := base + BitVec.ofNat 32 (4 * j)

/-- Whether an address lies in [base, base + 4·n) (rule R57). -/
def inRange (base : Addr) (n : Nat) (a : Addr) : Bool :=
  decide (base.toNat ≤ a.toNat) && decide (a.toNat < base.toNat + 4 * n)

/-- Whether [base, base + 4·n) wraps past 2^32 (rule R61). -/
def wraps (base : Addr) (n : Nat) : Bool := decide (2 ^ 32 < base.toNat + 4 * n)

/-- Whether two ranges of n pixels overlap other than exactly (rule R70). -/
def overlapsPartly (b c : Addr) (n : Nat) : Bool :=
  decide (b ≠ c) && decide (b.toNat < c.toNat + 4 * n) && decide (c.toNat < b.toNat + 4 * n)

/-- Whether [base, base + 4·n) touches memory with side effects (rule R59). -/
def touchesSideEffects (map : List Region) (base : Addr) (n : Nat) : Bool :=
  map.any fun r => r.kind == .sideEffecting && decide (r.base < base.toNat + 4 * n) &&
    decide (base.toNat < r.base + r.size) && decide (0 < r.size)

/-- The used ranges of a command: destination and source, and the mask when M = 1 (rule R57). -/
def usedBases (masked : Bool) (r : HostRegs) : List Addr :=
  if masked then [hardwire r.dst, hardwire r.src, hardwire r.msk]
  else [hardwire r.dst, hardwire r.src]

/-- The contract violation of a command presented with these registers, if any (rules R61, R70, R203).
COUNT = 0 uses no range and violates nothing (rule R175, log entry 10). -/
def contractViolation (masked : Bool) (cfg : Params) (r : HostRegs) : Option Refusal :=
  let n := r.count.toNat
  let bases := usedBases masked r
  if n = 0 then none
  else if bases.any (fun b => wraps b n) then some .rangeWraps
  else if bases.any (fun b => overlapsPartly (hardwire r.dst) b n) then some .partialOverlap
  else if bases.any (fun b => touchesSideEffects cfg.memMap b n) then some .sideEffectingMemory
  else none

/-! ### Stages of an iteration (rule R172) -/

/-- Stage 1: LM ← span_mask(iN) (rules R34, R150). -/
def spanStage (s : State) : State := s.setDp { s.dp with LM := spanMask s.lanes s.eng.iN }

/-- Stage 2: VM ← VecRead(iM, LM); fT ← isTransparentMask(VM, a). -/
def loadMask (a : Nat) (s : State) : Res State :=
  andThen (vread s.eng.iM s) fun (v, s) => .next (s.setDp (testTransparent a { s.dp with VM := v }))

/-- Stage 3: VS ← VecRead(iS, LM). -/
def loadSource (s : State) : Res State :=
  andThen (vread s.eng.iS s) fun (v, s) => .next (s.setDp { s.dp with VS := v })

/-- Stage 4 of an unmasked command: VE ← VS. -/
def takeSource (s : State) : State := s.setDp { s.dp with VE := s.dp.VS }

/-- Stage 4 when fT = 1: VE ← all lanes 0 (rules R164, R166). -/
def clearSource (s : State) : State := s.setDp { s.dp with VE := List.replicate s.lanes 0 }

/-- Stage 4 of a masked command: widen, mask-premultiply by mul16, narrow (rules R107, R172). -/
def combineMask (a : Nat) (s : State) : Res State :=
  let hS := widenV s.dp.VS
  let hM := widenV s.dp.VM
  match Halves.mul hS (hM.bcast a) with
  | some h => .next (s.setDp { s.dp with hVS := hS, hVM := hM, hVE := h, VE := narrowV h })
  | none => .refused .wideMultiplyOperand

/-- Stages 3 and 4 of an unmasked command. -/
def plainSource (s : State) : Res State := andThen (loadSource s) fun s => .next (takeSource s)

/-- Stages 2 to 4 of a masked command: the source is not read when fT = 1 (rule R166). -/
def maskedSource (a : Nat) (s : State) : Res State :=
  andThen (loadMask a s) fun s =>
    if s.dp.fT then .next (clearSource s) else andThen (loadSource s) (combineMask a)

/-- Stage 6: VD ← VecRead(iD, LM). -/
def loadDst (s : State) : Res State :=
  andThen (vread s.eng.iD s) fun (v, s) => .next (s.setDp { s.dp with VD := v })

/-- Stage 7: widen VE and VD, run a kernel, narrow, and finish on narrowed channels (rules R108, R172). -/
def kernelStage (kernel : Halves → Halves → Option Halves)
    (finish : PixelVector → Datapath → PixelVector) (s : State) : Res State :=
  let hE := widenV s.dp.VE
  let hD := widenV s.dp.VD
  match kernel hE hD with
  | some h =>
    .next (s.setDp { s.dp with hVE := hE, hVD := hD, hVR := h, VR := finish (narrowV h) s.dp })
  | none => .refused .wideMultiplyOperand

/-- Stage 8: VecWrite(iD, LM, VR). -/
def storeResult (s : State) : Res State := vwrite s.eng.iD s.dp.VR s

/-- Stage 8 of the opaque shortcut: VecWrite(iD, LM, VE) (rule R164). -/
def storeEffective (s : State) : Res State := vwrite s.eng.iD s.dp.VE s

/-- Stages 6 to 8 without a shortcut: read the destination, compute, write. -/
def composite (kernel : Halves → Halves → Option Halves)
    (finish : PixelVector → Datapath → PixelVector) (s : State) : Res State :=
  andThen (loadDst s) fun s => andThen (kernelStage kernel finish s) storeResult

/-- Over's kernel and its saturating add of the effective source (rule R120). -/
def compositeOver (a : Nat) (s : State) : Res State :=
  composite (kernelDst a) (fun v d => saddV d.VE v) s

/-- OverReverse's kernel and its saturating add of the destination (rule R121). -/
def compositeOverrev (a : Nat) (s : State) : Res State :=
  composite (kernelSrc a) (fun v d => saddV d.VD v) s

/-- OutReverse's kernel, with "no additive term" (rule R122). -/
def compositeOutrev (a : Nat) (s : State) : Res State := composite (kernelDst a) (fun v _ => v) s

/-- Add's saturating add, with "no alpha weighting at all" (rule R123). -/
def compositeAdd (s : State) : Res State :=
  composite (fun hE _ => kernelPass hE) (fun v d => saddV v d.VD) s

end Sys2Proof.Machine
end

