-- ==== Sys2Proof/Machine/Engine.lean ====
section
/-! DEFINITION. The row driver: acceptance, iteration and completion of every command
(spec/44_row_driver.md). -/

namespace Sys2Proof.Machine

/-- The command the engine runs, from its latched fields (rule R30). -/
def running (s : State) : Instr := ofFields s.eng.cFUNC s.eng.cM s.eng.cACH

/-- The state after acceptance (rule R170). BUSY rises only when COUNT ≠ 0 (rule R175). -/
def accepted (i : Instr) (s : State) : State :=
  (s.setEng
    { cFUNC := i.func, cM := i.masked, cACH := BitVec.ofNat 2 i.ach
      iD := hardwire s.regs.dst, iS := hardwire s.regs.src, iM := hardwire s.regs.msk
      iN := s.regs.count }).setRegs
    { s.regs with cmd := encode i, err := false, busy := decide (s.regs.count ≠ 0) }

/-- Acceptance of a legal command word (rule R170), which a model refuses when the command breaks the
contract of rule R203. -/
def accept (i : Instr) (s : State) : Res State :=
  match contractViolation i.masked s.cfg s.regs with
  | some r => .refused r
  | none => .next (accepted i s)

/-- Advance the iteration registers by the k active lanes, 32-bit additions (rule R173). -/
def advance (masked : Bool) (k : Nat) (e : Engine) : Engine :=
  { e with
    iD := e.iD + BitVec.ofNat 32 (4 * k)
    iS := e.iS + BitVec.ofNat 32 (4 * k)
    iM := if masked then e.iM + BitVec.ofNat 32 (4 * k) else e.iM
    iN := e.iN - BitVec.ofNat 32 k }

/-- One iteration: span_mask, the command's iteration body, the advance (rule R171). -/
def iterate (masked : Bool) (body : State → Res State) (s : State) : Res State :=
  andThen (body (spanStage s)) fun t =>
    .next (t.setEng (advance masked (activeCount s.lanes s.eng.iN) t.eng))

/-- Completion: STATUS.BUSY ← 0 (rules R171, R177). -/
def complete (s : State) : State := s.setRegs { s.regs with busy := false }

/-- The engine driven by a command: acceptance when idle; when running, the next iteration, or completion
once no pixel is left. Each is one step (rule R179). -/
def drive (i : Instr) (body : State → Res State) (s : State) : Res State :=
  if s.regs.busy then
    if s.eng.iN = 0 then .next (complete s) else iterate i.masked body s
  else accept i s

end Sys2Proof.Machine
end

