-- ==== Sys2Proof/Machine/ClosedForm.lean ====
section
/-! DEFINITION. The next iteration in closed form: which pixels the platform backs, what each lane's new value is,
and which requests the iteration performs (spec/41_operators.md, spec/43_fast_path.md, spec/44_row_driver.md rule
R181). The iteration bodies do not use it; reset does, and the claims. -/

namespace Sys2Proof.Machine

/-! ### Backed memory (rules R59, R72) -/

/-- The platform backs an address with plain memory. -/
def plainAt (cfg : Params) (a : Addr) : Bool := kindAt cfg.memMap a.toNat == some .plain

/-- The platform backs the four bytes of a pixel with plain memory. -/
def pixelBacked (cfg : Params) (a : Addr) : Bool :=
  plainAt cfg a && plainAt cfg (a + 1) && plainAt cfg (a + 2) && plainAt cfg (a + 3)

/-- The platform backs pixels 0..n-1 of a buffer with plain memory. -/
def bufferBacked (cfg : Params) (base : Addr) (n : Nat) : Bool :=
  (List.range n).all fun j => pixelBacked cfg (pixelAddr base j)

/-- The number of active lanes of the next iteration (rule R150). -/
def activeLanes (s : State) : Nat := activeCount s.lanes s.eng.iN

/-! ### Results -/

/-- The pixels a running command has done: COUNT - iN (rule R173). -/
def pixelsDone (s : State) : Nat := s.regs.count.toNat - s.eng.iN.toNat

/-- The new value of lane j of the next iteration, from the memory before it (rules R125 to R132, "Result"). -/
def laneResult (i : Instr) (s : State) (j : Nat) : Pixel :=
  opPixel i
    (effective i (readPixel s.mem (pixelAddr s.eng.iS j)) (readPixel s.mem (pixelAddr s.eng.iM j)))
    (readPixel s.mem (pixelAddr s.eng.iD j))

/-! ### The shortcuts and their memory traffic (spec/43_fast_path.md rule R164) -/

/-- Every mask lane of the next iteration has alpha 0 (rules R162, R163). -/
def transparentSpan (i : Instr) (s : State) : Bool :=
  (List.range (activeLanes s)).all fun j => ch (readPixel s.mem (pixelAddr s.eng.iM j)) i.ach == 0

/-- The effective source of lane j of the next iteration (rule R181). -/
def laneSource (i : Instr) (s : State) (j : Nat) : Pixel :=
  effective i (readPixel s.mem (pixelAddr s.eng.iS j)) (readPixel s.mem (pixelAddr s.eng.iM j))

/-- Every active lane of the effective source is 0 (rules R160, R163). -/
def zeroSpan (i : Instr) (s : State) : Bool :=
  (List.range (activeLanes s)).all fun j => laneSource i s j == 0

/-- All W lanes are active and of alpha 255 in the effective source; never so on a tail (rules R161, R163). -/
def opaqueSpan (i : Instr) (s : State) : Bool :=
  activeLanes s == s.lanes &&
    (List.range (activeLanes s)).all fun j => ch (laneSource i s j) i.ach == 255

/-- The direction and the address of a request. -/
def MemAccess.request (m : MemAccess) : AccessKind × Addr := (m.kind, m.base)

/-- The requests of the next iteration of a command, in order: the table of rule R164 and the order of rule
R62. -/
def traffic (i : Instr) (s : State) : List (AccessKind × Addr) :=
  (if i.masked then [(.read, s.eng.iM)] else []) ++
  (if i.masked && transparentSpan i s then [] else [(.read, s.eng.iS)]) ++
  match i with
  | .opOver _ | .opOverM _ =>
    if zeroSpan i s then [] else if opaqueSpan i s then [(.write, s.eng.iD)]
    else [(.read, s.eng.iD), (.write, s.eng.iD)]
  | .opOverrev _ | .opOverrevM _ =>
    if zeroSpan i s then [] else [(.read, s.eng.iD), (.write, s.eng.iD)]
  | .opOutrev _ | .opOutrevM _ | .opAdd _ | .opAddM _ => [(.read, s.eng.iD), (.write, s.eng.iD)]

/-- The platform backs every pixel that the next iteration reads (rules R72, R164). -/
def readsBacked (i : Instr) (s : State) : Bool :=
  (traffic i s).all fun q => q.1 == .write || bufferBacked s.cfg q.2 (activeLanes s)

end Sys2Proof.Machine
end

