-- ==== Sys2Proof/Machine/Bus.lean ====
section
/-! DEFINITION. The turns of the agents: the host's register accesses (spec/10_state.md rules R21 to R29),
WAIT (spec/30_encoding.md rule R91), reset (spec/70_reset_and_hazards.md), and the memory accesses of other
agents (spec/20_memory.md rule R71). The meaning of a command is the argument `run`, so that this file
stands before the dispatch. -/

namespace Sys2Proof.Machine

/-! ### Register accesses -/

/-- The offset of a bus address in the register block at REG_BASE, if it lies there (rule R21). -/
def busOffset (cfg : Params) (busAddr : Addr) : Option (BitVec 8) :=
  if (busAddr - cfg.regBase).toNat < 256 then some ((busAddr - cfg.regBase).setWidth 8) else none

/-- "Only naturally aligned 32-bit accesses to the register block are defined" (rule R28). -/
def definedAccess (size4 : Bool) (off : BitVec 8) : Bool := size4 && decide (off.toNat % 4 = 0)

/-- A register read: a narrower or misaligned one returns 0 (rule R28); one outside the block is another
target's and is not seen here (log entry 12). -/
def busRead (busAddr : Addr) (size4 : Bool) (s : State) : State :=
  match busOffset s.cfg busAddr with
  | none => s
  | some off => s.setRdata (if definedAccess size4 off then readRegister (regAt off) s else 0)

/-- A word presented to the decoder while idle: run the command, or raise IllegalCommand
(rules R22, R86, R201). -/
def presentCommand (run : Instr → State → Res State) (w : Word) (s : State) : Res State :=
  match decode w with
  | .ok i => run i s
  | .error _ => .next (raiseIllegalCommand s)

/-- A register write: ignored while busy (rule R29) and when narrower or misaligned (rule R28); a write of
CMD presents a command (rule R22). -/
def busWrite (run : Instr → State → Res State) (w : RegWrite) (s : State) : Res State :=
  match busOffset s.cfg w.busAddr with
  | none => .next s
  | some off =>
    if s.regs.busy then .next s
    else if definedAccess w.size4 off then
      if regAt off = .cmd then presentCommand run w.data s
      else .next (writeRegister (regAt off) w.data s)
    else .next s

/-- One poll of WAIT: read STATUS; while BUSY reads 1 the engine gets a turn and the poll is repeated
(rule R91, log entry 16). -/
def poll (s : State) : State :=
  let t := s.setRdata (readRegister .status s)
  if s.regs.busy then t.pushTurns [.engine, .wait] else t

/-- The engine's turn: the running command's next step; an idle engine does nothing (rules R171, R209). -/
def engineTurn (run : Instr → State → Res State) (s : State) : Res State :=
  if s.regs.busy then run (running s) s else .next s

/-! ### Reset (rules R220, R221) -/

/-- Every register at its value of rule R39. The parameters, memory, the host's received data and the turns
to come stay. -/
def resetRegisters (s : State) : State :=
  ((s.setRegs HostRegs.reset).setEng Engine.reset).setDp (Datapath.reset s.lanes)

/-- Give lanes i, i+1, … below i + k of a vector at `base` their new value where `choose` says so, each pixel
whole (rule R221). -/
def drawPixels (choose : Nat → Bool) (new : Nat → Pixel) (base : Addr) : Nat → Nat → Memory → Memory
  | _, 0, m => m
  | i, k + 1, m =>
    drawPixels choose new base (i + 1) k (if choose i then writePixel m (pixelAddr base i) (new i) else m)

/-- RESET_DRAW's choice for lane j of the interrupted iteration, whose buffer pixel index is COUNT - iN + j. A
pixel that the platform does not back cannot have been written (log entry 7). -/
def resetChoice (s : State) (j : Nat) : Bool :=
  Config.resetDraw s.draws (pixelsDone s + j) && pixelBacked s.cfg (pixelAddr s.eng.iD j)

/-- The memory a reset leaves: each pixel of the interrupted iteration is RESET_DRAW's, its old value or the
computed one of rule R181, and every other byte is unchanged (rules R221, R222). Every read of an iteration
precedes its write (rule R62), so an iteration with a read that has no step wrote nothing (log entry 7). -/
def memoryAtReset (s : State) : Memory :=
  if s.regs.busy && decide (s.eng.iN ≠ 0) && readsBacked (running s) s then
    drawPixels (resetChoice s) (laneResult (running s) s) s.eng.iD 0 (activeLanes s) s.mem
  else s.mem

/-- Reset: it stops a running command, whatever that command meets, and presents none; a coincident register
write has no effect (rules R205, R220, R221). -/
def resetTurn (s : State) : State := (resetRegisters (s.setMem (memoryAtReset s))).countDraw

/-! ### Memory accesses of other agents (rules R65, R71, R203) -/

/-- Whether an address is in a used range of the running command (rules R57, R71). -/
def inUsedRange (s : State) (a : Addr) : Bool :=
  s.regs.busy && (usedBases s.eng.cM s.regs).any fun b => inRange b s.regs.count.toNat a

/-- Another agent writes a byte: refused inside a used range of a running command (rules R71, R203), and that
before whether the byte is backed is asked, an order the spec leaves open (DESIGN CHOICE, log entry 8). -/
def agentWrite (a : Addr) (b : Byte) (s : State) : Res State :=
  if inUsedRange s a then .refused .racingWrite
  else andThen (checkByte s.cfg a) fun _ => .next (s.setMem (setByte s.mem a b))

/-- Another agent reads a byte: inside the destination of a running command it receives any value (rules R71,
R203), and that before whether the byte is backed is asked, as in a write (DESIGN CHOICE, log entry 8). -/
def agentRead (a : Addr) (s : State) : Res State :=
  if s.regs.busy && inRange (hardwire s.regs.dst) s.regs.count.toNat a then
    .next ((s.setHostByte (Config.raceByte s.draws)).countDraw)
  else andThen (checkByte s.cfg a) fun _ => .next (s.setHostByte (byteAt s.mem a))

/-! ### One turn -/

/-- What a turn of an agent does. -/
def handle (run : Instr → State → Res State) (e : HostEvent) (s : State) : Res State :=
  match e with
  | .regWrite w => busWrite run w s
  | .regRead a size4 => .next (busRead a size4 s)
  | .wait => .next (poll s)
  | .engine => engineTurn run s
  | .reset _ => .next (resetTurn s)
  | .memWrite a b => agentWrite a b s
  | .memRead a => agentRead a s

/-- The next turn: the first waiting turn, or the engine's when none waits (log entry 16). -/
def turn (run : Instr → State → Res State) (s : State) : Res State :=
  match s.inputs with
  | [] => engineTurn run (s.takeTurn [])
  | e :: rest => handle run e (s.takeTurn rest)

end Sys2Proof.Machine
end

