-- ==== Sys2Proof/Machine/Add.lean ====
section
/-! DEFINITION. The commands ADD and ADD.M (spec/41_operators.md rules R131, R132). No source shortcut
applies to them (spec/43_fast_path.md rule R164). -/

namespace Sys2Proof.Machine

/-- The iteration body of ADD (rule R131). -/
def bodyAdd (s : State) : Res State := andThen (plainSource s) compositeAdd

/-- The iteration body of ADD.M (rule R132): ACH selects the mask channel. -/
def bodyAddM (a : Nat) (s : State) : Res State := andThen (maskedSource a s) compositeAdd

/-- ADD (rule R131): accepted by an idle engine; a running one does its next iteration or completes. -/
def execAdd (ach : Nat) (s : State) : Res State := drive (.opAdd ach) bodyAdd s

/-- ADD.M (rule R132), driven as ADD is. -/
def execAddM (ach : Nat) (s : State) : Res State := drive (.opAddM ach) (bodyAddM ach) s

end Sys2Proof.Machine
end

