-- ==== Sys2Proof/Machine/OutReverse.lean ====
section
/-! DEFINITION. The commands OUTREV and OUTREV.M (spec/41_operators.md rules R129, R130). No source
shortcut applies to them (spec/43_fast_path.md rule R164). -/

namespace Sys2Proof.Machine

/-- The iteration body of OUTREV (rule R129). -/
def bodyOutrev (a : Nat) (s : State) : Res State := andThen (plainSource s) (compositeOutrev a)

/-- The iteration body of OUTREV.M (rule R130): a transparent mask skips the source read only. -/
def bodyOutrevM (a : Nat) (s : State) : Res State := andThen (maskedSource a s) (compositeOutrev a)

/-- OUTREV (rule R129): accepted by an idle engine; a running one does its next iteration or completes. -/
def execOutrev (ach : Nat) (s : State) : Res State := drive (.opOutrev ach) (bodyOutrev ach) s

/-- OUTREV.M (rule R130), driven as OUTREV is. -/
def execOutrevM (ach : Nat) (s : State) : Res State := drive (.opOutrevM ach) (bodyOutrevM ach) s

end Sys2Proof.Machine
end

