-- ==== Sys2Proof/Machine/Over.lean ====
section
/-! DEFINITION. The commands OVER and OVER.M (spec/41_operators.md rules R125, R126). -/

namespace Sys2Proof.Machine

/-- Over's iteration once the effective source is known: skip when it is zero, copy it when it is opaque,
else composite (rules R125, R126, R164). -/
def overFrom (a : Nat) (s : State) : Res State :=
  let t := s.setDp (testOpaque a (testZero s.dp))
  if t.dp.fZ then .next t
  else if t.dp.fO then storeEffective t
  else compositeOver a t

/-- The iteration body of OVER (rule R125). -/
def bodyOver (a : Nat) (s : State) : Res State := andThen (plainSource s) (overFrom a)

/-- The iteration body of OVER.M (rule R126). -/
def bodyOverM (a : Nat) (s : State) : Res State := andThen (maskedSource a s) (overFrom a)

/-- OVER (rule R125): presented to an idle engine it is accepted; driven by a running one it does its next
iteration or completes (log entry 2). -/
def execOver (ach : Nat) (s : State) : Res State := drive (.opOver ach) (bodyOver ach) s

/-- OVER.M (rule R126), driven as OVER is. -/
def execOverM (ach : Nat) (s : State) : Res State := drive (.opOverM ach) (bodyOverM ach) s

end Sys2Proof.Machine
end

