-- ==== Sys2Proof/Machine/OverReverse.lean ====
section
/-! DEFINITION. The commands OVERREV and OVERREV.M (spec/41_operators.md rules R127, R128). -/

namespace Sys2Proof.Machine

/-- OverReverse's iteration once the effective source is known: skip when it is zero, else composite
(rules R127, R128, R164). -/
def overrevFrom (a : Nat) (s : State) : Res State :=
  let t := s.setDp (testZero s.dp)
  if t.dp.fZ then .next t else compositeOverrev a t

/-- The iteration body of OVERREV (rule R127). -/
def bodyOverrev (a : Nat) (s : State) : Res State := andThen (plainSource s) (overrevFrom a)

/-- The iteration body of OVERREV.M (rule R128). -/
def bodyOverrevM (a : Nat) (s : State) : Res State := andThen (maskedSource a s) (overrevFrom a)

/-- OVERREV (rule R127): accepted by an idle engine; a running one does its next iteration or completes. -/
def execOverrev (ach : Nat) (s : State) : Res State := drive (.opOverrev ach) (bodyOverrev ach) s

/-- OVERREV.M (rule R128), driven as OVERREV is. -/
def execOverrevM (ach : Nat) (s : State) : Res State := drive (.opOverrevM ach) (bodyOverrevM ach) s

end Sys2Proof.Machine
end

