-- ==== Sys2Proof/Machine/Dispatch.lean ====
section
/-! DEFINITION. The meaning of every command, one arm per constructor of Instr. -/

namespace Sys2Proof.Machine

def exec (i : Instr) (s : State) : Host.Outcome State Fault Refusal :=
  match i with
  | .opOver ach => Sys2Proof.Machine.execOver ach s
  | .opOverM ach => Sys2Proof.Machine.execOverM ach s
  | .opOverrev ach => Sys2Proof.Machine.execOverrev ach s
  | .opOverrevM ach => Sys2Proof.Machine.execOverrevM ach s
  | .opOutrev ach => Sys2Proof.Machine.execOutrev ach s
  | .opOutrevM ach => Sys2Proof.Machine.execOutrevM ach s
  | .opAdd ach => Sys2Proof.Machine.execAdd ach s
  | .opAddM ach => Sys2Proof.Machine.execAddM ach s

end Sys2Proof.Machine
end

