-- ==== Sys2Proof/Machine/Step.lean ====
section
/-! DEFINITION. One step of the machine, and where it finds its next command. -/

namespace Sys2Proof.Machine

/-- One step: the next agent's turn, with exec as the meaning of a command. -/
def step (s : State) : Host.Outcome State Fault Refusal := turn exec s

/-- The state whose next step runs the command word w: the engine idle, and a 32-bit write of w to CMD as the
next turn (rule R22; a command word is nowhere in memory, log entry 21). -/
def State.withFetchWord (s : State) (nbits w : Nat) : State :=
  { s with
    regs := { s.regs with busy := false }
    inputs := .regWrite ⟨s.cfg.regBase, true, BitVec.ofNat 32 (w % 2 ^ nbits)⟩ :: s.inputs }

end Sys2Proof.Machine
end

