-- ==== Sys2Proof/Machine/Assembler.lean ====
section
/-! DEFINITION. The assembly syntax of a host program and the turns it stands for
(spec/30_encoding.md rules R91, R92; log entry 23). A statement that a program can write down and that has
no meaning (a command with ach above 3, a number above 32 bits) is rejected by the reader. -/

namespace Sys2Proof.Machine

/-! ### Statements and the turns they stand for -/

/-- A host statement of rule R91. A command statement is the write of its word to CMD. -/
inductive Stmt where
  | wr (r : RegName) (v : Word)
  | rd (r : RegName)
  | wait
  | command (i : Instr)
  deriving DecidableEq, Repr

/-- A register `WR` names: CMD, DST, SRC, MSK or COUNT (rule R91). -/
def RegName.writable : RegName → Bool
  | .cmd | .dst | .src | .msk | .count => true
  | .status | .param | .reserved => false

/-- A register `RD` names: one of rule R21 that has a name (log entry 23). -/
def RegName.named : RegName → Bool
  | .cmd | .status | .dst | .src | .msk | .count | .param => true
  | .reserved => false

/-- Which statements rule R91 has. -/
def Stmt.wellFormed : Stmt → Bool
  | .wr r _ => r.writable
  | .rd r => r.named
  | .wait => true
  | .command i => i.wellFormed

/-- The offset of a register; of the reserved ones the first (rule R21). -/
def RegName.offset : RegName → Addr
  | .cmd => 0x00
  | .status => 0x04
  | .dst => 0x08
  | .src => 0x0C
  | .msk => 0x10
  | .count => 0x14
  | .param => 0x18
  | .reserved => 0x1C

/-- A 32-bit write of a register at REG_BASE + its offset (rule R91). -/
def writeTurn (cfg : Params) (r : RegName) (v : Word) : HostEvent :=
  .regWrite ⟨cfg.regBase + r.offset, true, v⟩

/-- The turn a statement stands for (rule R91). -/
def Stmt.turn (cfg : Params) : Stmt → HostEvent
  | .wr r v => writeTurn cfg r v
  | .rd r => .regRead (cfg.regBase + r.offset) true
  | .wait => .wait
  | .command i => writeTurn cfg .cmd (encode i)

/-- The pseudo-instruction `OP d, s, n` (rule R92). -/
def pseudo (i : Instr) (d s : Addr) (n : Word) : List Stmt :=
  [.wr .dst d, .wr .src s, .wr .count n, .command i, .wait]

/-- The pseudo-instruction `OP.M d, s, m, n` (rule R92). -/
def pseudoM (i : Instr) (d s m : Addr) (n : Word) : List Stmt :=
  [.wr .dst d, .wr .src s, .wr .msk m, .wr .count n, .command i, .wait]

/-- The state in which the host runs a program after the turns already waiting (log entry 1). -/
def load (p : List Stmt) (s : State) : State :=
  { s with inputs := s.inputs ++ p.map (Stmt.turn s.cfg) }

/-! ### Words of a line -/

/-- A space or a tab. -/
def isBlank (c : Char) : Bool := c == ' ' || c == '\t'

/-- Put a finished word before the words after it. -/
def emit (w : List Char) (ws : List (List Char)) : List (List Char) :=
  if w.isEmpty then ws else w.reverse :: ws

/-- The words of a line in upper case, up to a comment; a comma is a word of its own. `w` is the word being
read, last character first. -/
def wordsFrom (w : List Char) : List Char → List (List Char)
  | [] => emit w []
  | c :: cs =>
    if c == ';' then emit w []
    else if isBlank c then emit w (wordsFrom [] cs)
    else if c == ',' then emit w ([','] :: wordsFrom [] cs)
    else wordsFrom (c.toUpper :: w) cs

/-- The lines of a text. `l` is the line being read, last character first. -/
def linesFrom (l : List Char) : List Char → List (List Char)
  | [] => [l.reverse]
  | c :: cs => if c == '\n' then l.reverse :: linesFrom [] cs else linesFrom (c :: l) cs

/-! ### Numbers (rule R91: decimal, or hexadecimal with a 0x prefix) -/

/-- The value of an upper-case digit below the base. -/
def digit (base : Nat) (c : Char) : Option Nat :=
  let n := c.toNat
  let v := if 48 ≤ n ∧ n ≤ 57 then some (n - 48) else if 65 ≤ n ∧ n ≤ 70 then some (n - 55) else none
  v.bind fun d => if d < base then some d else none

/-- The number of some digits after the digits that gave `acc`. -/
def digits (base : Nat) : Nat → List Char → Option Nat
  | acc, [] => some acc
  | acc, c :: cs => (digit base c).bind fun d => digits base (acc * base + d) cs

/-- A number of at least one digit. -/
def number : List Char → Option Nat
  | [] => none
  | ['0', 'X'] => none
  | '0' :: 'X' :: cs => digits 16 0 cs
  | cs => digits 10 0 cs

/-- A number that fits 32 bits. -/
def word32 (cs : List Char) : Option Word :=
  (number cs).bind fun n => if n < 2 ^ 32 then some (BitVec.ofNat 32 n) else none

/-! ### Names -/

/-- A register name. -/
def regNamed (cs : List Char) : Option RegName :=
  if cs = "CMD".toList then some .cmd
  else if cs = "STATUS".toList then some .status
  else if cs = "DST".toList then some .dst
  else if cs = "SRC".toList then some .src
  else if cs = "MSK".toList then some .msk
  else if cs = "COUNT".toList then some .count
  else if cs = "PARAM".toList then some .param
  else none

/-- The command of a mnemonic of rule R88, given its alpha channel index. -/
def commandNamed (cs : List Char) (a : Nat) : Option Instr :=
  if cs = "OVER".toList then some (.opOver a)
  else if cs = "OVER.M".toList then some (.opOverM a)
  else if cs = "OVERREV".toList then some (.opOverrev a)
  else if cs = "OVERREV.M".toList then some (.opOverrevM a)
  else if cs = "OUTREV".toList then some (.opOutrev a)
  else if cs = "OUTREV.M".toList then some (.opOutrevM a)
  else if cs = "ADD".toList then some (.opAdd a)
  else if cs = "ADD.M".toList then some (.opAddM a)
  else none

/-- The word `ach=<a>`, a number of either base that the field of rule R81 holds; without it the index is 3
(rule R91). -/
def achOf : List (List Char) → Option Nat
  | [] => some 3
  | ['A' :: 'C' :: 'H' :: '=' :: a] => (number a).bind fun n => if n < 4 then some n else none
  | _ => none

/-! ### Statements of a line (rules R91, R92) -/

/-- A command statement or a pseudo-instruction from its mnemonic and the words after it. -/
def readCommand (m : List Char) (ws : List (List Char)) : Option (List Stmt) :=
  match ws with
  | d :: [','] :: s :: [','] :: x :: [','] :: n :: rest => do
    let i ← commandNamed m (← achOf rest)
    if i.masked then some (pseudoM i (← word32 d) (← word32 s) (← word32 x) (← word32 n)) else none
  | d :: [','] :: s :: [','] :: n :: rest => do
    let i ← commandNamed m (← achOf rest)
    if i.masked then none else some (pseudo i (← word32 d) (← word32 s) (← word32 n))
  | _ => do some [.command (← commandNamed m (← achOf ws))]

/-- The statements of the words of a line; none when the line is not one of rules R91 and R92. -/
def readWords (ws : List (List Char)) : Option (List Stmt) :=
  match ws with
  | [] => some []
  | m :: rest =>
    if m = "WR".toList then
      match rest with
      | [r, [','], v] => do
        let r ← regNamed r
        if r.writable then some [.wr r (← word32 v)] else none
      | _ => none
    else if m = "RD".toList then
      match rest with
      | [r] => do some [.rd (← regNamed r)]
      | _ => none
    else if m = "WAIT".toList then (if rest.isEmpty then some [.wait] else none)
    else readCommand m rest

/-- The statements of some lines. -/
def readLines : List (List Char) → Option (List Stmt)
  | [] => some []
  | l :: ls => do some ((← readWords (wordsFrom [] l)) ++ (← readLines ls))

/-- The statements of a program's text. -/
def assemble (text : List Char) : Option (List Stmt) := readLines (linesFrom [] text)

end Sys2Proof.Machine
end

