-- ==== Sys2Proof/Safety.lean ====
section
/-! DEFINITION. The terms of the claims: what a program may assume (spec/60_exceptions.md rule R203,
spec/70_reset_and_hazards.md rules R224 to R226), the closed form of a command (spec/44_row_driver.md
rule R181), and the invariant of the machine. -/

namespace Sys2Proof.Machine

/-! ### Backed memory (rules R59, R72) -/

/-- The pixels that the next iteration of a command can access are backed. -/
def iterationBacked (masked : Bool) (s : State) : Bool :=
  bufferBacked s.cfg s.eng.iD (activeLanes s) && bufferBacked s.cfg s.eng.iS (activeLanes s) &&
    (!masked || bufferBacked s.cfg s.eng.iM (activeLanes s))

/-- The used ranges of a command presented with these registers are backed (rules R57, R203). -/
def commandBacked (masked : Bool) (cfg : Params) (r : HostRegs) : Bool :=
  (usedBases masked r).all fun b => bufferBacked cfg b r.count.toNat

/-! ### Results in closed form -/

/-- dst'[j] of rule R181: the new value of destination pixel j, from the memory and the registers at
acceptance. -/
def closedPixel (i : Instr) (m : Memory) (r : HostRegs) (j : Nat) : Pixel :=
  opPixel i
    (effective i (readPixel m (pixelAddr (hardwire r.src) j)) (readPixel m (pixelAddr (hardwire r.msk) j)))
    (readPixel m (pixelAddr (hardwire r.dst) j))

/-- Whether an address is one of the bytes of pixels 0..n-1 of a buffer. -/
def bufferHolds (base : Addr) (n : Nat) (a : Addr) : Bool :=
  (List.range n).any fun j => decide ((a - pixelAddr base j).toNat < 4)

/-- Two memories of one power-on agree on every byte outside pixels 0..n-1 of a buffer. -/
def sameOutside (base : Addr) (n : Nat) (m m' : Memory) : Prop :=
  m'.powerOn = m.powerOn ∧ ∀ a : Addr, bufferHolds base n a = false → byteAt m' a = byteAt m a

/-! ### Iterations and steps of a command (rule R174) -/

/-- ceil(n / W), the iterations of a command of n pixels (rule R174). -/
def iterations (w n : Nat) : Nat := (n + w - 1) / w

/-- The steps from the CMD write of a command of n pixels to its completion: the acceptance alone when n = 0,
else also the iterations and the completion (rules R171, R175, R179). -/
def commandSteps (w n : Nat) : Nat := if n = 0 then 1 else 1 + iterations w n + 1

/-- Some steps one after another. -/
def runSteps : Nat → State → Res State
  | 0, s => .next s
  | k + 1, s => andThen (step s) (runSteps k)

/-- The host presents the word w to an idle block as its next turn (rule R22). -/
def presents (s : State) (w : Word) (rest : List HostEvent) : Prop :=
  s.inputs = .regWrite ⟨s.cfg.regBase, true, w⟩ :: rest ∧ s.regs.busy = false

/-- What a program assures before it launches a command and lets it run undisturbed (rules R203, R223 to R226):
the block is idle, the next turn launches the command and no other turn waits, the command keeps the contract
and its ranges are backed. -/
structure Launch (i : Instr) (s : State) : Prop where
  wellFormed : i.wellFormed = true
  mem        : Memory.wf s.mem = true
  idle       : s.regs.busy = false
  inputs     : s.inputs = [.regWrite ⟨s.cfg.regBase, true, encode i⟩]
  contract   : contractViolation i.masked s.cfg s.regs = none
  backed     : commandBacked i.masked s.cfg s.regs = true

/-! ### What an iteration leaves alone, and the path without shortcuts -/

/-- An iteration of k active lanes advances the iteration registers (rule R173) and leaves everything alone but
them, memory, the datapath registers and the memory port. -/
structure IterationFrame (masked : Bool) (k : Nat) (s t : State) : Prop where
  iD    : t.eng.iD = s.eng.iD + BitVec.ofNat 32 (4 * k)
  iS    : t.eng.iS = s.eng.iS + BitVec.ofNat 32 (4 * k)
  iM    : t.eng.iM = if masked then s.eng.iM + BitVec.ofNat 32 (4 * k) else s.eng.iM
  iN    : t.eng.iN.toNat = s.eng.iN.toNat - k
  latch : t.eng.cFUNC = s.eng.cFUNC ∧ t.eng.cM = s.eng.cM ∧ t.eng.cACH = s.eng.cACH
  regs  : t.regs = s.regs
  cfg   : t.cfg = s.cfg
  rest  : t.hostRdata = s.hostRdata ∧ t.hostByte = s.hostByte ∧ t.draws = s.draws ∧ t.inputs = s.inputs

/-- Stages 2 to 4 of a masked command without the transparent-mask shortcut (rule R165 (a)). -/
def fullMaskedSource (a : Nat) (s : State) : Res State :=
  andThen (loadMask a s) fun s => andThen (loadSource s) (combineMask a)

/-- The iteration body of a command without any shortcut (rule R165). -/
def fullPath (i : Instr) (s : State) : Res State :=
  match i with
  | .opOver a => andThen (plainSource s) (compositeOver a)
  | .opOverM a => andThen (fullMaskedSource a s) (compositeOver a)
  | .opOverrev a => andThen (plainSource s) (compositeOverrev a)
  | .opOverrevM a => andThen (fullMaskedSource a s) (compositeOverrev a)
  | .opOutrev a => andThen (plainSource s) (compositeOutrev a)
  | .opOutrevM a => andThen (fullMaskedSource a s) (compositeOutrev a)
  | .opAdd _ => andThen (plainSource s) compositeAdd
  | .opAddM a => andThen (fullMaskedSource a s) compositeAdd

/-- The masked form of a command (rule R83). -/
def maskedForm : Instr → Instr
  | .opOver a | .opOverM a => .opOverM a
  | .opOverrev a | .opOverrevM a => .opOverrevM a
  | .opOutrev a | .opOutrevM a => .opOutrevM a
  | .opAdd a | .opAddM a => .opAddM a

/-- The same state in a block whose REV_CH is c (rule R106). -/
def State.withRevCh (c : BitVec 2) (s : State) : State := { s with cfg := { s.cfg with revCh := c } }

/-- The same state in a block of another lane count, which rule R180 compares. -/
def State.withLanes (l : Lanes) (s : State) : State := { s with cfg := { s.cfg with lanes := l } }

/-- Lane j of the effective source vector: 0 in an inactive lane (rule R163). -/
def effectiveLanes (i : Instr) (s : State) : PixelVector :=
  (List.range s.lanes).map fun j => if j < activeLanes s then laneSource i s j else 0

/-- Lane j of a vector read at a base: 0 in an inactive lane (rule R55). -/
def loadedLanes (s : State) (base : Addr) : PixelVector :=
  (List.range s.lanes).map fun j => if j < activeLanes s then readPixel s.mem (pixelAddr base j) else 0

/-! ### The invariant -/

/-- A half of a PixelVector of w pixels has 4·w/2 lanes (rule R33). -/
def Halves.sized (w : Nat) (h : Halves) : Prop := h.lo.length = 2 * w ∧ h.hi.length = 2 * w

/-- The datapath registers have W lanes (rules R32 to R34). -/
structure Datapath.sized (w : Nat) (d : Datapath) : Prop where
  VM  : d.VM.length = w
  VS  : d.VS.length = w
  VE  : d.VE.length = w
  VD  : d.VD.length = w
  VR  : d.VR.length = w
  hVM : d.hVM.sized w
  hVS : d.hVS.sized w
  hVE : d.hVE.sized w
  hVD : d.hVD.sized w
  hVR : d.hVR.sized w
  LM  : d.LM.length = w

/-- What holds while a command runs (rules R30, R31, R163, R173, R174, R176): the latched command is the word
in CMD, the iteration registers are in lockstep, only the last iteration is partial, and the command keeps
the contract of rule R203. -/
structure Running (s : State) : Prop where
  command  : s.regs.cmd = encode (running s)
  nonEmpty : s.regs.count ≠ 0
  left     : s.eng.iN.toNat ≤ s.regs.count.toNat
  whole    : s.eng.iN = 0 ∨ pixelsDone s % s.lanes = 0
  dst      : s.eng.iD = pixelAddr (hardwire s.regs.dst) (pixelsDone s)
  src      : s.eng.iS = pixelAddr (hardwire s.regs.src) (pixelsDone s)
  msk      : s.eng.iM = pixelAddr (hardwire s.regs.msk) (if s.eng.cM then pixelsDone s else 0)
  contract : contractViolation s.eng.cM s.cfg s.regs = none

/-- The invariant of the machine. -/
structure Inv (s : State) : Prop where
  /-- Memory is in its canonical form. -/
  mem     : Memory.wf s.mem = true
  /-- CMD holds a legal word: it was accepted, or it is the reset value (rule R22). -/
  cmd     : legal s.regs.cmd = true
  /-- Bits [1:0] of the address registers are 0 (rule R24). -/
  dst     : hardwire s.regs.dst = s.regs.dst
  src     : hardwire s.regs.src = s.regs.src
  msk     : hardwire s.regs.msk = s.regs.msk
  /-- The datapath registers have W lanes. -/
  sized   : s.dp.sized s.lanes
  /-- While BUSY reads 1 a command runs. -/
  running : s.regs.busy = true → Running s

end Sys2Proof.Machine
end

