-- ==== Sys2Proof/Certificates/Slice0/Obligations.lean ====
section
/-! DEFINITION. The statements for the provers, in the order of OBLIGATIONS.json: encoding, host accesses,
acceptance and completion, iterations, shortcuts and ranges, arithmetic, whole commands, reset, other agents,
invariants. -/

open Sys2Proof Sys2Proof.Machine

/-! ### Encoding -/

/-- Rules R81, R88: decoding the word of a well-formed command gives the command back. -/
def Obligations.EncodedCommandDecodesToItself : Prop :=
  ∀ i : Instr, i.wellFormed = true → decode (encode i) = .ok i

/-- Rules R81, R85, R88: a word that decodes is the encoding of the well-formed command it decodes to. -/
def Obligations.DecodedWordIsItsEncoding : Prop :=
  ∀ (w : Word) (i : Instr), decode w = .ok i → i.wellFormed = true ∧ encode i = w

/-- Rule R86: a word is legal exactly when [31:7] is 0 and [3:0] is at most 3; the legal words are the
4 × 2 × 4 words of FUNC, M and ACH, and they are the words that decode. -/
def Obligations.LegalWordsAreTheThirtyTwo : Prop :=
  ∀ w : Word,
    (legal w = true ↔ w.extractLsb' 7 25 = 0 ∧ (w.extractLsb' 0 4).toNat ≤ 3) ∧
    (legal w = true ↔ ∃ i, decode w = .ok i) ∧
    (legal w = true ↔
      ∃ f m a : Nat, f < 4 ∧ m < 2 ∧ a < 4 ∧ w = BitVec.ofNat 32 (f + 16 * m + 32 * a))

/-- Rule R89: the rejected words are those with FUNC of 4 to 15 and those with a set bit in [31:7]. -/
def Obligations.IllegalWordsAreRejected : Prop :=
  ∀ w : Word, (∃ e, decode w = .error e) ↔
    (4 ≤ (w.extractLsb' 0 4).toNat ∨ ∃ b, 7 ≤ b ∧ b < 32 ∧ w.getLsbD b = true)

/-- Rule R88: a word decodes to a command exactly when the bits outside ACH are the command's match word and
bits [6:5] are its ACH. -/
def Obligations.WordsMatchTheOpcodeTable : Prop :=
  ∀ (w : Word) (i : Instr), decode w = .ok i ↔
    (w &&& 0xFFFFFF9F#32 = i.matchWord ∧ i.ach = (w.extractLsb' 5 2).toNat)

/-- A check on words written out from rule R88, one a row and two that are illegal. -/
def Obligations.WordsOfTheSpecDecode : Prop :=
  decode 0b00000000000000000000000001100000#32 = .ok (.opOver 3) ∧
  decode 0b00000000000000000000000001110000#32 = .ok (.opOverM 3) ∧
  decode 0b00000000000000000000000001100001#32 = .ok (.opOverrev 3) ∧
  decode 0b00000000000000000000000000010001#32 = .ok (.opOverrevM 0) ∧
  decode 0b00000000000000000000000000100010#32 = .ok (.opOutrev 1) ∧
  decode 0b00000000000000000000000001110010#32 = .ok (.opOutrevM 3) ∧
  decode 0b00000000000000000000000001000011#32 = .ok (.opAdd 2) ∧
  decode 0b00000000000000000000000000010011#32 = .ok (.opAddM 0) ∧
  decode 0b00000000000000000000000000000100#32 = .error .reservedFunc ∧
  decode 0b10000000000000000000000001100000#32 = .error .reservedBits

/-! ### Host accesses -/

/-- Rules R22, R80: a CMD write to an idle block runs exec of the command its word decodes to, on the state
whose memory port is empty and whose next turn is the one after the write. -/
def Obligations.CommandWriteRunsTheDecodedCommand : Prop :=
  ∀ (s : State) (w : Word) (i : Instr) (rest : List HostEvent),
    presents s w rest → decode w = .ok i → step s = exec i (s.takeTurn rest)

/-- Rule R171, with the scheduling of log entry 16: the engine's turn runs exec of the latched command while
busy, and an idle engine changes nothing. -/
def Obligations.EngineTurnRunsTheLatchedCommand : Prop :=
  ∀ (s : State) (rest : List HostEvent),
    (s.inputs = .engine :: rest ∨ (s.inputs = [] ∧ rest = [])) →
    (s.regs.busy = true → step s = exec (running s) (s.takeTurn rest)) ∧
    (s.regs.busy = false → step s = .next (s.takeTurn rest))

/-- Rules R201, R89, R206: an illegal word written to CMD while idle sets STATUS.ERR and changes nothing else. -/
def Obligations.IllegalCommandSetsErrOnly : Prop :=
  ∀ (s : State) (w : Word) (rest : List HostEvent), presents s w rest → legal w = false →
    step s = .next { s.takeTurn rest with regs := { s.regs with err := true } }

/-- Rules R29, R202: while BUSY reads 1 every register write is ignored, and a read changes nothing but the word
the host received. -/
def Obligations.BusyBlockIgnoresRegisterWrites : Prop :=
  ∀ (s : State) (rest : List HostEvent), s.regs.busy = true →
    (∀ w, s.inputs = .regWrite w :: rest → step s = .next (s.takeTurn rest)) ∧
    (∀ a size4, s.inputs = .regRead a size4 :: rest →
      ∃ v, step s = .next { s.takeTurn rest with hostRdata := v })

/-- Rules R21 to R26: a 32-bit read of a register gives its value, idle or busy, and changes nothing else. -/
def Obligations.RegisterReadsGiveTheirValues : Prop :=
  ∀ (s : State) (r : RegName) (rest : List HostEvent),
    s.inputs = .regRead (s.cfg.regBase + r.offset) true :: rest →
    ∃ v, step s = .next { s.takeTurn rest with hostRdata := v } ∧
      match r with
      | .cmd => v = s.regs.cmd
      | .status => v = (if s.regs.busy then 1 else 0) + (if s.regs.err then 2 else 0)
      | .dst => v.extractLsb' 2 30 = s.regs.dst.extractLsb' 2 30 ∧ v.extractLsb' 0 2 = 0
      | .src => v.extractLsb' 2 30 = s.regs.src.extractLsb' 2 30 ∧ v.extractLsb' 0 2 = 0
      | .msk => v.extractLsb' 2 30 = s.regs.msk.extractLsb' 2 30 ∧ v.extractLsb' 0 2 = 0
      | .count => v = s.regs.count
      | .param => v.toNat = s.lanes
      | .reserved => v = 0

/-- Rules R21, R23 to R27: a 32-bit write to an idle block's register. DST, SRC and MSK store wdata[31:2] over
bits [1:0] of 0, COUNT stores all of wdata, and the others but CMD ignore the write. -/
def Obligations.RegisterWritesWhileIdle : Prop :=
  ∀ (s : State) (r : RegName) (v : Word) (rest : List HostEvent),
    s.inputs = .regWrite ⟨s.cfg.regBase + r.offset, true, v⟩ :: rest → s.regs.busy = false →
    let stored : Word := v.extractLsb' 2 30 ++ 0#2
    match r with
    | .cmd => True
    | .dst => step s = .next { s.takeTurn rest with regs := { s.regs with dst := stored } }
    | .src => step s = .next { s.takeTurn rest with regs := { s.regs with src := stored } }
    | .msk => step s = .next { s.takeTurn rest with regs := { s.regs with msk := stored } }
    | .count => step s = .next { s.takeTurn rest with regs := { s.regs with count := v } }
    | .status | .param | .reserved => step s = .next (s.takeTurn rest)

/-- Rule R27: the offsets 0x1C to 0xFC (and the bytes after them) read 0 and ignore writes, with no side effect. -/
def Obligations.ReservedOffsetsReadZero : Prop :=
  ∀ (s : State) (off : BitVec 8) (size4 : Bool) (v : Word) (rest : List HostEvent),
    0x1C ≤ off.toNat →
    (s.inputs = .regRead (s.cfg.regBase + off.setWidth 32) size4 :: rest →
      step s = .next { s.takeTurn rest with hostRdata := 0 }) ∧
    (s.inputs = .regWrite ⟨s.cfg.regBase + off.setWidth 32, size4, v⟩ :: rest →
      step s = .next (s.takeTurn rest))

/-- Rule R28: a narrower or misaligned register read returns 0 and a narrower or misaligned register write is
ignored, at every offset of the block. That an access is misaligned when its offset is not a multiple of 4, whatever
REG_BASE is, is the model's choice (log entry 12). -/
def Obligations.NarrowOrMisalignedAccesses : Prop :=
  ∀ (s : State) (off : BitVec 8) (size4 : Bool) (v : Word) (rest : List HostEvent),
    (size4 = false ∨ off.toNat % 4 ≠ 0) →
    (s.inputs = .regRead (s.cfg.regBase + off.setWidth 32) size4 :: rest →
      step s = .next { s.takeTurn rest with hostRdata := 0 }) ∧
    (s.inputs = .regWrite ⟨s.cfg.regBase + off.setWidth 32, size4, v⟩ :: rest →
      step s = .next (s.takeTurn rest))

/-- Rule R91: WAIT reads STATUS; it is done when BUSY reads 0, else the poll is repeated. That the engine gets a
turn before the next poll is the model's choice (log entry 16). -/
def Obligations.WaitPollsUntilIdle : Prop :=
  ∀ (s : State) (rest : List HostEvent), s.inputs = .wait :: rest →
    (s.regs.busy = false →
      step s = .next { s.takeTurn rest with hostRdata := if s.regs.err then 2 else 0 }) ∧
    (s.regs.busy = true →
      step s = .next { s.takeTurn rest with
        hostRdata := if s.regs.err then 3 else 1
        inputs := .engine :: .wait :: rest })

/-- Rules R91, R92: the pseudo-instructions stand for the register writes in their order, the command word, and
WAIT; a command without ach= has ACH 3. -/
def Obligations.PseudoInstructionsExpand : Prop :=
  (∀ (cfg : Params) (i : Instr) (d s n : Word), (pseudo i d s n).map (Stmt.turn cfg) =
    [.regWrite ⟨cfg.regBase + 0x08, true, d⟩, .regWrite ⟨cfg.regBase + 0x0C, true, s⟩,
     .regWrite ⟨cfg.regBase + 0x14, true, n⟩, .regWrite ⟨cfg.regBase, true, encode i⟩, .wait]) ∧
  (∀ (cfg : Params) (i : Instr) (d s m n : Word), (pseudoM i d s m n).map (Stmt.turn cfg) =
    [.regWrite ⟨cfg.regBase + 0x08, true, d⟩, .regWrite ⟨cfg.regBase + 0x0C, true, s⟩,
     .regWrite ⟨cfg.regBase + 0x10, true, m⟩, .regWrite ⟨cfg.regBase + 0x14, true, n⟩,
     .regWrite ⟨cfg.regBase, true, encode i⟩, .wait]) ∧
  (∀ ws, readWords ("OVER.M".toList :: ws) = readCommand "OVER.M".toList ws) ∧
  readCommand "OVER.M".toList [] = some [.command (.opOverM 3)]

/-! ### Acceptance and completion -/

/-- Rule R170: what acceptance of a legal word leaves, all of it, for a command that keeps the contract of
rule R203. -/
def Obligations.AcceptanceLatchesTheCommand : Prop :=
  ∀ (s : State) (w : Word) (i : Instr) (rest : List HostEvent),
    presents s w rest → decode w = .ok i → contractViolation i.masked s.cfg s.regs = none →
    step s = .next { s.takeTurn rest with
      regs := { s.regs with cmd := w, err := false, busy := decide (s.regs.count ≠ 0) }
      eng :=
        { cFUNC := w.extractLsb' 0 2, cM := w.getLsbD 4, cACH := w.extractLsb' 5 2
          iD := readRegister .dst s, iS := readRegister .src s, iM := readRegister .msk s
          iN := s.regs.count } }

/-- Rule R175: a command accepted with COUNT = 0 reads and writes no memory, leaves BUSY 0 and clears ERR; the
engine then has nothing to do. -/
def Obligations.ZeroCountTouchesNoMemory : Prop :=
  ∀ (s : State) (w : Word) (i : Instr) (rest : List HostEvent),
    presents s w rest → decode w = .ok i → s.regs.count = 0 →
    ∃ t, step s = .next t ∧ t.mem = s.mem ∧ t.memPort = [] ∧ t.regs.busy = false ∧ t.regs.err = false ∧
      (rest = [] → step t = .next t)

/-- Rules R61, R70, R59, R203: when a command presented with COUNT ≠ 0 is refused and when it is accepted. The
order in which the violations are named is the model's (log entry 10). -/
def Obligations.ContractBreakingCommandsAreRefused : Prop :=
  ∀ (i : Instr) (s : State), s.regs.busy = false → s.regs.count ≠ 0 →
    let n := s.regs.count.toNat
    let d := readRegister .dst s
    let used := [d, readRegister .src s] ++ (if i.masked then [readRegister .msk s] else [])
    let wrapping := ∃ b ∈ used, 2 ^ 32 < b.toNat + 4 * n
    let overlapping := ∃ b ∈ used, b ≠ d ∧ ∃ a, inRange d n a = true ∧ inRange b n a = true
    let device := ∃ b ∈ used, ∃ a, inRange b n a = true ∧ kindAt s.cfg.memMap a.toNat = some .sideEffecting
    (wrapping → exec i s = .refused .rangeWraps) ∧
    (¬ wrapping → overlapping → exec i s = .refused .partialOverlap) ∧
    (¬ wrapping → ¬ overlapping → device → exec i s = .refused .sideEffectingMemory) ∧
    (¬ wrapping → ¬ overlapping → ¬ device → ∃ t, exec i s = .next t ∧ t.regs.busy = true)

/-- Rules R171, R177: when no pixel is left, the engine's step only clears BUSY. -/
def Obligations.CompletionClearsBusy : Prop :=
  ∀ (i : Instr) (s : State), s.regs.busy = true → s.eng.iN = 0 →
    exec i s = .next { s with regs := { s.regs with busy := false } }

/-- Rule R178: a running command's steps change no operand register and not CMD, and the word in CMD reissues
the command. -/
def Obligations.RunningCommandKeepsTheHostRegisters : Prop :=
  ∀ s t : State, s.regs.busy = true → Running s → exec (running s) s = .next t →
    t.regs.dst = s.regs.dst ∧ t.regs.src = s.regs.src ∧ t.regs.msk = s.regs.msk ∧
    t.regs.count = s.regs.count ∧ t.regs.cmd = s.regs.cmd ∧ decode t.regs.cmd = .ok (running s)

/-! ### Iterations: one a command. The iteration answers a next state whenever the pixels it can access are
backed; every lane of the destination holds the operator's result of the pixels before the iteration, every other
byte of memory is unchanged, and the frame is as IterationFrame and the datapath clauses say. -/

/-- Rule R125. -/
def Obligations.OverIteration : Prop :=
  ∀ (a : Nat) (s : State), a < 4 → s.regs.busy = true → s.eng.iN ≠ 0 → Memory.wf s.mem = true →
    iterationBacked false s = true →
    ∃ t, exec (.opOver a) s = .next t ∧
      (∀ j, j < activeLanes s → readPixel t.mem (pixelAddr s.eng.iD j) =
        overPixel (readPixel s.mem (pixelAddr s.eng.iS j)) (readPixel s.mem (pixelAddr s.eng.iD j)) a) ∧
      sameOutside s.eng.iD (activeLanes s) s.mem t.mem ∧
      IterationFrame false (activeLanes s) s t

/-- Rule R126. -/
def Obligations.OverMIteration : Prop :=
  ∀ (a : Nat) (s : State), a < 4 → s.regs.busy = true → s.eng.iN ≠ 0 → Memory.wf s.mem = true →
    iterationBacked true s = true →
    ∃ t, exec (.opOverM a) s = .next t ∧
      (∀ j, j < activeLanes s → readPixel t.mem (pixelAddr s.eng.iD j) =
        overPixel
          (maskc (readPixel s.mem (pixelAddr s.eng.iS j)) (readPixel s.mem (pixelAddr s.eng.iM j)) a)
          (readPixel s.mem (pixelAddr s.eng.iD j)) a) ∧
      sameOutside s.eng.iD (activeLanes s) s.mem t.mem ∧
      IterationFrame true (activeLanes s) s t

/-- Rule R127. -/
def Obligations.OverrevIteration : Prop :=
  ∀ (a : Nat) (s : State), a < 4 → s.regs.busy = true → s.eng.iN ≠ 0 → Memory.wf s.mem = true →
    iterationBacked false s = true →
    ∃ t, exec (.opOverrev a) s = .next t ∧
      (∀ j, j < activeLanes s → readPixel t.mem (pixelAddr s.eng.iD j) =
        overrevPixel (readPixel s.mem (pixelAddr s.eng.iS j)) (readPixel s.mem (pixelAddr s.eng.iD j)) a) ∧
      sameOutside s.eng.iD (activeLanes s) s.mem t.mem ∧
      IterationFrame false (activeLanes s) s t

/-- Rule R128. -/
def Obligations.OverrevMIteration : Prop :=
  ∀ (a : Nat) (s : State), a < 4 → s.regs.busy = true → s.eng.iN ≠ 0 → Memory.wf s.mem = true →
    iterationBacked true s = true →
    ∃ t, exec (.opOverrevM a) s = .next t ∧
      (∀ j, j < activeLanes s → readPixel t.mem (pixelAddr s.eng.iD j) =
        overrevPixel
          (maskc (readPixel s.mem (pixelAddr s.eng.iS j)) (readPixel s.mem (pixelAddr s.eng.iM j)) a)
          (readPixel s.mem (pixelAddr s.eng.iD j)) a) ∧
      sameOutside s.eng.iD (activeLanes s) s.mem t.mem ∧
      IterationFrame true (activeLanes s) s t

/-- Rule R129. -/
def Obligations.OutrevIteration : Prop :=
  ∀ (a : Nat) (s : State), a < 4 → s.regs.busy = true → s.eng.iN ≠ 0 → Memory.wf s.mem = true →
    iterationBacked false s = true →
    ∃ t, exec (.opOutrev a) s = .next t ∧
      (∀ j, j < activeLanes s → readPixel t.mem (pixelAddr s.eng.iD j) =
        outrevPixel (readPixel s.mem (pixelAddr s.eng.iS j)) (readPixel s.mem (pixelAddr s.eng.iD j)) a) ∧
      sameOutside s.eng.iD (activeLanes s) s.mem t.mem ∧
      IterationFrame false (activeLanes s) s t

/-- Rule R130. -/
def Obligations.OutrevMIteration : Prop :=
  ∀ (a : Nat) (s : State), a < 4 → s.regs.busy = true → s.eng.iN ≠ 0 → Memory.wf s.mem = true →
    iterationBacked true s = true →
    ∃ t, exec (.opOutrevM a) s = .next t ∧
      (∀ j, j < activeLanes s → readPixel t.mem (pixelAddr s.eng.iD j) =
        outrevPixel
          (maskc (readPixel s.mem (pixelAddr s.eng.iS j)) (readPixel s.mem (pixelAddr s.eng.iM j)) a)
          (readPixel s.mem (pixelAddr s.eng.iD j)) a) ∧
      sameOutside s.eng.iD (activeLanes s) s.mem t.mem ∧
      IterationFrame true (activeLanes s) s t

/-- Rule R131. -/
def Obligations.AddIteration : Prop :=
  ∀ (a : Nat) (s : State), a < 4 → s.regs.busy = true → s.eng.iN ≠ 0 → Memory.wf s.mem = true →
    iterationBacked false s = true →
    ∃ t, exec (.opAdd a) s = .next t ∧
      (∀ j, j < activeLanes s → readPixel t.mem (pixelAddr s.eng.iD j) =
        addPixel (readPixel s.mem (pixelAddr s.eng.iS j)) (readPixel s.mem (pixelAddr s.eng.iD j)) a) ∧
      sameOutside s.eng.iD (activeLanes s) s.mem t.mem ∧
      IterationFrame false (activeLanes s) s t

/-- Rule R132. -/
def Obligations.AddMIteration : Prop :=
  ∀ (a : Nat) (s : State), a < 4 → s.regs.busy = true → s.eng.iN ≠ 0 → Memory.wf s.mem = true →
    iterationBacked true s = true →
    ∃ t, exec (.opAddM a) s = .next t ∧
      (∀ j, j < activeLanes s → readPixel t.mem (pixelAddr s.eng.iD j) =
        addPixel
          (maskc (readPixel s.mem (pixelAddr s.eng.iS j)) (readPixel s.mem (pixelAddr s.eng.iM j)) a)
          (readPixel s.mem (pixelAddr s.eng.iD j)) a) ∧
      sameOutside s.eng.iD (activeLanes s) s.mem t.mem ∧
      IterationFrame true (activeLanes s) s t

/-- Rules R32, R34, R35, R55, R160 to R163, R172: what an iteration leaves in LM, VS, VE, VM and the flags it
tests. -/
def Obligations.IterationLoadsTheDatapath : Prop :=
  ∀ (i : Instr) (s t : State), i.wellFormed = true → s.regs.busy = true → s.eng.iN ≠ 0 →
    exec i s = .next t →
    t.dp.LM = spanMask s.lanes s.eng.iN ∧
    t.dp.VE = effectiveLanes i s ∧
    ((i.masked = true ∧ transparentSpan i s = true) ∨ t.dp.VS = loadedLanes s s.eng.iS) ∧
    (i.masked = true → t.dp.VM = loadedLanes s s.eng.iM ∧ t.dp.fT = transparentSpan i s) ∧
    (i.func = 0 ∨ i.func = 1 → t.dp.fZ = zeroSpan i s) ∧
    (i.func = 0 → t.dp.fO = opaqueSpan i s)

/-- Rules R35, R83, R166, R172: which datapath registers an engine step leaves alone. An unmasked command writes no
mask register and not fT, a flag that a command does not test keeps its value (log entry 15), a source that is
not read leaves VS, a destination that is not read leaves VD and what is computed from it, and completion writes
no datapath register. That a register the rules call unspecified keeps its value is the model's choice (log
entry 17). -/
def Obligations.DatapathRegistersLeftAlone : Prop :=
  ∀ (i : Instr) (s t : State), i.wellFormed = true → s.regs.busy = true → exec i s = .next t →
    (i.masked = false → t.dp.VM = s.dp.VM ∧ t.dp.hVM = s.dp.hVM ∧ t.dp.hVS = s.dp.hVS ∧ t.dp.fT = s.dp.fT) ∧
    (i.func ≠ 0 → t.dp.fO = s.dp.fO) ∧
    (i.func = 2 ∨ i.func = 3 → t.dp.fZ = s.dp.fZ) ∧
    (i.masked = true → transparentSpan i s = true → t.dp.VS = s.dp.VS ∧ t.dp.hVS = s.dp.hVS) ∧
    (i.func = 0 ∨ i.func = 1 → zeroSpan i s = true →
      t.dp.VD = s.dp.VD ∧ t.dp.VR = s.dp.VR ∧ t.dp.hVD = s.dp.hVD ∧ t.dp.hVR = s.dp.hVR) ∧
    (s.eng.iN = 0 → t.dp = s.dp)

/-! ### Shortcuts, traffic and ranges -/

/-- Rules R62, R164, R166: the requests of an iteration are those of the table of rule R164, in the order of
rule R62, each with the active lanes enabled (rules R38, R55, R56). -/
def Obligations.IterationTrafficFollowsTheTable : Prop :=
  ∀ (i : Instr) (s t : State), i.wellFormed = true → s.regs.busy = true → s.eng.iN ≠ 0 →
    exec i s = .next t →
    ∃ new, t.memPort = s.memPort ++ new ∧ new.map MemAccess.request = traffic i s ∧
      ∀ m ∈ new, m.laneEn = (List.range s.lanes).map fun j => decide (j < activeLanes s)

/-- Rule R165: an iteration leaves the memory that the path without any shortcut leaves, which is defined whenever
the pixels are backed. -/
def Obligations.ShortcutsLeaveTheSameMemory : Prop :=
  ∀ (i : Instr) (s t : State), i.wellFormed = true → s.regs.busy = true → s.eng.iN ≠ 0 →
    Memory.wf s.mem = true → iterationBacked i.masked s = true → exec i s = .next t →
    ∃ u, fullPath i (spanStage s) = .next u ∧ t.mem = u.mem

/-- Rule R57: a running command reads only its destination, source and (when M = 1) mask ranges, and writes only
its destination range. -/
def Obligations.AccessesStayInTheRanges : Prop :=
  ∀ s t : State, Inv s → s.regs.busy = true → (s.inputs = [] ∨ ∃ rest, s.inputs = .engine :: rest) →
    step s = .next t →
    (∀ m ∈ t.memPort, ∀ j b, m.laneEn[j]? = some true → b < 4 →
      let a := pixelAddr m.base j + BitVec.ofNat 32 b
      let n := s.regs.count.toNat
      match m.kind with
      | .write => inRange s.regs.dst n a = true
      | .read => inRange s.regs.dst n a = true ∨ inRange s.regs.src n a = true ∨
          (s.eng.cM = true ∧ inRange s.regs.msk n a = true)) ∧
    (∀ a : Addr, inRange s.regs.dst s.regs.count.toNat a = false → byteAt t.mem a = byteAt s.mem a)

/-! ### Arithmetic -/

/-- Rule R111: the laws of the primitives; the last two clauses say that mul8 rounds a·b/255 to the nearest
integer. -/
def Obligations.PrimitivesObeyTheirLaws : Prop :=
  ∀ a b x y : Byte,
    mul8 a b = mul8 b a ∧ mul8 a 255 = a ∧ mul8 a 0 = 0 ∧
    (mul8 a b).toNat ≤ min a.toNat b.toNat ∧ neg8 (neg8 a) = a ∧ sadd8 x y = sadd8 y x ∧
    510 * (mul8 a b).toNat < 2 * (a.toNat * b.toNat) + 255 ∧
    2 * (a.toNat * b.toNat) < 510 * (mul8 a b).toNat + 255

/-- Rule R103: mul16 on widened lanes is the 16-bit multiply-low and add followed by the multiply-high with
0x0101, it equals mul8, and a lane with a non-zero upper byte is refused. -/
def Obligations.WidenedMultiplyEqualsMul8 : Prop :=
  ∀ x y : WideLane,
    (x.toNat ≤ 255 → y.toNat ≤ 255 →
      mul16 x y = some (BitVec.ofNat 16 ((x.toNat * y.toNat + 128) % 2 ^ 16 * 0x0101 / 2 ^ 16)) ∧
      mul16 x y = some ((mul8 (x.setWidth 8) (y.setWidth 8)).setWidth 16)) ∧
    (255 < x.toNat ∨ 255 < y.toNat → mul16 x y = none)

/-- Rules R104, R105: negate on bytes and on widened lanes, and the alpha broadcast on pixels and on widened lanes. -/
def Obligations.NegateAndBroadcast : Prop :=
  (∀ a : Byte, (neg8 a).toNat = 255 - a.toNat ∧ neg8 a = a ^^^ 0xFF) ∧
  (∀ v : WideLane, v.toNat ≤ 255 → neg16 v = v ^^^ 0x00FF ∧ (neg16 v).toNat = 255 - v.toNat) ∧
  (∀ (p : Pixel) (a k : Nat), a < 4 → k < 4 → ch (bcastA p a) k = ch p a) ∧
  (∀ (p : Pixel) (ps : PixelVector) (a : Nat), a < 4 →
    bcastHalf a (widen p ++ widenHalf ps) = widen (bcastA p a) ++ bcastHalf a (widenHalf ps))

/-- Rules R108, R109: the saturating add, which equals adding widened lanes and narrowing, and the narrower. -/
def Obligations.SaturatingAddAndNarrower : Prop :=
  (∀ x y : Byte, (sadd8 x y).toNat = min (x.toNat + y.toNat) 255 ∧
    sadd8 x y = narrow16 (x.setWidth 16 + y.setWidth 16)) ∧
  (∀ v : WideLane, (narrow16 v).toNat = if v.toNat ≤ 255 then v.toNat else 255) ∧
  (∀ (w : Nat → WideLane) (k : Nat), k < 4 → ch (narrow (w 0) (w 1) (w 2) (w 3)) k = narrow16 (w k))

/-- Rules R33, R100, R101: the widened halves hold channel k of pixel j at lane 4j+k, pixels 0 to W/2-1 in `lo`
and the others in `hi`. -/
def Obligations.WidenedHalvesPlaceEveryChannel : Prop :=
  ∀ (V : PixelVector) (h j k : Nat), V.length = 2 * h → j < h → k < 4 →
    (widenV V).lo[4 * j + k]? = some ((ch (V.getD j 0) k).setWidth 16) ∧
    (widenV V).hi[4 * j + k]? = some ((ch (V.getD (h + j) 0) k).setWidth 16) ∧
    (widenV V).lo.length = 4 * h ∧ (widenV V).hi.length = 4 * h

/-- Rule R106: the reverse broadcast takes channel REV_CH, whose default is 0, and no command uses it: what a
command does is the same whatever REV_CH is. -/
def Obligations.ReverseBroadcastUsedByNoCommand : Prop :=
  (∀ (cfg : Params) (p : Pixel) (k : Nat), k < 4 → ch (bcastARev cfg p) k = ch p cfg.revCh.toNat) ∧
  Params.default.revCh = 0 ∧
  (∀ (i : Instr) (s : State) (c : BitVec 2),
    exec i (s.withRevCh c) = andThen (exec i s) fun t => .next (t.withRevCh c))

/-- Rules R150, R151, R152, R153: the span mask has the first min(n, W) lanes active and is entry W - k of the
table. -/
def Obligations.SpanMaskIsTheTableEntry : Prop :=
  ∀ (w : Nat) (n : Word),
    (spanMask w n).length = w ∧
    (∀ i, i < w → (spanMask w n)[i]? = some (if i < min n.toNat w then 0xFFFFFFFF else 0x00000000)) ∧
    spanMask w n = spanMaskTable w (w - activeCount w n) ∧
    activeCount w n = min n.toNat w ∧ (0 < w → n ≠ 0 → 1 ≤ activeCount w n)

/-- Rules R120 to R123: the four formulas, channel by channel, their corner cases, and their examples. -/
def Obligations.OperatorFormulasAndCornerCases : Prop :=
  (∀ (e d : Pixel) (a k : Nat), a < 4 → k < 4 →
    ch (overPixel e d a) k = sadd8 (ch e k) (mul8 (ch d k) (neg8 (ch e a))) ∧
    ch (overrevPixel e d a) k = sadd8 (ch d k) (mul8 (ch e k) (neg8 (ch d a))) ∧
    ch (outrevPixel e d a) k = mul8 (ch d k) (neg8 (ch e a)) ∧
    ch (addPixel e d a) k = sadd8 (ch e k) (ch d k) ∧
    (ch (outrevPixel e d a) k).toNat ≤ (ch d k).toNat ∧
    ((∀ c, c < 4 → (ch e c).toNat ≤ (ch e a).toNat) →
      (ch (overPixel e d a) k).toNat = (ch e k).toNat + (mul8 (ch d k) (neg8 (ch e a))).toNat)) ∧
  (∀ (e d : Pixel) (a : Nat), a < 4 →
    overPixel 0 d a = d ∧ (ch e a = 255 → overPixel e d a = e) ∧
    overrevPixel 0 d a = d ∧ (ch d a = 255 → overrevPixel e d a = d) ∧ overrevPixel e 0 a = e ∧
    (ch e a = 0 → outrevPixel e d a = d) ∧ (ch e a = 255 → outrevPixel e d a = 0) ∧
    addPixel 0 d a = d) ∧
  overPixel 0x80402010 0x40302010 3 = 0xA0583018 ∧ overrevPixel 0x80402010 0x40302010 3 = 0xA060381C ∧
  outrevPixel 0x80402010 0x40302010 3 = 0x20181008 ∧ addPixel 0xC8000000 0x64000000 3 = 0xFF000000

/-! ### Whole commands -/

/-- Rule R181: a launched command runs to completion and leaves the closed form in memory: each destination pixel
is the operator's result of the pixels at acceptance, and every other byte is unchanged. -/
def Obligations.CommandLeavesTheClosedForm : Prop :=
  ∀ (i : Instr) (s : State), Launch i s →
    let n := s.regs.count.toNat
    let d := readRegister .dst s
    ∃ t, runSteps (commandSteps s.lanes n) s = .next t ∧
      t.regs = { s.regs with cmd := encode i, err := false, busy := false } ∧
      (∀ j, j < n → readPixel t.mem (pixelAddr d j) = closedPixel i s.mem s.regs j) ∧
      (∀ a : Addr, inRange d n a = false → byteAt t.mem a = byteAt s.mem a) ∧
      t.cfg = s.cfg ∧ t.inputs = []

/-- Rules R174, R176, R154: a command of n ≥ 1 pixels does exactly ceil(n/W) iterations: after the acceptance and
m of them it is still busy with n - min(n, W·m) pixels left, the three buffers at pixel min(n, W·m), and the step
after the last one completes it. -/
def Obligations.CommandTakesCeilIterations : Prop :=
  ∀ (i : Instr) (s : State) (m : Nat), Launch i s →
    let n := s.regs.count.toNat
    let w := s.lanes
    0 < n → m ≤ (n + w - 1) / w →
    ∃ u, runSteps (1 + m) s = .next u ∧ u.regs.busy = true ∧
      u.eng.iN.toNat = n - min n (w * m) ∧
      u.eng.iD = pixelAddr (readRegister .dst s) (min n (w * m)) ∧
      u.eng.iS = pixelAddr (readRegister .src s) (min n (w * m)) ∧
      (i.masked = true → u.eng.iM = pixelAddr (readRegister .msk s) (min n (w * m))) ∧
      (m = (n + w - 1) / w → step u = .next { u.takeTurn [] with regs := { u.regs with busy := false } })

/-- Rule R180: the memory a command leaves does not depend on the lane count. -/
def Obligations.FinalMemoryDoesNotDependOnLanes : Prop :=
  ∀ (i : Instr) (s : State) (l : Lanes), Launch i s →
    let n := s.regs.count.toNat
    ∃ t u, runSteps (commandSteps s.lanes n) s = .next t ∧
      runSteps (commandSteps l.count n) (s.withLanes l) = .next u ∧ t.mem = u.mem

/-- Rule R133: a masked command whose mask has alpha 255 at every pixel leaves the memory that the unmasked command
leaves. -/
def Obligations.FullMaskEqualsNoMask : Prop :=
  ∀ (i : Instr) (s s' : State), i.masked = false → Launch i s →
    s' = { s with inputs := [.regWrite ⟨s.cfg.regBase, true, encode (maskedForm i)⟩] } →
    Launch (maskedForm i) s' →
    (∀ j, j < s.regs.count.toNat →
      ch (readPixel s.mem (pixelAddr (readRegister .msk s) j)) i.ach = 255) →
    let k := commandSteps s.lanes s.regs.count.toNat
    ∃ t u, runSteps k s = .next t ∧ runSteps k s' = .next u ∧ t.mem = u.mem

/-! ### Reset -/

/-- Rules R39, R220: the values the spec gives the registers after reset, as the host reads them (PARAM reads the
default W), and nothing launched: the block stays as it is. -/
def Obligations.ResetStateHasTheSpecsValues : Prop :=
  (∀ r, r ≠ .param → readRegister r State.reset = 0) ∧ readRegister .param State.reset = 8 ∧
  State.reset.regs.busy = false ∧ State.reset.regs.err = false ∧ State.reset.memPort = [] ∧
  step State.reset = .next State.reset

/-- Rules R205 (a), R220, R222: reset while no iteration is under way loads the registers of rule R39, presents no
command, changes no memory and no parameter, and a coincident register write has no effect. -/
def Obligations.ResetLoadsTheRegisters : Prop :=
  ∀ (s : State) (w : Option RegWrite) (rest : List HostEvent), s.inputs = .reset w :: rest →
    (s.regs.busy = false ∨ s.eng.iN = 0) →
    ∃ t, step s = .next t ∧
      t.regs = { cmd := 0, busy := false, err := false, dst := 0, src := 0, msk := 0, count := 0 } ∧
      t.mem = s.mem ∧ t.cfg = s.cfg ∧ t.memPort = [] ∧ t.inputs = rest

/-- Rule R221: reset during a command: each pixel of the interrupted iteration holds its old or its new value, as the
free value RESET_DRAW says, and every other byte is unchanged. -/
def Obligations.ResetDrawsTheInterruptedPixels : Prop :=
  ∀ (s : State) (w : Option RegWrite) (rest : List HostEvent), s.inputs = .reset w :: rest →
    s.regs.busy = true → s.eng.iN ≠ 0 → Memory.wf s.mem = true → iterationBacked s.eng.cM s = true →
    ∃ t, step s = .next t ∧
      t.regs = { cmd := 0, busy := false, err := false, dst := 0, src := 0, msk := 0, count := 0 } ∧
      (∀ j, j < activeLanes s → readPixel t.mem (pixelAddr s.eng.iD j) =
        if Config.resetDraw s.draws (pixelsDone s + j) then laneResult (running s) s j
        else readPixel s.mem (pixelAddr s.eng.iD j)) ∧
      sameOutside s.eng.iD (activeLanes s) s.mem t.mem ∧
      t.cfg = s.cfg ∧ t.memPort = [] ∧ t.inputs = rest

/-! ### Other agents -/

/-- Rules R71, R203: another agent's write into a used range of a running command is refused, and its read of the
destination range of a running command receives the free value, backed or not (log entry 8). -/
def Obligations.RacingAccesses : Prop :=
  ∀ (s : State) (a : Addr) (b : Byte) (rest : List HostEvent), s.regs.busy = true →
    let n := s.regs.count.toNat
    (s.inputs = .memWrite a b :: rest →
      (inRange (readRegister .dst s) n a = true ∨ inRange (readRegister .src s) n a = true ∨
        (s.eng.cM = true ∧ inRange (readRegister .msk s) n a = true)) →
      step s = .refused .racingWrite) ∧
    (s.inputs = .memRead a :: rest → inRange (readRegister .dst s) n a = true →
      step s = .next { s.takeTurn rest with hostByte := Config.raceByte s.draws, draws := s.draws + 1 })

/-- Rules R50, R65, R72: another agent's access to an idle block's memory: on plain memory a write stores its byte
and no other and a read receives the byte. That it is stuck where nothing is backed and refused on memory with side
effects is the model's choice (log entries 9, 11, 18). -/
def Obligations.AgentAccessesWhileIdle : Prop :=
  ∀ (s : State) (a : Addr) (b : Byte) (rest : List HostEvent), s.regs.busy = false → Memory.wf s.mem = true →
    (s.inputs = .memWrite a b :: rest →
      (kindAt s.cfg.memMap a.toNat = some .plain →
        ∃ m, step s = .next { s.takeTurn rest with mem := m } ∧ Memory.wf m = true ∧ byteAt m a = b ∧
          ∀ c, c ≠ a → byteAt m c = byteAt s.mem c) ∧
      (kindAt s.cfg.memMap a.toNat = none → step s = .fault (.unbacked a)) ∧
      (kindAt s.cfg.memMap a.toNat = some .sideEffecting → step s = .refused .sideEffectingMemory)) ∧
    (s.inputs = .memRead a :: rest →
      (kindAt s.cfg.memMap a.toNat = some .plain →
        step s = .next { s.takeTurn rest with hostByte := byteAt s.mem a }) ∧
      (kindAt s.cfg.memMap a.toNat = none → step s = .fault (.unbacked a)) ∧
      (kindAt s.cfg.memMap a.toNat = some .sideEffecting → step s = .refused .sideEffectingMemory))

/-- Rules R72, R203: on a platform without side-effecting memory, an iteration whose first read (the mask of a
masked command, the source of another) meets a byte that is not backed is stuck at such a byte. -/
def Obligations.UnbackedReadsAreStuck : Prop :=
  ∀ (i : Instr) (s : State), i.wellFormed = true → s.regs.busy = true → s.eng.iN ≠ 0 →
    (∀ r ∈ s.cfg.memMap, r.kind = .plain) →
    let base := if i.masked then s.eng.iM else s.eng.iS
    bufferBacked s.cfg base (activeLanes s) = false →
    ∃ a, exec i s = .fault (.unbacked a) ∧ bufferHolds base (activeLanes s) a = true ∧
      kindAt s.cfg.memMap a.toNat = none

/-! ### Invariants and rules of the whole machine -/

/-- The state after reset meets the invariant. -/
def Obligations.ResetMeetsTheInvariant : Prop := Inv State.reset

/-- Every step keeps the invariant (memory canonical, CMD legal, address registers aligned, vectors of W lanes, and
a running command where rules R173 to R176 put it), whichever agent moves. -/
def Obligations.EveryStepKeepsTheInvariant : Prop :=
  ∀ s t : State, Inv s → step s = .next t → Inv t

/-- Rule R23: when BUSY and ERR can change. BUSY rises only by the acceptance of a legal word with COUNT ≠ 0 and
falls only by completion or reset; ERR rises only by an illegal word written while idle and falls only by the
acceptance of a legal word or reset. -/
def Obligations.StatusBitsChangeOnlyByTheirEvents : Prop :=
  ∀ s t : State, step s = .next t →
    (s.regs.busy = false → t.regs.busy = true →
      ∃ w rest, s.inputs = .regWrite w :: rest ∧ w.size4 = true ∧ w.busAddr = s.cfg.regBase ∧
        legal w.data = true ∧ s.regs.count ≠ 0) ∧
    (s.regs.busy = true → t.regs.busy = false →
      s.eng.iN = 0 ∨ ∃ w rest, s.inputs = .reset w :: rest) ∧
    (s.regs.err = false → t.regs.err = true →
      s.regs.busy = false ∧ ∃ w rest, s.inputs = .regWrite w :: rest ∧ w.size4 = true ∧
        w.busAddr = s.cfg.regBase ∧ legal w.data = false) ∧
    (s.regs.err = true → t.regs.err = false →
      (∃ w rest, s.inputs = .reset w :: rest) ∨
      (s.regs.busy = false ∧ ∃ w rest, s.inputs = .regWrite w :: rest ∧ w.size4 = true ∧
        w.busAddr = s.cfg.regBase ∧ legal w.data = true))

/-- Rules R11, R26, R39: no step changes the parameters, so PARAM is constant. -/
def Obligations.ParametersNeverChange : Prop :=
  ∀ s t : State, step s = .next t →
    t.cfg = s.cfg ∧ readRegister .param t = readRegister .param s

/-- Rules R22, R24, R25, R29, R31: DST, SRC, MSK, COUNT and CMD change only by a register write to an idle block, or
by reset. -/
def Obligations.OperandRegistersChangeOnlyByTheHost : Prop :=
  ∀ s t : State, step s = .next t →
    (t.regs.dst ≠ s.regs.dst ∨ t.regs.src ≠ s.regs.src ∨ t.regs.msk ≠ s.regs.msk ∨
      t.regs.count ≠ s.regs.count ∨ t.regs.cmd ≠ s.regs.cmd) →
    (∃ w rest, s.inputs = .reset w :: rest) ∨
    (s.regs.busy = false ∧ ∃ w rest, s.inputs = .regWrite w :: rest ∧ w.size4 = true)

/-- Rules R170, R171, R175, R201, R209: an idle block accesses no memory, so the memory of an idle block changes only by another
agent's write, and only in the byte it writes. -/
def Obligations.IdleBlockAccessesNoMemory : Prop :=
  ∀ s t : State, Memory.wf s.mem = true → s.regs.busy = false → step s = .next t →
    t.memPort = [] ∧
    ∀ a : Addr, byteAt t.mem a ≠ byteAt s.mem a → ∃ b rest, s.inputs = .memWrite a b :: rest

/-! ### Reset of any command, and accesses that do not race -/

/-- Rules R220, R221, R222: reset ends every command, also one whose next iteration would be stuck. Each pixel of that
iteration holds its old value or the computed one, and every other byte is unchanged; nothing is drawn when no
iteration is under way or when one of its reads is not backed, since every read precedes the write (rule R62), and a
pixel that is not backed keeps its bytes (log entry 7). -/
def Obligations.ResetEndsEveryCommand : Prop :=
  ∀ (s : State) (w : Option RegWrite) (rest : List HostEvent), s.inputs = .reset w :: rest →
    Memory.wf s.mem = true →
    ∃ t, step s = .next t ∧
      t.regs = { cmd := 0, busy := false, err := false, dst := 0, src := 0, msk := 0, count := 0 } ∧
      t.cfg = s.cfg ∧ t.memPort = [] ∧ t.inputs = rest ∧ Memory.wf t.mem = true ∧
      (∀ j, j < activeLanes s →
        readPixel t.mem (pixelAddr s.eng.iD j) = readPixel s.mem (pixelAddr s.eng.iD j) ∨
        pixelBacked s.cfg (pixelAddr s.eng.iD j) = true ∧
          readPixel t.mem (pixelAddr s.eng.iD j) = laneResult (running s) s j) ∧
      sameOutside s.eng.iD (activeLanes s) s.mem t.mem ∧
      (s.regs.busy = false ∨ s.eng.iN = 0 ∨
        (∃ base, (.read, base) ∈ traffic (running s) s ∧ bufferBacked s.cfg base (activeLanes s) = false) →
        t.mem = s.mem)

/-- Rules R50, R65, R71: while a command runs, another agent's write outside the used ranges and its read outside the
destination range go as they go while the block is idle. The stops are the model's choice (log entries 9, 11, 18). -/
def Obligations.NonRacingAccessesWhileBusy : Prop :=
  ∀ (s : State) (a : Addr) (b : Byte) (rest : List HostEvent), s.regs.busy = true → Memory.wf s.mem = true →
    let n := s.regs.count.toNat
    inRange (readRegister .dst s) n a = false →
    (s.inputs = .memWrite a b :: rest → inRange (readRegister .src s) n a = false →
      (s.eng.cM = true → inRange (readRegister .msk s) n a = false) →
      (kindAt s.cfg.memMap a.toNat = some .plain →
        ∃ m, step s = .next { s.takeTurn rest with mem := m } ∧ Memory.wf m = true ∧ byteAt m a = b ∧
          ∀ c, c ≠ a → byteAt m c = byteAt s.mem c) ∧
      (kindAt s.cfg.memMap a.toNat = none → step s = .fault (.unbacked a)) ∧
      (kindAt s.cfg.memMap a.toNat = some .sideEffecting → step s = .refused .sideEffectingMemory)) ∧
    (s.inputs = .memRead a :: rest →
      (kindAt s.cfg.memMap a.toNat = some .plain →
        step s = .next { s.takeTurn rest with hostByte := byteAt s.mem a }) ∧
      (kindAt s.cfg.memMap a.toNat = none → step s = .fault (.unbacked a)) ∧
      (kindAt s.cfg.memMap a.toNat = some .sideEffecting → step s = .refused .sideEffectingMemory))
end

