-- ==== Sys2Proof/Laws/Arithmetic.lean ====
section
/-! SUPPORT. The blend primitives: channels of a pixel, the multiply, and the passage through widened
halves. -/

namespace Sys2Proof.Machine

/-! ### Channels -/

theorem pixelOf_toNat (c0 c1 c2 c3 : Byte) :
    (pixelOf c0 c1 c2 c3).toNat =
      c0.toNat + 2 ^ 8 * c1.toNat + 2 ^ 16 * c2.toNat + 2 ^ 24 * c3.toNat := by
  have h0 := c0.isLt; have h1 := c1.isLt; have h2 := c2.isLt; have h3 := c3.isLt
  show (((c3 ++ c2 : BitVec 16) ++ c1 : BitVec 24) ++ c0 : BitVec 32).toNat = _
  rw [BitVec.toNat_append, BitVec.toNat_append, BitVec.toNat_append, ← Nat.shiftLeft_add_eq_or_of_lt h0,
    ← Nat.shiftLeft_add_eq_or_of_lt h1, ← Nat.shiftLeft_add_eq_or_of_lt h2]
  simp only [Nat.shiftLeft_eq]
  omega

theorem ch_toNat (p : Pixel) (k : Nat) : (ch p k).toNat = p.toNat / 2 ^ (8 * k) % 2 ^ 8 := by
  simp [ch, BitVec.extractLsb'_toNat, Nat.shiftRight_eq_div_pow]

@[simp] theorem ch_pixelOf_zero (c0 c1 c2 c3 : Byte) : ch (pixelOf c0 c1 c2 c3) 0 = c0 := by
  apply BitVec.eq_of_toNat_eq
  have h0 := c0.isLt; have h1 := c1.isLt; have h2 := c2.isLt; have h3 := c3.isLt
  rw [ch_toNat, pixelOf_toNat]; omega

@[simp] theorem ch_pixelOf_one (c0 c1 c2 c3 : Byte) : ch (pixelOf c0 c1 c2 c3) 1 = c1 := by
  apply BitVec.eq_of_toNat_eq
  have h0 := c0.isLt; have h1 := c1.isLt; have h2 := c2.isLt; have h3 := c3.isLt
  rw [ch_toNat, pixelOf_toNat]; omega

@[simp] theorem ch_pixelOf_two (c0 c1 c2 c3 : Byte) : ch (pixelOf c0 c1 c2 c3) 2 = c2 := by
  apply BitVec.eq_of_toNat_eq
  have h0 := c0.isLt; have h1 := c1.isLt; have h2 := c2.isLt; have h3 := c3.isLt
  rw [ch_toNat, pixelOf_toNat]; omega

@[simp] theorem ch_pixelOf_three (c0 c1 c2 c3 : Byte) : ch (pixelOf c0 c1 c2 c3) 3 = c3 := by
  apply BitVec.eq_of_toNat_eq
  have h0 := c0.isLt; have h1 := c1.isLt; have h2 := c2.isLt; have h3 := c3.isLt
  rw [ch_toNat, pixelOf_toNat]; omega

theorem pixelOf_ch (p : Pixel) : pixelOf (ch p 0) (ch p 1) (ch p 2) (ch p 3) = p := by
  apply BitVec.eq_of_toNat_eq
  have := p.isLt
  rw [pixelOf_toNat, ch_toNat, ch_toNat, ch_toNat, ch_toNat]
  omega

theorem pixelOf_inj {a b c d a' b' c' d' : Byte} :
    pixelOf a b c d = pixelOf a' b' c' d' ↔ a = a' ∧ b = b' ∧ c = c' ∧ d = d' := by
  constructor
  · intro h
    have h0 := congrArg (ch · 0) h
    have h1 := congrArg (ch · 1) h
    have h2 := congrArg (ch · 2) h
    have h3 := congrArg (ch · 3) h
    simp only [ch_pixelOf_zero, ch_pixelOf_one, ch_pixelOf_two, ch_pixelOf_three] at h0 h1 h2 h3
    exact ⟨h0, h1, h2, h3⟩
  · rintro ⟨rfl, rfl, rfl, rfl⟩; rfl

/-- Two pixels with the same four channels are equal. -/
theorem pixel_ext {p q : Pixel} (h : ∀ k, k < 4 → ch p k = ch q k) : p = q := by
  rw [← pixelOf_ch p, ← pixelOf_ch q, h 0 (by omega), h 1 (by omega), h 2 (by omega), h 3 (by omega)]

theorem ch_perChannel (f : Nat → Byte) {k : Nat} (hk : k < 4) : ch (perChannel f) k = f k := by
  unfold perChannel
  obtain rfl | rfl | rfl | rfl : k = 0 ∨ k = 1 ∨ k = 2 ∨ k = 3 := by omega
  all_goals simp

theorem perChannel_congr {f g : Nat → Byte} (h : ∀ k, k < 4 → f k = g k) : perChannel f = perChannel g :=
  pixel_ext fun k hk => by rw [ch_perChannel f hk, ch_perChannel g hk, h k hk]

theorem perChannel_ch (p : Pixel) : perChannel (ch p) = p := pixelOf_ch p

@[simp] theorem ch_zero (k : Nat) : ch 0 k = 0 := by simp [ch]

/-! ### The multiply -/

theorem byte_mul_le (a b : Byte) : a.toNat * b.toNat ≤ 65025 := by
  have ha := a.isLt; have hb := b.isLt
  calc a.toNat * b.toNat ≤ 255 * 255 := Nat.mul_le_mul (by omega) (by omega)
    _ = 65025 := rfl

theorem mul8_toNat (a b : Byte) :
    (mul8 a b).toNat = (a.toNat * b.toNat + 128) * 257 / 65536 := by
  have := byte_mul_le a b
  simp only [mul8, BitVec.toNat_ofNat, Nat.shiftRight_eq_div_pow]
  omega

theorem mul8_zero (a : Byte) : mul8 a 0 = 0 := by
  apply BitVec.eq_of_toNat_eq
  rw [mul8_toNat]; simp

theorem zero_mul8 (a : Byte) : mul8 0 a = 0 := by
  apply BitVec.eq_of_toNat_eq
  rw [mul8_toNat]; simp

theorem mul8_max (a : Byte) : mul8 a 255 = a := by
  apply BitVec.eq_of_toNat_eq
  have := a.isLt
  have e : (255 : Byte).toNat = 255 := rfl
  rw [mul8_toNat, e]; omega

theorem sadd8_toNat (x y : Byte) : (sadd8 x y).toNat = min (x.toNat + y.toNat) 255 := by
  simp only [sadd8, BitVec.toNat_ofNat]; omega

theorem sadd8_zero (x : Byte) : sadd8 x 0 = x := by
  apply BitVec.eq_of_toNat_eq
  have := x.isLt
  rw [sadd8_toNat]; simp; omega

theorem zero_sadd8 (x : Byte) : sadd8 0 x = x := by
  apply BitVec.eq_of_toNat_eq
  have := x.isLt
  rw [sadd8_toNat]; simp; omega

theorem neg8_zero : neg8 0 = 255 := rfl
theorem neg8_max : neg8 255 = 0 := rfl

/-! ### Widened lanes -/

theorem toNat_widened (a : Byte) : (a.setWidth 16).toNat = a.toNat := by
  have := a.isLt
  simp only [BitVec.toNat_setWidth]; omega

theorem mul16_widened (a b : Byte) :
    mul16 (a.setWidth 16) (b.setWidth 16) = some ((mul8 a b).setWidth 16) := by
  have ha := a.isLt; have hb := b.isLt
  have hab := byte_mul_le a b
  unfold mul16
  rw [toNat_widened, toNat_widened, if_pos ⟨by omega, by omega⟩]
  refine congrArg some (BitVec.eq_of_toNat_eq ?_)
  have e : (0x0080 : WideLane).toNat = 128 := rfl
  simp only [BitVec.toNat_ofNat, BitVec.toNat_add, BitVec.toNat_mul, toNat_widened, mul8_toNat,
    Nat.shiftRight_eq_div_pow, e]
  generalize a.toNat * b.toNat = x at hab ⊢
  rw [Nat.mod_eq_of_lt (by omega : x < 2 ^ 16), Nat.mod_eq_of_lt (by omega : x + 128 < 2 ^ 16),
    Nat.mod_eq_of_lt (by omega)]

theorem neg16_widened (a : Byte) : neg16 (a.setWidth 16) = (neg8 a).setWidth 16 := by
  have h : ∀ a : Byte, (a.setWidth 16) ^^^ 0x00FF = ((255 - a : Byte)).setWidth 16 := by decide
  exact h a

theorem narrow16_widened (a : Byte) : narrow16 (a.setWidth 16) = a := by
  have ha := a.isLt
  unfold narrow16
  rw [toNat_widened, if_pos (by omega)]
  apply BitVec.eq_of_toNat_eq
  rw [BitVec.toNat_setWidth, toNat_widened]; omega

/-! ### Halves -/

theorem narrowHalf_widenHalf : ∀ V : PixelVector, narrowHalf (widenHalf V) = V
  | [] => rfl
  | p :: ps => by
    simp only [widenHalf, widen, List.cons_append, List.nil_append, narrowHalf, narrow,
      narrow16_widened, pixelOf_ch, narrowHalf_widenHalf ps]

theorem length_widenHalf : ∀ V : PixelVector, (widenHalf V).length = 4 * V.length
  | [] => rfl
  | p :: ps => by
    simp only [widenHalf, widen, List.length_append, List.length_cons, List.length_nil,
      length_widenHalf ps]
    omega

theorem narrowV_widenHalves (V U : PixelVector) : narrowV ⟨widenHalf V, widenHalf U⟩ = V ++ U := by
  simp [narrowV, narrowHalf_widenHalf]

theorem widenHalf_cons (p : Pixel) (ps : PixelVector) :
    widenHalf (p :: ps) = (ch p 0).setWidth 16 :: (ch p 1).setWidth 16 :: (ch p 2).setWidth 16 ::
      (ch p 3).setWidth 16 :: widenHalf ps := rfl

/-- `mul8` channel by channel on two pixels. -/
def mulPixel (p q : Pixel) : Pixel := perChannel fun k => mul8 (ch p k) (ch q k)

/-- `neg8` channel by channel on a pixel. -/
def negPixel (p : Pixel) : Pixel := perChannel fun k => neg8 (ch p k)

theorem bcastHalf_widenHalf {a : Nat} (ha : a < 4) :
    ∀ V : PixelVector, bcastHalf a (widenHalf V) = widenHalf (V.map fun p => bcastA p a)
  | [] => rfl
  | p :: ps => by
    have e : [(ch p 0).setWidth 16, (ch p 1).setWidth 16, (ch p 2).setWidth 16,
        (ch p 3).setWidth 16].getD a (0 : WideLane) = (ch p a).setWidth 16 := by
      obtain rfl | rfl | rfl | rfl : a = 0 ∨ a = 1 ∨ a = 2 ∨ a = 3 := by omega
      all_goals rfl
    rw [List.map_cons, widenHalf_cons, widenHalf_cons, bcastHalf, e, bcastHalf_widenHalf ha ps]
    simp only [bcastA]
    rw [ch_perChannel _ (by omega), ch_perChannel _ (by omega), ch_perChannel _ (by omega),
      ch_perChannel _ (by omega)]
    rfl

theorem map_neg16_widenHalf :
    ∀ V : PixelVector, (widenHalf V).map neg16 = widenHalf (V.map negPixel)
  | [] => rfl
  | p :: ps => by
    rw [List.map_cons, widenHalf_cons, widenHalf_cons]
    simp only [List.map_cons, map_neg16_widenHalf ps, neg16_widened, negPixel]
    rw [ch_perChannel _ (by omega), ch_perChannel _ (by omega), ch_perChannel _ (by omega),
      ch_perChannel _ (by omega)]

/-- The lane-wise multiply of two widened runs of pixels is the widened channel-wise multiply. -/
theorem mulHalf_widenHalf :
    ∀ V U : PixelVector, V.length = U.length →
      mulHalf (widenHalf V) (widenHalf U) = some (widenHalf (List.zipWith mulPixel V U))
  | [], [], _ => rfl
  | [], _ :: _, h => by simp at h
  | _ :: _, [], h => by simp at h
  | p :: ps, q :: qs, h => by
    have ih := mulHalf_widenHalf ps qs (by simpa using h)
    rw [List.zipWith_cons_cons, widenHalf_cons, widenHalf_cons, widenHalf_cons]
    simp only [mulHalf, mul16_widened, ih, mulPixel]
    rw [ch_perChannel _ (by omega), ch_perChannel _ (by omega), ch_perChannel _ (by omega),
      ch_perChannel _ (by omega)]

/-- The same on both halves. -/
theorem mul_widenV {V U : PixelVector} (h : V.length = U.length) :
    Halves.mul (widenV V) (widenV U) = some (widenV (List.zipWith mulPixel V U)) := by
  have hl : (List.zipWith mulPixel V U).length = V.length := by simp [h]
  unfold Halves.mul widenV
  rw [mulHalf_widenHalf _ _ (by simp [h]), mulHalf_widenHalf _ _ (by simp [h])]
  simp only [hl, List.take_zipWith, List.drop_zipWith, h]

theorem bcast_widenV {a : Nat} (ha : a < 4) (V : PixelVector) :
    (widenV V).bcast a = widenV (V.map fun p => bcastA p a) := by
  simp [Halves.bcast, widenV, bcastHalf_widenHalf ha, List.map_take, List.map_drop]

theorem neg_widenV (V : PixelVector) : (widenV V).neg = widenV (V.map negPixel) := by
  simp [Halves.neg, widenV, map_neg16_widenHalf, List.map_take, List.map_drop]

theorem mulPixel_bcastA (s m : Pixel) (a : Nat) : mulPixel s (bcastA m a) = maskc s m a :=
  perChannel_congr fun k hk => by rw [bcastA, ch_perChannel _ hk]

theorem mulPixel_negPixel_bcastA (d e : Pixel) (a : Nat) :
    mulPixel d (negPixel (bcastA e a)) = outrevPixel e d a :=
  perChannel_congr fun k hk => by rw [negPixel, ch_perChannel _ hk, bcastA, ch_perChannel _ hk]

/-- The masked combine on halves is maskc on every lane. -/
theorem combine_widenV {a : Nat} (ha : a < 4) {V M : PixelVector} (h : V.length = M.length) :
    Halves.mul (widenV V) ((widenV M).bcast a) = some (widenV (List.zipWith (fun s m => maskc s m a) V M)) := by
  rw [bcast_widenV ha, mul_widenV (by simpa using h), List.zipWith_map_right]
  simp only [mulPixel_bcastA]

/-- The kernel of Over and OutReverse is outrev on every lane. -/
theorem kernelDst_widenV {a : Nat} (ha : a < 4) {E D : PixelVector} (h : E.length = D.length) :
    kernelDst a (widenV E) (widenV D) =
      some (widenV (List.zipWith (fun e d => outrevPixel e d a) E D)) := by
  unfold kernelDst
  rw [bcast_widenV ha, neg_widenV, mul_widenV (by simpa using h.symm), List.map_map,
    List.zipWith_map_right, List.zipWith_comm]
  simp only [Function.comp, mulPixel_negPixel_bcastA]

/-- The kernel of OverReverse multiplies e by the negated alpha of d on every lane. -/
theorem kernelSrc_widenV {a : Nat} (ha : a < 4) {E D : PixelVector} (h : E.length = D.length) :
    kernelSrc a (widenV E) (widenV D) =
      some (widenV (List.zipWith (fun e d => outrevPixel d e a) E D)) := by
  unfold kernelSrc
  rw [bcast_widenV ha, neg_widenV, mul_widenV (by simpa using h), List.map_map,
    List.zipWith_map_right]
  simp only [Function.comp, mulPixel_negPixel_bcastA]

theorem length_narrowV_widenV (V : PixelVector) : (narrowV (widenV V)).length = V.length := by
  simp [widenV, narrowV_widenHalves]

/-! ### Identities of the operators (the corner cases of rules R120 to R123) -/

theorem maskc_transparent {s m : Pixel} {a : Nat} (h : ch m a = 0) : maskc s m a = 0 := by
  refine pixel_ext fun k hk => ?_
  rw [maskc, ch_perChannel _ hk, h, mul8_zero, ch_zero]

theorem zero_maskc (m : Pixel) (a : Nat) : maskc 0 m a = 0 := by
  refine pixel_ext fun k hk => ?_
  rw [maskc, ch_perChannel _ hk, ch_zero, zero_mul8]

theorem overPixel_zero (d : Pixel) (a : Nat) : overPixel 0 d a = d := by
  refine pixel_ext fun k hk => ?_
  rw [overPixel, ch_perChannel _ hk, ch_zero, ch_zero, neg8_zero, mul8_max, zero_sadd8]

theorem overPixel_opaque {e : Pixel} (d : Pixel) {a : Nat} (h : ch e a = 255) : overPixel e d a = e := by
  refine pixel_ext fun k hk => ?_
  rw [overPixel, ch_perChannel _ hk, h, neg8_max, mul8_zero, sadd8_zero]

theorem overrevPixel_zero (d : Pixel) (a : Nat) : overrevPixel 0 d a = d := by
  refine pixel_ext fun k hk => ?_
  rw [overrevPixel, ch_perChannel _ hk, ch_zero, zero_mul8, sadd8_zero]

end Sys2Proof.Machine
end

