-- ==== Sys2Proof/Laws/State.lean ====
section
/-! SUPPORT. One lemma per field per update of State, each true by unfolding the update. -/

namespace Sys2Proof.Machine.State

variable (s : State)

@[simp] theorem setRegs_cfg (r : HostRegs) : (s.setRegs r).cfg = s.cfg := rfl
@[simp] theorem setRegs_regs (r : HostRegs) : (s.setRegs r).regs = r := rfl
@[simp] theorem setRegs_eng (r : HostRegs) : (s.setRegs r).eng = s.eng := rfl
@[simp] theorem setRegs_dp (r : HostRegs) : (s.setRegs r).dp = s.dp := rfl
@[simp] theorem setRegs_mem (r : HostRegs) : (s.setRegs r).mem = s.mem := rfl
@[simp] theorem setRegs_memPort (r : HostRegs) : (s.setRegs r).memPort = s.memPort := rfl
@[simp] theorem setRegs_hostRdata (r : HostRegs) : (s.setRegs r).hostRdata = s.hostRdata := rfl
@[simp] theorem setRegs_hostByte (r : HostRegs) : (s.setRegs r).hostByte = s.hostByte := rfl
@[simp] theorem setRegs_draws (r : HostRegs) : (s.setRegs r).draws = s.draws := rfl
@[simp] theorem setRegs_inputs (r : HostRegs) : (s.setRegs r).inputs = s.inputs := rfl

@[simp] theorem setEng_cfg (e : Engine) : (s.setEng e).cfg = s.cfg := rfl
@[simp] theorem setEng_regs (e : Engine) : (s.setEng e).regs = s.regs := rfl
@[simp] theorem setEng_eng (e : Engine) : (s.setEng e).eng = e := rfl
@[simp] theorem setEng_dp (e : Engine) : (s.setEng e).dp = s.dp := rfl
@[simp] theorem setEng_mem (e : Engine) : (s.setEng e).mem = s.mem := rfl
@[simp] theorem setEng_memPort (e : Engine) : (s.setEng e).memPort = s.memPort := rfl
@[simp] theorem setEng_hostRdata (e : Engine) : (s.setEng e).hostRdata = s.hostRdata := rfl
@[simp] theorem setEng_hostByte (e : Engine) : (s.setEng e).hostByte = s.hostByte := rfl
@[simp] theorem setEng_draws (e : Engine) : (s.setEng e).draws = s.draws := rfl
@[simp] theorem setEng_inputs (e : Engine) : (s.setEng e).inputs = s.inputs := rfl

@[simp] theorem setDp_cfg (d : Datapath) : (s.setDp d).cfg = s.cfg := rfl
@[simp] theorem setDp_regs (d : Datapath) : (s.setDp d).regs = s.regs := rfl
@[simp] theorem setDp_eng (d : Datapath) : (s.setDp d).eng = s.eng := rfl
@[simp] theorem setDp_dp (d : Datapath) : (s.setDp d).dp = d := rfl
@[simp] theorem setDp_mem (d : Datapath) : (s.setDp d).mem = s.mem := rfl
@[simp] theorem setDp_memPort (d : Datapath) : (s.setDp d).memPort = s.memPort := rfl
@[simp] theorem setDp_hostRdata (d : Datapath) : (s.setDp d).hostRdata = s.hostRdata := rfl
@[simp] theorem setDp_hostByte (d : Datapath) : (s.setDp d).hostByte = s.hostByte := rfl
@[simp] theorem setDp_draws (d : Datapath) : (s.setDp d).draws = s.draws := rfl
@[simp] theorem setDp_inputs (d : Datapath) : (s.setDp d).inputs = s.inputs := rfl

@[simp] theorem setMem_cfg (m : Memory) : (s.setMem m).cfg = s.cfg := rfl
@[simp] theorem setMem_regs (m : Memory) : (s.setMem m).regs = s.regs := rfl
@[simp] theorem setMem_eng (m : Memory) : (s.setMem m).eng = s.eng := rfl
@[simp] theorem setMem_dp (m : Memory) : (s.setMem m).dp = s.dp := rfl
@[simp] theorem setMem_mem (m : Memory) : (s.setMem m).mem = m := rfl
@[simp] theorem setMem_memPort (m : Memory) : (s.setMem m).memPort = s.memPort := rfl
@[simp] theorem setMem_hostRdata (m : Memory) : (s.setMem m).hostRdata = s.hostRdata := rfl
@[simp] theorem setMem_hostByte (m : Memory) : (s.setMem m).hostByte = s.hostByte := rfl
@[simp] theorem setMem_draws (m : Memory) : (s.setMem m).draws = s.draws := rfl
@[simp] theorem setMem_inputs (m : Memory) : (s.setMem m).inputs = s.inputs := rfl

@[simp] theorem addAccess_cfg (a : MemAccess) : (s.addAccess a).cfg = s.cfg := rfl
@[simp] theorem addAccess_regs (a : MemAccess) : (s.addAccess a).regs = s.regs := rfl
@[simp] theorem addAccess_eng (a : MemAccess) : (s.addAccess a).eng = s.eng := rfl
@[simp] theorem addAccess_dp (a : MemAccess) : (s.addAccess a).dp = s.dp := rfl
@[simp] theorem addAccess_mem (a : MemAccess) : (s.addAccess a).mem = s.mem := rfl
@[simp] theorem addAccess_memPort (a : MemAccess) : (s.addAccess a).memPort = s.memPort ++ [a] := rfl
@[simp] theorem addAccess_hostRdata (a : MemAccess) : (s.addAccess a).hostRdata = s.hostRdata := rfl
@[simp] theorem addAccess_hostByte (a : MemAccess) : (s.addAccess a).hostByte = s.hostByte := rfl
@[simp] theorem addAccess_draws (a : MemAccess) : (s.addAccess a).draws = s.draws := rfl
@[simp] theorem addAccess_inputs (a : MemAccess) : (s.addAccess a).inputs = s.inputs := rfl

@[simp] theorem takeTurn_cfg (es : List HostEvent) : (s.takeTurn es).cfg = s.cfg := rfl
@[simp] theorem takeTurn_regs (es : List HostEvent) : (s.takeTurn es).regs = s.regs := rfl
@[simp] theorem takeTurn_eng (es : List HostEvent) : (s.takeTurn es).eng = s.eng := rfl
@[simp] theorem takeTurn_dp (es : List HostEvent) : (s.takeTurn es).dp = s.dp := rfl
@[simp] theorem takeTurn_mem (es : List HostEvent) : (s.takeTurn es).mem = s.mem := rfl
@[simp] theorem takeTurn_memPort (es : List HostEvent) : (s.takeTurn es).memPort = [] := rfl
@[simp] theorem takeTurn_hostRdata (es : List HostEvent) : (s.takeTurn es).hostRdata = s.hostRdata := rfl
@[simp] theorem takeTurn_hostByte (es : List HostEvent) : (s.takeTurn es).hostByte = s.hostByte := rfl
@[simp] theorem takeTurn_draws (es : List HostEvent) : (s.takeTurn es).draws = s.draws := rfl
@[simp] theorem takeTurn_inputs (es : List HostEvent) : (s.takeTurn es).inputs = es := rfl

@[simp] theorem setRdata_cfg (w : Word) : (s.setRdata w).cfg = s.cfg := rfl
@[simp] theorem setRdata_regs (w : Word) : (s.setRdata w).regs = s.regs := rfl
@[simp] theorem setRdata_eng (w : Word) : (s.setRdata w).eng = s.eng := rfl
@[simp] theorem setRdata_dp (w : Word) : (s.setRdata w).dp = s.dp := rfl
@[simp] theorem setRdata_mem (w : Word) : (s.setRdata w).mem = s.mem := rfl
@[simp] theorem setRdata_memPort (w : Word) : (s.setRdata w).memPort = s.memPort := rfl
@[simp] theorem setRdata_hostRdata (w : Word) : (s.setRdata w).hostRdata = w := rfl
@[simp] theorem setRdata_hostByte (w : Word) : (s.setRdata w).hostByte = s.hostByte := rfl
@[simp] theorem setRdata_draws (w : Word) : (s.setRdata w).draws = s.draws := rfl
@[simp] theorem setRdata_inputs (w : Word) : (s.setRdata w).inputs = s.inputs := rfl

@[simp] theorem setHostByte_cfg (b : Byte) : (s.setHostByte b).cfg = s.cfg := rfl
@[simp] theorem setHostByte_regs (b : Byte) : (s.setHostByte b).regs = s.regs := rfl
@[simp] theorem setHostByte_eng (b : Byte) : (s.setHostByte b).eng = s.eng := rfl
@[simp] theorem setHostByte_dp (b : Byte) : (s.setHostByte b).dp = s.dp := rfl
@[simp] theorem setHostByte_mem (b : Byte) : (s.setHostByte b).mem = s.mem := rfl
@[simp] theorem setHostByte_memPort (b : Byte) : (s.setHostByte b).memPort = s.memPort := rfl
@[simp] theorem setHostByte_hostRdata (b : Byte) : (s.setHostByte b).hostRdata = s.hostRdata := rfl
@[simp] theorem setHostByte_hostByte (b : Byte) : (s.setHostByte b).hostByte = b := rfl
@[simp] theorem setHostByte_draws (b : Byte) : (s.setHostByte b).draws = s.draws := rfl
@[simp] theorem setHostByte_inputs (b : Byte) : (s.setHostByte b).inputs = s.inputs := rfl

@[simp] theorem countDraw_cfg : (s.countDraw).cfg = s.cfg := rfl
@[simp] theorem countDraw_regs : (s.countDraw).regs = s.regs := rfl
@[simp] theorem countDraw_eng : (s.countDraw).eng = s.eng := rfl
@[simp] theorem countDraw_dp : (s.countDraw).dp = s.dp := rfl
@[simp] theorem countDraw_mem : (s.countDraw).mem = s.mem := rfl
@[simp] theorem countDraw_memPort : (s.countDraw).memPort = s.memPort := rfl
@[simp] theorem countDraw_hostRdata : (s.countDraw).hostRdata = s.hostRdata := rfl
@[simp] theorem countDraw_hostByte : (s.countDraw).hostByte = s.hostByte := rfl
@[simp] theorem countDraw_draws : (s.countDraw).draws = s.draws + 1 := rfl
@[simp] theorem countDraw_inputs : (s.countDraw).inputs = s.inputs := rfl

@[simp] theorem pushTurns_cfg (es : List HostEvent) : (s.pushTurns es).cfg = s.cfg := rfl
@[simp] theorem pushTurns_regs (es : List HostEvent) : (s.pushTurns es).regs = s.regs := rfl
@[simp] theorem pushTurns_eng (es : List HostEvent) : (s.pushTurns es).eng = s.eng := rfl
@[simp] theorem pushTurns_dp (es : List HostEvent) : (s.pushTurns es).dp = s.dp := rfl
@[simp] theorem pushTurns_mem (es : List HostEvent) : (s.pushTurns es).mem = s.mem := rfl
@[simp] theorem pushTurns_memPort (es : List HostEvent) : (s.pushTurns es).memPort = s.memPort := rfl
@[simp] theorem pushTurns_hostRdata (es : List HostEvent) : (s.pushTurns es).hostRdata = s.hostRdata := rfl
@[simp] theorem pushTurns_hostByte (es : List HostEvent) : (s.pushTurns es).hostByte = s.hostByte := rfl
@[simp] theorem pushTurns_draws (es : List HostEvent) : (s.pushTurns es).draws = s.draws := rfl
@[simp] theorem pushTurns_inputs (es : List HostEvent) : (s.pushTurns es).inputs = es ++ s.inputs := rfl

@[simp] theorem setRegs_lanes (r : HostRegs) : (s.setRegs r).lanes = s.lanes := rfl
@[simp] theorem setEng_lanes (e : Engine) : (s.setEng e).lanes = s.lanes := rfl
@[simp] theorem setDp_lanes (d : Datapath) : (s.setDp d).lanes = s.lanes := rfl
@[simp] theorem setMem_lanes (m : Memory) : (s.setMem m).lanes = s.lanes := rfl
@[simp] theorem addAccess_lanes (a : MemAccess) : (s.addAccess a).lanes = s.lanes := rfl
@[simp] theorem takeTurn_lanes (es : List HostEvent) : (s.takeTurn es).lanes = s.lanes := rfl
@[simp] theorem setRdata_lanes (w : Word) : (s.setRdata w).lanes = s.lanes := rfl
@[simp] theorem setHostByte_lanes (b : Byte) : (s.setHostByte b).lanes = s.lanes := rfl
@[simp] theorem countDraw_lanes : (s.countDraw).lanes = s.lanes := rfl
@[simp] theorem pushTurns_lanes (es : List HostEvent) : (s.pushTurns es).lanes = s.lanes := rfl

end Sys2Proof.Machine.State
end

