-- ==== Sys2Proof/Laws/Memory.lean ====
section
/-! SUPPORT. Memory: the canonical form is kept, a read after a write gives the value written at that
address and the old value elsewhere, and equal bytes are equal memories. -/

namespace Sys2Proof.Machine

/-! ### Bytes -/

section Cells

variable {un : Nat → Byte}

theorem canonicalFrom_cons {lo k : Nat} {v : Byte} {rest : List Host.Cell} :
    canonicalFrom un lo ((k, v) :: rest) = true ↔
      lo ≤ k ∧ k < 2 ^ 32 ∧ v ≠ un k ∧ canonicalFrom un (k + 1) rest = true := by
  simp only [canonicalFrom, Bool.and_eq_true, decide_eq_true_eq, bne_iff_ne, and_assoc]

theorem canonicalFrom_mono {lo lo' : Nat} (h : lo' ≤ lo) :
    ∀ {c : List Host.Cell}, canonicalFrom un lo c = true → canonicalFrom un lo' c = true
  | [], _ => rfl
  | (_, _) :: _, hc => by
    obtain ⟨h1, h2⟩ := canonicalFrom_cons.mp hc
    exact canonicalFrom_cons.mpr ⟨by omega, h2⟩

/-- Canonical entries list no address below their bound. -/
theorem lookup_below {a : Nat} :
    ∀ {lo : Nat} {c : List Host.Cell}, canonicalFrom un lo c = true → a < lo → lookup (un a) c a = un a
  | _, [], _, _ => rfl
  | _, (k, v) :: rest, hc, ha => by
    obtain ⟨h1, -, -, h4⟩ := canonicalFrom_cons.mp hc
    rw [lookup, if_neg (by omega)]
    exact lookup_below h4 (by omega)

/-- Canonical entries list no address above the space. -/
theorem lookup_above {a : Nat} (ha : ¬ a < 2 ^ 32) :
    ∀ {lo : Nat} {c : List Host.Cell}, canonicalFrom un lo c = true → lookup (un a) c a = un a
  | _, [], _ => rfl
  | _, (k, v) :: rest, hc => by
    obtain ⟨-, h2, -, h4⟩ := canonicalFrom_cons.mp hc
    rw [lookup, if_neg (by omega)]
    exact lookup_above ha h4

theorem canonicalFrom_consCell {lo a : Nat} {b : Byte} {c : List Host.Cell} (hlo : lo ≤ a) (ha : a < 2 ^ 32)
    (hc : canonicalFrom un (a + 1) c = true) : canonicalFrom un lo (consCell (un a) a b c) = true := by
  unfold consCell
  split
  · exact canonicalFrom_mono (by omega) hc
  · exact canonicalFrom_cons.mpr ⟨hlo, ha, ‹_›, hc⟩

theorem canonicalFrom_writeCell {a : Nat} {b : Byte} (ha : a < 2 ^ 32) :
    ∀ {lo : Nat} {c : List Host.Cell}, lo ≤ a → canonicalFrom un lo c = true →
      canonicalFrom un lo (writeCell (un a) c a b) = true
  | _, [], hlo, _ => canonicalFrom_consCell hlo ha rfl
  | lo, (k, v) :: rest, hlo, hc => by
    obtain ⟨h1, h2, h3, h4⟩ := canonicalFrom_cons.mp hc
    rw [writeCell]
    split
    · exact canonicalFrom_consCell hlo ha (canonicalFrom_cons.mpr ⟨by omega, h2, h3, h4⟩)
    · split
      · rename_i hk
        subst hk
        exact canonicalFrom_consCell hlo ha h4
      · exact canonicalFrom_cons.mpr ⟨h1, h2, h3, canonicalFrom_writeCell ha (by omega) h4⟩

theorem lookup_consCell {a : Nat} {b : Byte} {c : List Host.Cell} (hc : canonicalFrom un (a + 1) c = true)
    (x : Nat) : lookup (un x) (consCell (un a) a b c) x = if x = a then b else lookup (un x) c x := by
  unfold consCell
  split
  · rename_i hb
    split
    · rename_i hx
      subst hx
      rw [lookup_below hc (by omega), hb]
    · rfl
  · simp only [lookup, eq_comm]

theorem lookup_writeCell {a : Nat} {b : Byte} (x : Nat) :
    ∀ {lo : Nat} {c : List Host.Cell}, canonicalFrom un lo c = true →
      lookup (un x) (writeCell (un a) c a b) x = if x = a then b else lookup (un x) c x
  | _, [], _ => lookup_consCell rfl x
  | _, (k, v) :: rest, hc => by
    obtain ⟨h1, h2, h3, h4⟩ := canonicalFrom_cons.mp hc
    rw [writeCell]
    split
    · exact lookup_consCell (canonicalFrom_cons.mpr ⟨by omega, h2, h3, h4⟩) x
    · split
      · rename_i hk
        subst hk
        rw [lookup_consCell h4 x]
        split
        · rfl
        · rename_i hx
          rw [lookup, if_neg (Ne.symm hx)]
      · simp only [lookup, lookup_writeCell x h4]
        split
        · rw [if_neg (by omega)]
        · rfl

/-- Canonical entries that give the same bytes are the same. -/
theorem cells_ext :
    ∀ {lo lo' : Nat} {c c' : List Host.Cell}, canonicalFrom un lo c = true → canonicalFrom un lo' c' = true →
      (∀ a, lookup (un a) c a = lookup (un a) c' a) → c = c'
  | _, _, [], [], _, _, _ => rfl
  | _, _, [], (k, v) :: rest, _, h', he => by
    have e := he k
    rw [lookup, lookup, if_pos rfl] at e
    exact absurd e.symm (canonicalFrom_cons.mp h').2.2.1
  | _, _, (k, v) :: rest, [], h, _, he => by
    have e := he k
    rw [lookup, lookup, if_pos rfl] at e
    exact absurd e (canonicalFrom_cons.mp h).2.2.1
  | _, _, (k, v) :: rest, (k', v') :: rest', h, h', he => by
    obtain ⟨-, -, hv, hr⟩ := canonicalFrom_cons.mp h
    obtain ⟨-, -, hv', hr'⟩ := canonicalFrom_cons.mp h'
    have hk : k = k' := by
      rcases Nat.lt_trichotomy k k' with hlt | heq | hgt
      · have e := he k
        rw [lookup, lookup, if_pos rfl, if_neg (by omega), lookup_below hr' (by omega)] at e
        exact absurd e hv
      · exact heq
      · have e := he k'
        rw [lookup, lookup, if_neg (by omega), if_pos rfl, lookup_below hr (by omega)] at e
        exact absurd e.symm hv'
    subst hk
    have e := he k
    rw [lookup, lookup, if_pos rfl, if_pos rfl] at e
    subst e
    refine congrArg _ (cells_ext hr hr' fun a => ?_)
    by_cases ha : k = a
    · subst ha
      rw [lookup_below hr (by omega), lookup_below hr' (by omega)]
    · have e := he a
      rwa [lookup, lookup, if_neg ha, if_neg ha] at e

end Cells

@[simp] theorem wf_unwritten (p : List Host.Cell) : Memory.wf ⟨p, []⟩ = true := rfl

@[simp] theorem powerOn_setByte (m : Memory) (a : Addr) (b : Byte) : (setByte m a b).powerOn = m.powerOn := rfl

theorem wf_setByte {m : Memory} (a : Addr) (b : Byte) (h : Memory.wf m = true) :
    Memory.wf (setByte m a b) = true := by
  have := canonicalFrom_writeCell (b := b) a.isLt (Nat.zero_le _) h
  exact this

theorem byteAt_setByte {m : Memory} (h : Memory.wf m = true) (a : Addr) (b : Byte) (c : Addr) :
    byteAt (setByte m a b) c = if c = a then b else byteAt m c := by
  have := lookup_writeCell (a := a.toNat) (b := b) c.toNat h
  simp only [BitVec.toNat_inj] at this
  exact this

/-- Canonical memories of one power-on whose every address reads the same are equal. -/
theorem memory_ext {m m' : Memory} (hp : m.powerOn = m'.powerOn) (h : Memory.wf m = true)
    (h' : Memory.wf m' = true) (he : ∀ a : Addr, byteAt m a = byteAt m' a) : m = m' := by
  obtain ⟨p, c⟩ := m
  obtain ⟨p', c'⟩ := m'
  obtain rfl : p = p' := hp
  refine congrArg _ (cells_ext (un := lookup 0 p) h h' fun a => ?_)
  by_cases ha : a < 2 ^ 32
  · have e := he (BitVec.ofNat 32 a)
    simp only [byteAt, BitVec.toNat_ofNat, Nat.mod_eq_of_lt ha] at e
    exact e
  · have e := lookup_above ha h
    have e' := lookup_above ha h'
    exact e.trans e'.symm

/-! ### Pixels -/

theorem wf_writePixel {m : Memory} (a : Addr) (p : Pixel) (h : Memory.wf m = true) :
    Memory.wf (writePixel m a p) = true :=
  wf_setByte _ _ (wf_setByte _ _ (wf_setByte _ _ (wf_setByte _ _ h)))

@[simp] theorem powerOn_writePixel (m : Memory) (a : Addr) (p : Pixel) : (writePixel m a p).powerOn = m.powerOn := rfl

/-- The bytes after a pixel was written. -/
theorem byteAt_writePixel {m : Memory} (h : Memory.wf m = true) (a : Addr) (p : Pixel) (c : Addr) :
    byteAt (writePixel m a p) c =
      if c = a then ch p 0 else if c = a + 1 then ch p 1
      else if c = a + 2 then ch p 2 else if c = a + 3 then ch p 3 else byteAt m c := by
  have h1 := wf_setByte a (ch p 0) h
  have h2 := wf_setByte (a + 1) (ch p 1) h1
  have h3 := wf_setByte (a + 2) (ch p 2) h2
  unfold writePixel
  rw [byteAt_setByte h3, byteAt_setByte h2, byteAt_setByte h1, byteAt_setByte h]
  by_cases e0 : c = a
  · subst e0
    rw [if_neg (by bv_omega), if_neg (by bv_omega), if_neg (by bv_omega)]
    simp
  · by_cases e1 : c = a + 1
    · subst e1
      rw [if_neg (by bv_omega), if_neg (by bv_omega), if_neg e0]
      simp
    · by_cases e2 : c = a + 2
      · subst e2
        rw [if_neg (by bv_omega), if_neg e0, if_neg e1]
        simp
      · by_cases e3 : c = a + 3
        · rw [if_pos e3, if_neg e0, if_neg e1, if_neg e2, if_pos e3]
        · simp only [e0, e1, e2, e3, if_false]

/-- Whether an address is one of the four bytes of the pixel at `a`. -/
def ofPixel (a c : Addr) : Prop := c = a ∨ c = a + 1 ∨ c = a + 2 ∨ c = a + 3

theorem byteAt_writePixel_other {m : Memory} (h : Memory.wf m = true) {a c : Addr} (p : Pixel)
    (hc : ¬ ofPixel a c) : byteAt (writePixel m a p) c = byteAt m c := by
  simp only [ofPixel, not_or] at hc
  rw [byteAt_writePixel h, if_neg hc.1, if_neg hc.2.1, if_neg hc.2.2.1, if_neg hc.2.2.2]

theorem readPixel_writePixel_same {m : Memory} (h : Memory.wf m = true) (a : Addr) (p : Pixel) :
    readPixel (writePixel m a p) a = p := by
  have e1 : ¬ a + 1 = a := by bv_omega
  have e2 : ¬ a + 2 = a := by bv_omega
  have e3 : ¬ a + 3 = a := by bv_omega
  have e4 : ¬ a + 2 = a + 1 := by bv_omega
  have e5 : ¬ a + 3 = a + 1 := by bv_omega
  have e6 : ¬ a + 3 = a + 2 := by bv_omega
  unfold readPixel
  simp only [byteAt_writePixel h, e1, e2, e3, e4, e5, e6, if_true, if_false]
  exact pixelOf_ch p

/-- A pixel reads as before when none of its bytes changed. -/
theorem readPixel_congr {m m' : Memory} {a : Addr}
    (h : ∀ c, ofPixel a c → byteAt m c = byteAt m' c) : readPixel m a = readPixel m' a := by
  unfold readPixel
  rw [h a (.inl rfl), h (a + 1) (.inr (.inl rfl)), h (a + 2) (.inr (.inr (.inl rfl))),
    h (a + 3) (.inr (.inr (.inr rfl)))]

/-- The pixel decides its bytes. -/
theorem byteAt_congr {m m' : Memory} {a : Addr} (h : readPixel m a = readPixel m' a) :
    ∀ c, ofPixel a c → byteAt m c = byteAt m' c := by
  obtain ⟨h0, h1, h2, h3⟩ := pixelOf_inj.mp h
  rintro c (rfl | rfl | rfl | rfl) <;> assumption

end Sys2Proof.Machine
end

