-- ==== Sys2Proof/Laws/Vector.lean ====
section
/-! SUPPORT. Vector accesses: what a lane-masked read answers and what a lane-masked write leaves. -/

namespace Sys2Proof.Machine

/-! ### Outcomes in sequence -/

@[simp] theorem andThen_next {α β : Type} (a : α) (f : α → Res β) :
    andThen (.next a : Res α) f = f a := rfl

/-- An answer of two outcomes in sequence is an answer of both. -/
theorem andThen_eq_next {α β : Type} {o : Res α} {f : α → Res β} {b : β} :
    andThen o f = .next b ↔ ∃ a, o = .next a ∧ f a = .next b := by
  cases o <;> simp [andThen]

/-! ### Addresses of lanes -/

theorem pixelAddr_zero (base : Addr) : pixelAddr base 0 = base := by simp [pixelAddr]

theorem pixelAddr_succ (base : Addr) (j : Nat) : pixelAddr base j + 4 = pixelAddr base (j + 1) := by
  unfold pixelAddr
  rw [Nat.mul_succ, BitVec.ofNat_add, BitVec.add_assoc]
  rfl

theorem pixelAddr_add (base : Addr) (i j : Nat) :
    pixelAddr (pixelAddr base i) j = pixelAddr base (i + j) := by
  unfold pixelAddr
  rw [Nat.mul_add, BitVec.ofNat_add, BitVec.add_assoc]

theorem ofPixel_iff (a c : Addr) : ofPixel a c ↔ (c - a).toNat < 4 := by
  unfold ofPixel
  constructor
  · rintro (rfl | rfl | rfl | rfl) <;> bv_omega
  · intro h
    bv_omega

/-- Pixels of a buffer at most 2^30 pixels long have no byte in common. -/
theorem ofPixel_unique {base c : Addr} {i j : Nat} (hi : i < 2 ^ 30) (hj : j < 2 ^ 30)
    (h : ofPixel (pixelAddr base i) c) (h' : ofPixel (pixelAddr base j) c) : i = j := by
  rw [ofPixel_iff] at h h'
  unfold pixelAddr at h h'
  bv_omega

theorem bufferHolds_eq_true {base : Addr} {n : Nat} {a : Addr} :
    bufferHolds base n a = true ↔ ∃ j, j < n ∧ ofPixel (pixelAddr base j) a := by
  simp [bufferHolds, ofPixel_iff]

theorem bufferHolds_eq_false {base : Addr} {n : Nat} {a : Addr} :
    bufferHolds base n a = false ↔ ∀ j, j < n → ¬ ofPixel (pixelAddr base j) a := by
  rw [← Bool.not_eq_true, bufferHolds_eq_true]
  simp only [not_exists, not_and]

theorem bufferBacked_iff {cfg : Params} {base : Addr} {n : Nat} :
    bufferBacked cfg base n = true ↔ ∀ j, j < n → pixelBacked cfg (pixelAddr base j) = true := by
  simp [bufferBacked]

/-! ### Single accesses -/

theorem checkByte_of_plain {cfg : Params} {a : Addr} (h : plainAt cfg a = true) :
    checkByte cfg a = .next () := by
  unfold plainAt at h
  rw [beq_iff_eq] at h
  simp [checkByte, h]

theorem plain_of_checkByte {cfg : Params} {a : Addr} {u : Unit} (h : checkByte cfg a = .next u) :
    plainAt cfg a = true := by
  unfold checkByte at h
  unfold plainAt
  split at h <;> simp_all

theorem checkPixel_iff {cfg : Params} {a : Addr} :
    checkPixel cfg a = .next () ↔ pixelBacked cfg a = true := by
  unfold pixelBacked checkPixel
  simp only [Bool.and_eq_true]
  constructor
  · intro h
    obtain ⟨_, h0, h⟩ := andThen_eq_next.mp h
    obtain ⟨_, h1, h⟩ := andThen_eq_next.mp h
    obtain ⟨_, h2, h3⟩ := andThen_eq_next.mp h
    exact ⟨⟨⟨plain_of_checkByte h0, plain_of_checkByte h1⟩, plain_of_checkByte h2⟩, plain_of_checkByte h3⟩
  · rintro ⟨⟨⟨h0, h1⟩, h2⟩, h3⟩
    rw [checkByte_of_plain h0, checkByte_of_plain h1, checkByte_of_plain h2, checkByte_of_plain h3]
    rfl

theorem memRead_of_backed {cfg : Params} {m : Memory} {a : Addr} (h : pixelBacked cfg a = true) :
    memRead cfg m a = .next (readPixel m a) := by
  rw [memRead, checkPixel_iff.mpr h, andThen_next]

theorem memWrite_of_backed {cfg : Params} {m : Memory} {a : Addr} {p : Pixel}
    (h : pixelBacked cfg a = true) : memWrite cfg m a p = .next (writePixel m a p) := by
  rw [memWrite, checkPixel_iff.mpr h, andThen_next]

theorem memRead_eq_next {cfg : Params} {m : Memory} {a : Addr} {p : Pixel}
    (h : memRead cfg m a = .next p) : p = readPixel m a := by
  obtain ⟨_, _, h⟩ := andThen_eq_next.mp h
  simpa using h.symm

theorem memWrite_eq_next {cfg : Params} {m m' : Memory} {a : Addr} {p : Pixel}
    (h : memWrite cfg m a p = .next m') : m' = writePixel m a p := by
  obtain ⟨_, _, h⟩ := andThen_eq_next.mp h
  simpa using h.symm

/-! ### The span mask -/

@[simp] theorem length_spanMaskFrom (k : Nat) : ∀ w i : Nat, (spanMaskFrom k i w).length = w
  | 0, _ => rfl
  | w + 1, i => by simp [spanMaskFrom, length_spanMaskFrom k w (i + 1)]

theorem activeCount_le (w : Nat) (n : Word) : activeCount w n ≤ w := Nat.min_le_right _ _

theorem count_le (l : Lanes) : l.count ≤ 16 := by cases l <;> decide

theorem count_pos (l : Lanes) : 0 < l.count := by cases l <;> decide

theorem active_ne_inactive : inactiveLane ≠ activeLane := by decide

theorem spanMaskFrom_head (k i w : Nat) :
    (spanMaskFrom k i (w + 1)) = (if i < k then activeLane else inactiveLane) :: spanMaskFrom k (i + 1) w :=
  rfl

theorem laneEnables_spanMask (k : Nat) :
    ∀ w i : Nat, laneEnables (spanMaskFrom k i w) = (List.range' i w).map fun j => decide (j < k)
  | 0, _ => rfl
  | w + 1, i => by
    have ih := laneEnables_spanMask k w (i + 1)
    unfold laneEnables at ih ⊢
    rw [spanMaskFrom_head, List.map_cons, ih, List.range'_succ, List.map_cons]
    congr 1
    split <;> simp_all [activeLane, inactiveLane]

/-! ### Vectors given lane by lane -/

/-- The vector of w lanes whose lane j is `f j`. -/
def lanesOf (w : Nat) (f : Nat → Pixel) : PixelVector := (List.range' 0 w).map f

@[simp] theorem length_lanesOf (w : Nat) (f : Nat → Pixel) : (lanesOf w f).length = w := by
  simp [lanesOf]

theorem lanesOf_congr {w : Nat} {f g : Nat → Pixel} (h : ∀ j, j < w → f j = g j) :
    lanesOf w f = lanesOf w g :=
  List.map_congr_left fun j hj => h j (by simpa using hj)

theorem zipWith_lanesOf (w : Nat) (op : Pixel → Pixel → Pixel) (f g : Nat → Pixel) :
    List.zipWith op (lanesOf w f) (lanesOf w g) = lanesOf w fun j => op (f j) (g j) := by
  unfold lanesOf
  generalize List.range' 0 w = l
  induction l with
  | nil => rfl
  | cons a l ih => simp [ih]

theorem replicate_eq_lanesOf (w : Nat) (p : Pixel) : List.replicate w p = lanesOf w fun _ => p := by
  simp [lanesOf, List.map_const']

theorem all_lanesOf (w : Nat) (f : Nat → Pixel) (q : Pixel → Bool) :
    (lanesOf w f).all q = true ↔ ∀ j, j < w → q (f j) = true := by
  simp [lanesOf]

theorem eq_lanesOf (V : PixelVector) : V = lanesOf V.length fun j => V.getD j 0 := by
  apply List.ext_getElem (by simp)
  intro j h1 h2
  simp [lanesOf, List.getD_eq_getElem?_getD, h1]

/-! ### Vector reads (rule R55) -/

/-- What lane j of a vector read with k active lanes holds. -/
def laneRead (m : Memory) (base : Addr) (k j : Nat) : Pixel :=
  if j < k then readPixel m (pixelAddr base j) else 0

theorem vecRead_from {cfg : Params} {m : Memory} {base : Addr} {k : Nat} :
    ∀ {w i : Nat}, (∀ j, i ≤ j → j < i + w → j < k → pixelBacked cfg (pixelAddr base j) = true) →
      vecRead cfg m (pixelAddr base i) (spanMaskFrom k i w) =
        .next ((List.range' i w).map (laneRead m base k))
  | 0, _, _ => rfl
  | w + 1, i, h => by
    have ih := vecRead_from (m := m) (w := w) (i := i + 1) fun j h1 h2 h3 => h j (by omega) (by omega) h3
    rw [spanMaskFrom_head, vecRead, pixelAddr_succ, ih, List.range'_succ, List.map_cons]
    by_cases hi : i < k
    · simp only [hi, if_true, memRead_of_backed (h i (le_refl i) (by omega) hi), andThen_next, laneRead]
    · simp only [hi, if_false, active_ne_inactive, andThen_next, laneRead]

/-- A vector read of a backed buffer answers, and its lanes are the pixels of the active lanes and 0. -/
theorem vecRead_span {cfg : Params} {m : Memory} {base : Addr} {w : Nat} {n : Word}
    (h : bufferBacked cfg base (activeCount w n) = true) :
    vecRead cfg m base (spanMask w n) = .next (lanesOf w (laneRead m base (activeCount w n))) := by
  have := vecRead_from (m := m) (w := w) (i := 0) fun j _ _ h3 => bufferBacked_iff.mp h j h3
  rwa [pixelAddr_zero] at this

/-- A vector read that answers has these lanes. -/
theorem vecRead_from_next {cfg : Params} {m : Memory} {base : Addr} {k : Nat} :
    ∀ {w i : Nat} {V : PixelVector}, vecRead cfg m (pixelAddr base i) (spanMaskFrom k i w) = .next V →
      V = (List.range' i w).map (laneRead m base k) ∧
        ∀ j, i ≤ j → j < i + w → j < k → pixelBacked cfg (pixelAddr base j) = true
  | 0, _, V, h => by
    have : V = [] := by simpa [spanMaskFrom, vecRead] using h.symm
    exact ⟨by simp [this], fun j h1 h2 _ => by omega⟩
  | w + 1, i, V, h => by
    rw [spanMaskFrom_head, vecRead, pixelAddr_succ] at h
    obtain ⟨p, hp, h⟩ := andThen_eq_next.mp h
    obtain ⟨ps, hps, h⟩ := andThen_eq_next.mp h
    obtain ⟨rfl, hb⟩ := vecRead_from_next hps
    have hV : V = p :: (List.range' (i + 1) w).map (laneRead m base k) := by simpa using h.symm
    by_cases hi : i < k
    · simp only [hi, if_true] at hp
      refine ⟨?_, fun j h1 h2 h3 => ?_⟩
      · rw [hV, List.range'_succ, List.map_cons, laneRead, if_pos hi, memRead_eq_next hp]
      · by_cases hj : j = i
        · subst hj
          obtain ⟨_, hc, _⟩ := andThen_eq_next.mp hp
          exact checkPixel_iff.mp hc
        · exact hb j (by omega) (by omega) h3
    · simp only [hi, if_false, active_ne_inactive, Host.Outcome.next.injEq] at hp
      refine ⟨?_, fun j h1 h2 h3 => by omega⟩
      rw [hV, List.range'_succ, List.map_cons, laneRead, if_neg hi, ← hp]

theorem vecRead_span_next {cfg : Params} {m : Memory} {base : Addr} {w : Nat} {n : Word}
    {V : PixelVector} (h : vecRead cfg m base (spanMask w n) = .next V) :
    V = lanesOf w (laneRead m base (activeCount w n)) ∧
      bufferBacked cfg base (activeCount w n) = true := by
  have h' : vecRead cfg m (pixelAddr base 0) (spanMaskFrom (activeCount w n) 0 w) = .next V := by
    rw [pixelAddr_zero]; exact h
  obtain ⟨hV, hb⟩ := vecRead_from_next h'
  exact ⟨hV, bufferBacked_iff.mpr fun j hj =>
    hb j (Nat.zero_le _) (by have := activeCount_le w n; omega) hj⟩

/-! ### Vector writes (rule R56) -/

/-- The memory after lanes i, …, i + w - 1 below k were stored, lane j holding `f j`. -/
def storeLanes (base : Addr) (k : Nat) (f : Nat → Pixel) : Nat → Nat → Memory → Memory
  | _, 0, m => m
  | i, w + 1, m =>
    storeLanes base k f (i + 1) w (if i < k then writePixel m (pixelAddr base i) (f i) else m)

theorem vecWrite_from {cfg : Params} {base : Addr} {k : Nat} {f : Nat → Pixel} :
    ∀ {w i : Nat} {m : Memory},
      (∀ j, i ≤ j → j < i + w → j < k → pixelBacked cfg (pixelAddr base j) = true) →
      vecWrite cfg m (pixelAddr base i) (spanMaskFrom k i w) ((List.range' i w).map f) =
        .next (storeLanes base k f i w m)
  | 0, _, _, _ => rfl
  | w + 1, i, m, h => by
    rw [spanMaskFrom_head, List.range'_succ, List.map_cons, vecWrite, pixelAddr_succ]
    have ih := fun m' => vecWrite_from (f := f) (w := w) (i := i + 1) (m := m')
      fun j h1 h2 h3 => h j (by omega) (by omega) h3
    by_cases hi : i < k
    · simp only [hi, if_true, memWrite_of_backed (h i (le_refl i) (by omega) hi), andThen_next,
        storeLanes, ih]
    · simp only [hi, if_false, active_ne_inactive, andThen_next, storeLanes, ih]

/-- A vector write to a backed buffer answers, with the active lanes stored. -/
theorem vecWrite_span {cfg : Params} {m : Memory} {base : Addr} {w : Nat} {n : Word} {f : Nat → Pixel}
    (h : bufferBacked cfg base (activeCount w n) = true) :
    vecWrite cfg m base (spanMask w n) (lanesOf w f) =
      .next (storeLanes base (activeCount w n) f 0 w m) := by
  have := vecWrite_from (f := f) (m := m) (w := w) (i := 0) fun j _ _ h3 => bufferBacked_iff.mp h j h3
  rwa [pixelAddr_zero] at this

theorem vecWrite_from_next {cfg : Params} {base : Addr} {k : Nat} {f : Nat → Pixel} :
    ∀ {w i : Nat} {m m' : Memory},
      vecWrite cfg m (pixelAddr base i) (spanMaskFrom k i w) ((List.range' i w).map f) = .next m' →
      m' = storeLanes base k f i w m ∧
        ∀ j, i ≤ j → j < i + w → j < k → pixelBacked cfg (pixelAddr base j) = true
  | 0, _, m, m', h => by
    have : m' = m := by simpa [spanMaskFrom, vecWrite] using h.symm
    exact ⟨this, fun j h1 h2 _ => by omega⟩
  | w + 1, i, m, m', h => by
    rw [spanMaskFrom_head, List.range'_succ, List.map_cons, vecWrite, pixelAddr_succ] at h
    obtain ⟨m1, h1, h⟩ := andThen_eq_next.mp h
    obtain ⟨rfl, hb⟩ := vecWrite_from_next h
    by_cases hi : i < k
    · simp only [hi, if_true] at h1
      have hm := memWrite_eq_next h1
      refine ⟨by simp only [storeLanes, hi, if_true, hm], fun j h2 h3 h4 => ?_⟩
      by_cases hj : j = i
      · subst hj
        obtain ⟨_, hc, _⟩ := andThen_eq_next.mp h1
        exact checkPixel_iff.mp hc
      · exact hb j (by omega) (by omega) h4
    · simp only [hi, if_false, active_ne_inactive, Host.Outcome.next.injEq] at h1
      exact ⟨by simp only [storeLanes, hi, if_false, h1], fun j _ _ h4 => by omega⟩

theorem vecWrite_span_next {cfg : Params} {m m' : Memory} {base : Addr} {w : Nat} {n : Word}
    {f : Nat → Pixel} (h : vecWrite cfg m base (spanMask w n) (lanesOf w f) = .next m') :
    m' = storeLanes base (activeCount w n) f 0 w m ∧
      bufferBacked cfg base (activeCount w n) = true := by
  have h' : vecWrite cfg m (pixelAddr base 0) (spanMaskFrom (activeCount w n) 0 w)
      ((List.range' 0 w).map f) = .next m' := by rw [pixelAddr_zero]; exact h
  obtain ⟨hm, hb⟩ := vecWrite_from_next h'
  exact ⟨hm, bufferBacked_iff.mpr fun j hj =>
    hb j (Nat.zero_le _) (by have := activeCount_le w n; omega) hj⟩

theorem powerOn_storeLanes {base : Addr} {k : Nat} {f : Nat → Pixel} :
    ∀ {w i : Nat} {m : Memory}, (storeLanes base k f i w m).powerOn = m.powerOn
  | 0, _, _ => rfl
  | w + 1, i, m => by
    rw [storeLanes, powerOn_storeLanes]
    split <;> rfl

theorem wf_storeLanes {base : Addr} {k : Nat} {f : Nat → Pixel} :
    ∀ {w i : Nat} {m : Memory}, Memory.wf m = true → Memory.wf (storeLanes base k f i w m) = true
  | 0, _, _, h => h
  | w + 1, i, m, h => by
    rw [storeLanes]
    refine wf_storeLanes ?_
    split
    · exact wf_writePixel _ _ h
    · exact h

/-- The bytes that are in none of the stored lanes stay. -/
theorem byteAt_storeLanes_other {base : Addr} {k : Nat} {f : Nat → Pixel} {c : Addr} :
    ∀ {w i : Nat} {m : Memory}, Memory.wf m = true →
      (∀ j, i ≤ j → j < i + w → j < k → ¬ ofPixel (pixelAddr base j) c) →
      byteAt (storeLanes base k f i w m) c = byteAt m c
  | 0, _, _, _, _ => rfl
  | w + 1, i, m, h, hc => by
    have h' : Memory.wf (if i < k then writePixel m (pixelAddr base i) (f i) else m) = true := by
      split
      · exact wf_writePixel _ _ h
      · exact h
    rw [storeLanes, byteAt_storeLanes_other h' fun j h1 h2 h3 => hc j (by omega) (by omega) h3]
    split
    · rename_i hi
      exact byteAt_writePixel_other h _ (hc i (le_refl i) (by omega) hi)
    · rfl

/-- A stored lane reads as it was stored. -/
theorem readPixel_storeLanes {base : Addr} {k : Nat} {f : Nat → Pixel} {j : Nat} :
    ∀ {w i : Nat} {m : Memory}, Memory.wf m = true → i + w ≤ 2 ^ 30 → i ≤ j → j < i + w → j < k →
      readPixel (storeLanes base k f i w m) (pixelAddr base j) = f j
  | 0, i, _, _, _, h1, h2, _ => by omega
  | w + 1, i, m, h, hw, h1, h2, h3 => by
    have h' : Memory.wf (if i < k then writePixel m (pixelAddr base i) (f i) else m) = true := by
      split
      · exact wf_writePixel _ _ h
      · exact h
    rw [storeLanes]
    by_cases hj : j = i
    · subst hj
      have : readPixel (storeLanes base k f (j + 1) w
          (if j < k then writePixel m (pixelAddr base j) (f j) else m)) (pixelAddr base j) =
          readPixel (if j < k then writePixel m (pixelAddr base j) (f j) else m) (pixelAddr base j) :=
        readPixel_congr fun c hc => byteAt_storeLanes_other h' fun j' h4 h5 _ hc' => by
          have := ofPixel_unique (by omega) (by omega) hc hc'
          omega
      rw [this, if_pos h3, readPixel_writePixel_same h]
    · exact readPixel_storeLanes h' (by omega) (by omega) (by omega) h3

end Sys2Proof.Machine
end

