-- ==== Sys2Proof/Laws/Iteration.lean ====
section
/-! SUPPORT. The stages of an iteration: what each answers, and what an iteration body leaves. -/

namespace Sys2Proof.Machine

/-! ### The frame of the stages -/

/-- What no stage of an iteration changes: everything but memory, its port and the datapath. -/
structure Framed (s t : State) : Prop where
  cfg       : t.cfg = s.cfg
  regs      : t.regs = s.regs
  eng       : t.eng = s.eng
  hostRdata : t.hostRdata = s.hostRdata
  hostByte  : t.hostByte = s.hostByte
  draws     : t.draws = s.draws
  inputs    : t.inputs = s.inputs

theorem Framed.refl (s : State) : Framed s s := ⟨rfl, rfl, rfl, rfl, rfl, rfl, rfl⟩

theorem Framed.trans {s t u : State} (h : Framed s t) (h' : Framed t u) : Framed s u :=
  ⟨h'.cfg.trans h.cfg, h'.regs.trans h.regs, h'.eng.trans h.eng, h'.hostRdata.trans h.hostRdata,
    h'.hostByte.trans h.hostByte, h'.draws.trans h.draws, h'.inputs.trans h.inputs⟩

theorem Framed.lanes {s t : State} (h : Framed s t) : t.lanes = s.lanes := by
  unfold State.lanes; rw [h.cfg]

theorem framed_setDp (s : State) (d : Datapath) : Framed s (s.setDp d) := ⟨rfl, rfl, rfl, rfl, rfl, rfl, rfl⟩

theorem framed_addAccess (s : State) (a : MemAccess) : Framed s (s.addAccess a) :=
  ⟨rfl, rfl, rfl, rfl, rfl, rfl, rfl⟩

theorem framed_setMem (s : State) (m : Memory) : Framed s (s.setMem m) := ⟨rfl, rfl, rfl, rfl, rfl, rfl, rfl⟩

/-- LM holds the span mask of the pixels left (rule R34). -/
def Spanned (s : State) : Prop := s.dp.LM = spanMask s.lanes s.eng.iN

/-- The request of the next iteration at a base, with these lanes. -/
def request (s : State) (kind : AccessKind) (base : Addr) (v : PixelVector) : MemAccess :=
  ⟨kind, base, laneEnables (spanMask s.lanes s.eng.iN), v⟩

/-- The lanes of the next iteration's read at a base. -/
def spanRead (s : State) (base : Addr) : PixelVector := lanesOf s.lanes (laneRead s.mem base (activeLanes s))

/-! ### Vector accesses of the block -/

theorem vread_of_backed {s : State} {base : Addr} (h : Spanned s)
    (hb : bufferBacked s.cfg base (activeLanes s) = true) :
    vread base s = .next (spanRead s base, s.addAccess (request s .read base (spanRead s base))) := by
  unfold vread
  rw [h, vecRead_span (by exact hb), andThen_next]
  rfl

theorem vread_eq_next {s t : State} {base : Addr} {V : PixelVector} (h : Spanned s)
    (hv : vread base s = .next (V, t)) :
    V = spanRead s base ∧ t = s.addAccess (request s .read base (spanRead s base)) ∧
      bufferBacked s.cfg base (activeLanes s) = true := by
  have hv' := hv
  unfold vread at hv
  rw [h] at hv
  obtain ⟨V', hV', _⟩ := andThen_eq_next.mp hv
  obtain ⟨_, hb⟩ := vecRead_span_next hV'
  rw [vread_of_backed h hb] at hv'
  simp only [Host.Outcome.next.injEq, Prod.mk.injEq] at hv'
  exact ⟨hv'.1.symm, hv'.2.symm, hb⟩

/-- The memory after the next iteration stored `f j` in each active lane j at a base. -/
def spanStore (s : State) (base : Addr) (f : Nat → Pixel) : Memory :=
  storeLanes base (activeLanes s) f 0 s.lanes s.mem

theorem vwrite_of_backed {s : State} {base : Addr} {f : Nat → Pixel} (h : Spanned s)
    (hb : bufferBacked s.cfg base (activeLanes s) = true) :
    vwrite base (lanesOf s.lanes f) s =
      .next ((s.setMem (spanStore s base f)).addAccess (request s .write base (lanesOf s.lanes f))) := by
  unfold vwrite
  rw [h, vecWrite_span (by exact hb), andThen_next]
  rfl

theorem vwrite_eq_next {s t : State} {base : Addr} {f : Nat → Pixel} (h : Spanned s)
    (hv : vwrite base (lanesOf s.lanes f) s = .next t) :
    t = (s.setMem (spanStore s base f)).addAccess (request s .write base (lanesOf s.lanes f)) ∧
      bufferBacked s.cfg base (activeLanes s) = true := by
  have hv' := hv
  unfold vwrite at hv
  rw [h] at hv
  obtain ⟨m, hm, _⟩ := andThen_eq_next.mp hv
  obtain ⟨_, hb⟩ := vecWrite_span_next hm
  rw [vwrite_of_backed h hb] at hv'
  simp only [Host.Outcome.next.injEq] at hv'
  exact ⟨hv'.symm, hb⟩

/-! ### The source stages -/

/-- Stages 2 to 4 of a command. -/
def sourceStage (i : Instr) (s : State) : Res State :=
  if i.masked then maskedSource i.ach s else plainSource s

/-- Lane j of VE after stage 4: an inactive lane is 0 (rule R163). -/
def laneEffective (i : Instr) (s : State) (j : Nat) : Pixel :=
  effective i (laneRead s.mem s.eng.iS (activeLanes s) j) (laneRead s.mem s.eng.iM (activeLanes s) j)

theorem laneEffective_active {i : Instr} {s : State} {j : Nat} (h : j < activeLanes s) :
    laneEffective i s j = laneSource i s j := by
  simp only [laneEffective, laneSource, laneRead, h, if_true]

theorem laneEffective_inactive {i : Instr} {s : State} {j : Nat} (h : ¬ j < activeLanes s) :
    laneEffective i s j = 0 := by
  unfold laneEffective laneRead effective
  rw [if_neg h, if_neg h, zero_maskc, ite_self]

/-- What the source stages leave. -/
structure Sourced (i : Instr) (s t : State) : Prop where
  framed  : Framed s t
  mem     : t.mem = s.mem
  spanned : Spanned t
  VE      : t.dp.VE = lanesOf s.lanes (laneEffective i s)
  sized   : s.dp.sized s.lanes → t.dp.sized s.lanes
  port    : ∃ new : List MemAccess, t.memPort = s.memPort ++ new ∧
      new.map MemAccess.request =
        (if i.masked then [(AccessKind.read, s.eng.iM)] else []) ++
          (if i.masked && transparentSpan i s then [] else [(AccessKind.read, s.eng.iS)]) ∧
      ∀ a ∈ new, a.laneEn = laneEnables (spanMask s.lanes s.eng.iN)

theorem activeLanes_framed {s t : State} (h : Framed s t) : activeLanes t = activeLanes s := by
  unfold activeLanes; rw [h.lanes, h.eng]

theorem even_lanes (s : State) : s.lanes / 2 + s.lanes / 2 = s.lanes := by
  unfold State.lanes; cases s.cfg.lanes <;> rfl

theorem sized_widenV {s : State} {V : PixelVector} (h : V.length = s.lanes) : (widenV V).sized s.lanes := by
  have := even_lanes s
  constructor <;> simp [widenV, length_widenHalf, h] <;> omega

theorem narrowV_widenV (V : PixelVector) : narrowV (widenV V) = V := by
  rw [widenV, narrowV_widenHalves, List.take_append_drop]

theorem transparentSpan_iff {i : Instr} {s : State} :
    isTransparentMask (spanRead s s.eng.iM) i.ach = transparentSpan i s := by
  rw [Bool.eq_iff_iff]
  unfold isTransparentMask spanRead
  rw [all_lanesOf]
  simp only [transparentSpan, List.all_eq_true, List.mem_range, beq_iff_eq, decide_eq_true_eq]
  constructor
  · intro h j hj
    have := h j (lt_of_lt_of_le hj (activeCount_le _ _))
    rwa [laneRead, if_pos hj] at this
  · intro h j _
    unfold laneRead
    split
    · exact h j ‹_›
    · exact ch_zero _

theorem transparent_effective {i : Instr} {s : State} (hm : i.masked = true)
    (h : transparentSpan i s = true) : ∀ j, laneEffective i s j = 0 := by
  intro j
  by_cases hj : j < activeLanes s
  · simp only [transparentSpan, List.all_eq_true, List.mem_range, beq_iff_eq] at h
    rw [laneEffective_active hj, laneSource, effective, if_pos hm, maskc_transparent (h j hj)]
  · exact laneEffective_inactive hj

/-- A read stage: one vector read, and a datapath update with its lanes. -/
structure ReadStage (s t : State) (base : Addr) (d : Datapath) : Prop where
  framed : Framed s t
  mem    : t.mem = s.mem
  dp     : t.dp = d
  port   : t.memPort = s.memPort ++ [request s .read base (spanRead s base)]
  backed : bufferBacked s.cfg base (activeLanes s) = true

theorem loadMask_eq_next {s t : State} {a : Nat} (h : Spanned s) (ht : loadMask a s = .next t) :
    ReadStage s t s.eng.iM
      { s.dp with VM := spanRead s s.eng.iM, fT := isTransparentMask (spanRead s s.eng.iM) a } := by
  unfold loadMask at ht
  obtain ⟨⟨V, v⟩, hv, ht⟩ := andThen_eq_next.mp ht
  obtain ⟨rfl, rfl, hb⟩ := vread_eq_next h hv
  simp only [Host.Outcome.next.injEq] at ht
  subst ht
  exact ⟨⟨rfl, rfl, rfl, rfl, rfl, rfl, rfl⟩, rfl, rfl, rfl, hb⟩

theorem loadSource_eq_next {s t : State} (h : Spanned s) (ht : loadSource s = .next t) :
    ReadStage s t s.eng.iS { s.dp with VS := spanRead s s.eng.iS } := by
  unfold loadSource at ht
  obtain ⟨⟨V, v⟩, hv, ht⟩ := andThen_eq_next.mp ht
  obtain ⟨rfl, rfl, hb⟩ := vread_eq_next h hv
  simp only [Host.Outcome.next.injEq] at ht
  subst ht
  exact ⟨⟨rfl, rfl, rfl, rfl, rfl, rfl, rfl⟩, rfl, rfl, rfl, hb⟩

theorem loadDst_eq_next {s t : State} (h : Spanned s) (ht : loadDst s = .next t) :
    ReadStage s t s.eng.iD { s.dp with VD := spanRead s s.eng.iD } := by
  unfold loadDst at ht
  obtain ⟨⟨V, v⟩, hv, ht⟩ := andThen_eq_next.mp ht
  obtain ⟨rfl, rfl, hb⟩ := vread_eq_next h hv
  simp only [Host.Outcome.next.injEq] at ht
  subst ht
  exact ⟨⟨rfl, rfl, rfl, rfl, rfl, rfl, rfl⟩, rfl, rfl, rfl, hb⟩

theorem loadMask_answers {s : State} (a : Nat) (h : Spanned s)
    (hb : bufferBacked s.cfg s.eng.iM (activeLanes s) = true) : ∃ t, loadMask a s = .next t := by
  unfold loadMask; rw [vread_of_backed h hb]; exact ⟨_, rfl⟩

theorem loadSource_answers {s : State} (h : Spanned s)
    (hb : bufferBacked s.cfg s.eng.iS (activeLanes s) = true) : ∃ t, loadSource s = .next t := by
  unfold loadSource; rw [vread_of_backed h hb]; exact ⟨_, rfl⟩

theorem loadDst_answers {s : State} (h : Spanned s)
    (hb : bufferBacked s.cfg s.eng.iD (activeLanes s) = true) : ∃ t, loadDst s = .next t := by
  unfold loadDst; rw [vread_of_backed h hb]; exact ⟨_, rfl⟩

/-- The reads of the next iteration do not depend on what the stages before them did. -/
theorem spanRead_congr {s t : State} (h : Framed s t) (hm : t.mem = s.mem) (base : Addr) :
    spanRead t base = spanRead s base := by
  unfold spanRead; rw [h.lanes, hm, activeLanes_framed h]

theorem request_congr {s t : State} (h : Framed s t) (kind : AccessKind) (base : Addr) (v : PixelVector) :
    request t kind base v = request s kind base v := by
  unfold request; rw [h.lanes, h.eng]

theorem Spanned.of_framed {s t : State} (h : Spanned s) (hf : Framed s t) (hl : t.dp.LM = s.dp.LM) :
    Spanned t := by
  unfold Spanned; rw [hl, hf.lanes, hf.eng]; exact h

theorem sourced_plain {i : Instr} {s t : State} (hi : i.masked = false) (h : Spanned s)
    (ht : plainSource s = .next t) : Sourced i s t := by
  unfold plainSource at ht
  obtain ⟨u, hu, ht⟩ := andThen_eq_next.mp ht
  simp only [Host.Outcome.next.injEq] at ht
  have r := loadSource_eq_next h hu
  subst ht
  refine ⟨r.framed.trans (framed_setDp _ _), r.mem, ?_, ?_, fun hs => ?_, ⟨_, r.port, ?_, ?_⟩⟩
  · exact h.of_framed (r.framed.trans (framed_setDp _ _)) (by simp only [takeSource, State.setDp_dp, r.dp])
  · simp only [takeSource, State.setDp_dp, r.dp]
    refine lanesOf_congr fun j _ => ?_
    simp only [laneEffective, effective, hi, Bool.false_eq_true, if_false]
  · simp only [takeSource, State.setDp_dp, r.dp]
    exact { hs with VS := length_lanesOf _ _, VE := length_lanesOf _ _ }
  · simp [hi, request, MemAccess.request]
  · simp [request]

theorem sourced_masked {i : Instr} {s t : State} (hi : i.wellFormed = true) (hm : i.masked = true)
    (h : Spanned s) (ht : maskedSource i.ach s = .next t) : Sourced i s t := by
  have ha : i.ach < 4 := by simpa [Instr.wellFormed] using hi
  unfold maskedSource at ht
  obtain ⟨u, hu, ht⟩ := andThen_eq_next.mp ht
  have r := loadMask_eq_next h hu
  have hT : u.dp.fT = transparentSpan i s := by rw [r.dp]; exact transparentSpan_iff
  have hsu : Spanned u := h.of_framed r.framed (by rw [r.dp])
  rw [hT] at ht
  split at ht
  · rename_i hT'
    simp only [Host.Outcome.next.injEq] at ht
    subst ht
    refine ⟨r.framed.trans (framed_setDp _ _), r.mem, ?_, ?_, fun hs => ?_, ⟨_, r.port, ?_, ?_⟩⟩
    · exact h.of_framed (r.framed.trans (framed_setDp _ _)) (by simp only [clearSource, State.setDp_dp, r.dp])
    · simp only [clearSource, State.setDp_dp, r.framed.lanes, replicate_eq_lanesOf]
      exact lanesOf_congr fun j _ => (transparent_effective hm hT' j).symm
    · simp only [clearSource, State.setDp_dp, r.framed.lanes, r.dp]
      exact { hs with VM := length_lanesOf _ _, VE := List.length_replicate .. }
    · simp [hm, hT', request, MemAccess.request]
    · simp [request]
  · rename_i hT'
    obtain ⟨v, hv, ht⟩ := andThen_eq_next.mp ht
    have r' := loadSource_eq_next hsu hv
    have hf := r.framed.trans r'.framed
    have hVM : v.dp.VM = spanRead s s.eng.iM := by rw [r'.dp, r.dp]
    have hVS : v.dp.VS = spanRead s s.eng.iS := by
      rw [r'.dp, spanRead_congr r.framed r.mem, r.framed.eng]
    have hz : List.zipWith (fun s m => maskc s m i.ach) v.dp.VS v.dp.VM =
        lanesOf s.lanes (laneEffective i s) := by
      rw [hVM, hVS]
      unfold spanRead
      rw [zipWith_lanesOf]
      refine lanesOf_congr fun j _ => ?_
      rw [laneEffective, effective, if_pos hm]
    have hc := combine_widenV ha (V := v.dp.VS) (M := v.dp.VM) (by rw [hVM, hVS]; simp [spanRead])
    rw [hz] at hc
    unfold combineMask at ht
    simp only [hc, Host.Outcome.next.injEq] at ht
    subst ht
    refine ⟨hf.trans (framed_setDp _ _), by simp only [State.setDp_mem, r'.mem, r.mem], ?_, ?_,
      fun hs => ?_, ⟨[request s .read s.eng.iM (spanRead s s.eng.iM),
        request s .read s.eng.iS (spanRead s s.eng.iS)], ?_, ?_, ?_⟩⟩
    · exact h.of_framed (hf.trans (framed_setDp _ _)) (by simp only [State.setDp_dp, r'.dp, r.dp])
    · simp only [State.setDp_dp, narrowV_widenV]
    · have hsv : v.dp.sized s.lanes := by
        rw [r'.dp, r.dp]
        exact { hs with
          VM := length_lanesOf _ _
          VS := by rw [spanRead_congr r.framed r.mem]; exact length_lanesOf _ _ }
      simp only [State.setDp_dp]
      exact { hsv with
        VE := by rw [narrowV_widenV, length_lanesOf]
        hVS := sized_widenV (by rw [hVS]; exact length_lanesOf _ _)
        hVM := sized_widenV (by rw [hVM]; exact length_lanesOf _ _)
        hVE := sized_widenV (length_lanesOf _ _) }
    · simp only [State.setDp_memPort, r'.port, r.port, List.append_assoc, request_congr r.framed,
        r.framed.eng, spanRead_congr r.framed r.mem, List.singleton_append]
    · simp [hm, hT', request, MemAccess.request]
    · simp [request]

/-- The source stages answer exactly when their reads are backed; this is what they leave. -/
theorem sourceStage_eq_next {i : Instr} {s t : State} (hi : i.wellFormed = true) (h : Spanned s)
    (ht : sourceStage i s = .next t) : Sourced i s t := by
  unfold sourceStage at ht
  split at ht
  · exact sourced_masked hi ‹_› h ht
  · rename_i hm
    exact sourced_plain (Bool.not_eq_true _ ▸ hm) h ht

theorem sourceStage_answers {i : Instr} {s : State} (hi : i.wellFormed = true) (h : Spanned s)
    (hS : bufferBacked s.cfg s.eng.iS (activeLanes s) = true)
    (hM : i.masked = true → bufferBacked s.cfg s.eng.iM (activeLanes s) = true) :
    ∃ t, sourceStage i s = .next t := by
  have ha : i.ach < 4 := by simpa [Instr.wellFormed] using hi
  unfold sourceStage
  split
  · rename_i hm
    obtain ⟨u, hu⟩ := loadMask_answers i.ach h (hM hm)
    have r := loadMask_eq_next h hu
    have hsu : Spanned u := h.of_framed r.framed (by rw [r.dp])
    unfold maskedSource
    rw [hu, andThen_next]
    split
    · exact ⟨_, rfl⟩
    · obtain ⟨v, hv⟩ := loadSource_answers hsu (by rw [r.framed.cfg, r.framed.eng, activeLanes_framed r.framed]; exact hS)
      have r' := loadSource_eq_next hsu hv
      have hc := combine_widenV ha (V := v.dp.VS) (M := v.dp.VM) (by
        rw [r'.dp, r.dp]; simp [spanRead, r.framed.lanes])
      rw [hv, andThen_next]
      unfold combineMask
      simp only [hc]
      exact ⟨_, rfl⟩
  · obtain ⟨u, hu⟩ := loadSource_answers h hS
    unfold plainSource
    rw [hu]
    exact ⟨_, rfl⟩

/-! ### The destination stages -/

/-- What the stages that read, compute and write the destination leave. -/
structure Composited (s t : State) (r : Nat → Pixel) : Prop where
  framed  : Framed s t
  mem     : t.mem = spanStore s s.eng.iD r
  spanned : Spanned t
  sized   : s.dp.sized s.lanes → t.dp.sized s.lanes
  backed  : bufferBacked s.cfg s.eng.iD (activeLanes s) = true
  port    : ∃ new : List MemAccess, t.memPort = s.memPort ++ new ∧
      new.map MemAccess.request = [(AccessKind.read, s.eng.iD), (AccessKind.write, s.eng.iD)] ∧
      ∀ a ∈ new, a.laneEn = laneEnables (spanMask s.lanes s.eng.iN)

/-- The datapath after a kernel stage with the widened lanes of P and the result R. -/
def kernelLeaves (d : Datapath) (P R : PixelVector) : Datapath :=
  { d with hVE := widenV d.VE, hVD := widenV d.VD, hVR := widenV P, VR := R }

/-- The kernel stage with the widened lanes P and the result lanes r. -/
theorem kernelStage_eq {kernel : Halves → Halves → Option Halves}
    {finish : PixelVector → Datapath → PixelVector} {s : State} {P : PixelVector}
    (hk : kernel (widenV s.dp.VE) (widenV s.dp.VD) = some (widenV P)) :
    kernelStage kernel finish s =
      .next (s.setDp (kernelLeaves s.dp P (finish P s.dp))) := by
  unfold kernelStage
  simp only [hk, narrowV_widenV]
  rfl

theorem composite_eq {kernel : Halves → Halves → Option Halves}
    {finish : PixelVector → Datapath → PixelVector} {s : State} {e r : Nat → Pixel} {p : Nat → Pixel}
    (h : Spanned s) (hE : s.dp.VE = lanesOf s.lanes e)
    (hk : kernel (widenV (lanesOf s.lanes e)) (widenV (spanRead s s.eng.iD)) =
      some (widenV (lanesOf s.lanes p)))
    (hf : ∀ d : Datapath, d.VE = lanesOf s.lanes e → d.VD = spanRead s s.eng.iD →
      finish (lanesOf s.lanes p) d = lanesOf s.lanes r) :
    (bufferBacked s.cfg s.eng.iD (activeLanes s) = true → ∃ t, composite kernel finish s = .next t) ∧
      ∀ t, composite kernel finish s = .next t → Composited s t r := by
  have key : ∀ u, loadDst s = .next u → andThen (kernelStage kernel finish u) storeResult =
      vwrite s.eng.iD (lanesOf s.lanes r) (u.setDp (kernelLeaves u.dp (lanesOf s.lanes p) (lanesOf s.lanes r))) := by
    intro u hu
    have q := loadDst_eq_next h hu
    have hVE : u.dp.VE = lanesOf s.lanes e := by rw [q.dp]; exact hE
    have hVD : u.dp.VD = spanRead s s.eng.iD := by rw [q.dp]
    rw [kernelStage_eq (P := lanesOf s.lanes p) (by rw [hVE, hVD]; exact hk), andThen_next, hf _ hVE hVD,
      storeResult]
    simp only [State.setDp_eng, q.framed.eng, State.setDp_dp, kernelLeaves]
  constructor
  · intro hb
    obtain ⟨u, hu⟩ := loadDst_answers h hb
    have q := loadDst_eq_next h hu
    unfold composite
    rw [hu, andThen_next, key u hu]
    have hsu : Spanned (u.setDp (kernelLeaves u.dp (lanesOf s.lanes p) (lanesOf s.lanes r))) :=
      h.of_framed (q.framed.trans (framed_setDp _ _)) (by simp only [State.setDp_dp, q.dp, kernelLeaves])
    have hw := vwrite_of_backed (f := r) (base := s.eng.iD) hsu (by
      rw [State.setDp_cfg, q.framed.cfg, activeLanes_framed (q.framed.trans (framed_setDp _ _))]; exact hb)
    rw [State.setDp_lanes, q.framed.lanes] at hw
    exact ⟨_, hw⟩
  · intro t ht
    unfold composite at ht
    obtain ⟨u, hu, ht⟩ := andThen_eq_next.mp ht
    have q := loadDst_eq_next h hu
    rw [key u hu] at ht
    have hfr := q.framed.trans (framed_setDp u (kernelLeaves u.dp (lanesOf s.lanes p) (lanesOf s.lanes r)))
    have hVE : u.dp.VE = lanesOf s.lanes e := by rw [q.dp]; exact hE
    have hVD : u.dp.VD = spanRead s s.eng.iD := by rw [q.dp]
    have hszd : s.dp.sized s.lanes → u.dp.sized s.lanes := fun hs => by
      rw [q.dp]; exact { hs with VD := length_lanesOf _ _ }
    generalize hv : u.setDp (kernelLeaves u.dp (lanesOf s.lanes p) (lanesOf s.lanes r)) = v at ht hfr
    have hdp : v.dp = (kernelLeaves u.dp (lanesOf s.lanes p) (lanesOf s.lanes r)) := by
      rw [← hv]; rfl
    have hvm : v.mem = s.mem := by rw [← hv, State.setDp_mem, q.mem]
    have hvp : v.memPort = s.memPort ++ [request s .read s.eng.iD (spanRead s s.eng.iD)] := by
      rw [← hv, State.setDp_memPort, q.port]
    have hsv : Spanned v := h.of_framed hfr (by rw [hdp, q.dp]; rfl)
    rw [← hfr.lanes] at ht
    obtain ⟨rfl, hb⟩ := vwrite_eq_next hsv ht
    refine ⟨hfr.trans ((framed_setMem _ _).trans (framed_addAccess _ _)), ?_, ?_, fun hs => ?_, q.backed,
      ⟨[request s .read s.eng.iD (spanRead s s.eng.iD), request s .write s.eng.iD (lanesOf s.lanes r)], ?_, ?_, ?_⟩⟩
    · simp only [State.addAccess_mem, State.setMem_mem, spanStore, hvm, hfr.lanes, activeLanes_framed hfr]
    · exact hsv.of_framed ((framed_setMem _ _).trans (framed_addAccess _ _)) rfl
    · simp only [State.addAccess_dp, State.setMem_dp, hdp]
      exact { hszd hs with
        VR := length_lanesOf _ _
        hVE := sized_widenV (by rw [hVE, length_lanesOf])
        hVD := sized_widenV (by rw [hVD]; exact length_lanesOf _ _)
        hVR := sized_widenV (length_lanesOf _ _) }
    · simp only [State.addAccess_memPort, State.setMem_memPort, hvp, request_congr hfr, hfr.lanes,
        List.append_assoc, List.singleton_append]
    · simp [request, MemAccess.request]
    · simp [request]

/-- The composite stages of a command, by its operator. -/
def compositeStage (i : Instr) (s : State) : Res State :=
  match i with
  | .opOver a | .opOverM a => compositeOver a s
  | .opOverrev a | .opOverrevM a => compositeOverrev a s
  | .opOutrev a | .opOutrevM a => compositeOutrev a s
  | .opAdd _ | .opAddM _ => compositeAdd s

theorem saddPixel_over (e d : Pixel) (a : Nat) : saddPixel e (outrevPixel e d a) = overPixel e d a :=
  perChannel_congr fun k hk => by rw [outrevPixel, ch_perChannel _ hk]

theorem saddPixel_overrev (e d : Pixel) (a : Nat) : saddPixel d (outrevPixel d e a) = overrevPixel e d a :=
  perChannel_congr fun k hk => by rw [outrevPixel, ch_perChannel _ hk]

/-- The composite stages store the per-pixel function of the operator in every active lane. -/
theorem compositeStage_eq {i : Instr} {s : State} {e : Nat → Pixel} (hi : i.wellFormed = true)
    (h : Spanned s) (hE : s.dp.VE = lanesOf s.lanes e) :
    (bufferBacked s.cfg s.eng.iD (activeLanes s) = true → ∃ t, compositeStage i s = .next t) ∧
      ∀ t, compositeStage i s = .next t →
        Composited s t fun j => opPixel i (e j) (laneRead s.mem s.eng.iD (activeLanes s) j) := by
  have ha : i.ach < 4 := by simpa [Instr.wellFormed] using hi
  have hl : (lanesOf s.lanes e).length = (spanRead s s.eng.iD).length := by simp [spanRead]
  have hover : ∀ a, a < 4 → (bufferBacked s.cfg s.eng.iD (activeLanes s) = true → ∃ t, compositeOver a s = .next t) ∧
      ∀ t, compositeOver a s = .next t →
        Composited s t fun j => overPixel (e j) (laneRead s.mem s.eng.iD (activeLanes s) j) a := fun a ha =>
    composite_eq h hE (by rw [kernelDst_widenV ha hl, spanRead, zipWith_lanesOf]) fun d hd _ => by
      rw [hd, saddV, zipWith_lanesOf]
      exact lanesOf_congr fun j _ => saddPixel_over _ _ _
  have hoverrev : ∀ a, a < 4 → (bufferBacked s.cfg s.eng.iD (activeLanes s) = true → ∃ t, compositeOverrev a s = .next t) ∧
      ∀ t, compositeOverrev a s = .next t →
        Composited s t fun j => overrevPixel (e j) (laneRead s.mem s.eng.iD (activeLanes s) j) a := fun a ha =>
    composite_eq h hE (by rw [kernelSrc_widenV ha hl, spanRead, zipWith_lanesOf]) fun d _ hd => by
      rw [hd, spanRead, saddV, zipWith_lanesOf]
      exact lanesOf_congr fun j _ => saddPixel_overrev _ _ _
  have houtrev : ∀ a, a < 4 → (bufferBacked s.cfg s.eng.iD (activeLanes s) = true → ∃ t, compositeOutrev a s = .next t) ∧
      ∀ t, compositeOutrev a s = .next t →
        Composited s t fun j => outrevPixel (e j) (laneRead s.mem s.eng.iD (activeLanes s) j) a := fun a ha =>
    composite_eq h hE (by rw [kernelDst_widenV ha hl, spanRead, zipWith_lanesOf]) fun d _ _ => rfl
  have hadd : ∀ a, (bufferBacked s.cfg s.eng.iD (activeLanes s) = true → ∃ t, compositeAdd s = .next t) ∧
      ∀ t, compositeAdd s = .next t →
        Composited s t fun j => addPixel (e j) (laneRead s.mem s.eng.iD (activeLanes s) j) a := fun a =>
    composite_eq h hE (p := e) rfl fun d _ hd => by
      rw [hd, spanRead, saddV, zipWith_lanesOf]
      rfl
  cases i with
  | opOver a => exact hover a ha
  | opOverM a => exact hover a ha
  | opOverrev a => exact hoverrev a ha
  | opOverrevM a => exact hoverrev a ha
  | opOutrev a => exact houtrev a ha
  | opOutrevM a => exact houtrev a ha
  | opAdd a => exact hadd a
  | opAddM a => exact hadd a

end Sys2Proof.Machine
end

