-- ==== Sys2Proof/Laws/Command.lean ====
section
/-! SUPPORT. A command's iteration and its meaning: what an iteration body leaves, and what exec answers. -/

namespace Sys2Proof.Machine

/-- The iteration body of a command (rules R125 to R132). -/
def bodyOf (i : Instr) (s : State) : Res State :=
  match i with
  | .opOver a => bodyOver a s
  | .opOverM a => bodyOverM a s
  | .opOverrev a => bodyOverrev a s
  | .opOverrevM a => bodyOverrevM a s
  | .opOutrev a => bodyOutrev a s
  | .opOutrevM a => bodyOutrevM a s
  | .opAdd _ => bodyAdd s
  | .opAddM a => bodyAddM a s

/-- Every command is driven through its iteration body. -/
theorem exec_eq_drive (i : Instr) (s : State) : exec i s = drive i (bodyOf i) s := by cases i <;> rfl

/-- What a command does once its effective source is known. -/
def tailStage (i : Instr) (s : State) : Res State :=
  match i with
  | .opOver a | .opOverM a => overFrom a s
  | .opOverrev a | .opOverrevM a => overrevFrom a s
  | .opOutrev a | .opOutrevM a => compositeOutrev a s
  | .opAdd _ | .opAddM _ => compositeAdd s

theorem bodyOf_eq (i : Instr) (s : State) : bodyOf i s = andThen (sourceStage i s) (tailStage i) := by
  cases i <;> rfl

/-! ### The shortcut tests -/

theorem isZero_effective {i : Instr} {s : State} :
    isZero (lanesOf s.lanes (laneEffective i s)) = zeroSpan i s := by
  rw [Bool.eq_iff_iff]
  unfold isZero
  rw [all_lanesOf]
  simp only [zeroSpan, List.all_eq_true, List.mem_range, beq_iff_eq, decide_eq_true_eq]
  constructor
  · intro h j hj
    rw [← laneEffective_active hj]
    exact h j (lt_of_lt_of_le hj (activeCount_le _ _))
  · intro h j _
    by_cases hj : j < activeLanes s
    · rw [laneEffective_active hj]; exact h j hj
    · exact laneEffective_inactive hj

theorem isOpaque_effective {i : Instr} {s : State} :
    isOpaque (lanesOf s.lanes (laneEffective i s)) i.ach = opaqueSpan i s := by
  have hle : activeLanes s ≤ s.lanes := activeCount_le _ _
  rw [Bool.eq_iff_iff]
  unfold isOpaque
  rw [all_lanesOf]
  simp only [opaqueSpan, Bool.and_eq_true, List.all_eq_true, List.mem_range, beq_iff_eq, decide_eq_true_eq]
  constructor
  · intro h
    have hk : activeLanes s = s.lanes := by
      by_contra hne
      have hlt : activeLanes s < s.lanes := by omega
      have h' := h (activeLanes s) hlt
      rw [laneEffective_inactive (lt_irrefl _)] at h'
      rw [ch_zero] at h'
      exact absurd h' (by decide)
    exact ⟨hk, fun j hj => by rw [← laneEffective_active hj]; exact h j (by omega)⟩
  · rintro ⟨hk, h⟩ j hj
    rw [← hk] at hj
    rw [laneEffective_active hj]; exact h j hj

/-! ### What an iteration body leaves -/

/-- What the body of a command leaves of the state before it. -/
structure Iterated (i : Instr) (s t : State) : Prop where
  framed  : Framed s t
  spanned : Spanned t
  sized   : s.dp.sized s.lanes → t.dp.sized s.lanes
  memWf   : Memory.wf s.mem = true → Memory.wf t.mem = true
  lanes   : Memory.wf s.mem = true → ∀ j, j < activeLanes s →
      readPixel t.mem (pixelAddr s.eng.iD j) = laneResult i s j
  outside : Memory.wf s.mem = true → sameOutside s.eng.iD (activeLanes s) s.mem t.mem
  port    : ∃ new : List MemAccess, t.memPort = s.memPort ++ new ∧
      new.map MemAccess.request = traffic i s ∧
      ∀ a ∈ new, a.laneEn = laneEnables (spanMask s.lanes s.eng.iN)

theorem readPixel_spanStore {s : State} (h : Memory.wf s.mem = true) (base : Addr) (f : Nat → Pixel) {j : Nat}
    (hj : j < activeLanes s) : readPixel (spanStore s base f) (pixelAddr base j) = f j := by
  have h1 := activeCount_le s.lanes s.eng.iN
  have h2 := count_le s.cfg.lanes
  unfold State.lanes at h1
  unfold activeLanes State.lanes at hj
  exact readPixel_storeLanes h (by unfold State.lanes; omega) (Nat.zero_le _)
    (by unfold State.lanes; omega) hj

theorem wf_spanStore {s : State} (h : Memory.wf s.mem = true) (base : Addr) (f : Nat → Pixel) :
    Memory.wf (spanStore s base f) = true := wf_storeLanes h

theorem sameOutside_spanStore {s : State} (h : Memory.wf s.mem = true) (base : Addr) (f : Nat → Pixel) :
    sameOutside base (activeLanes s) s.mem (spanStore s base f) :=
  ⟨powerOn_storeLanes, fun _ ha => byteAt_storeLanes_other h fun j _ _ hj => bufferHolds_eq_false.mp ha j hj⟩

theorem sameOutside_refl (base : Addr) (n : Nat) (m : Memory) : sameOutside base n m m := ⟨rfl, fun _ _ => rfl⟩

theorem laneResult_eq {i : Instr} {s : State} {j : Nat} :
    laneResult i s j = opPixel i (laneSource i s j) (readPixel s.mem (pixelAddr s.eng.iD j)) := rfl

/-- A tail that stores `f` in the active lanes. -/
theorem iterated_of_store {i : Instr} {s u t : State} {f : Nat → Pixel} (q : Sourced i s u) (hf : Framed u t)
    (hl : Spanned t) (hs : u.dp.sized s.lanes → t.dp.sized s.lanes)
    (hm : t.mem = spanStore u u.eng.iD f)
    (hr : ∀ j, j < activeLanes s → f j = laneResult i s j)
    (hp : ∃ new : List MemAccess, t.memPort = s.memPort ++ new ∧
      new.map MemAccess.request = traffic i s ∧
      ∀ a ∈ new, a.laneEn = laneEnables (spanMask s.lanes s.eng.iN)) : Iterated i s t := by
  have hm' : t.mem = spanStore s s.eng.iD f := by
    rw [hm]; unfold spanStore
    rw [activeLanes_framed q.framed, q.framed.lanes, q.mem, q.framed.eng]
  refine ⟨q.framed.trans hf, hl, fun h => hs (q.sized h), fun h => ?_, fun h j hj => ?_, fun h => ?_, hp⟩
  · rw [hm']; exact wf_spanStore h _ _
  · rw [hm', readPixel_spanStore h _ _ hj, hr j hj]
  · rw [hm']; exact sameOutside_spanStore h _ _

/-- A tail that stores nothing because the result is the destination. -/
theorem iterated_of_skip {i : Instr} {s u t : State} (q : Sourced i s u) (hf : Framed u t)
    (hl : Spanned t) (hs : u.dp.sized s.lanes → t.dp.sized s.lanes) (hm : t.mem = u.mem)
    (hr : ∀ j, j < activeLanes s → readPixel s.mem (pixelAddr s.eng.iD j) = laneResult i s j)
    (hp : ∃ new : List MemAccess, t.memPort = s.memPort ++ new ∧
      new.map MemAccess.request = traffic i s ∧
      ∀ a ∈ new, a.laneEn = laneEnables (spanMask s.lanes s.eng.iN)) : Iterated i s t := by
  refine ⟨q.framed.trans hf, hl, fun h => hs (q.sized h), fun h => ?_, fun _ j hj => ?_, fun _ => ?_, hp⟩
  · rw [hm, q.mem]; exact h
  · rw [hm, q.mem]; exact hr j hj
  · rw [hm, q.mem]; exact sameOutside_refl _ _ _

/-- The requests of a tail after the requests of the source stages. -/
theorem port_append {s u t : State} {xs ys : List (AccessKind × Addr)} {en : List Bool}
    (h : ∃ new : List MemAccess, u.memPort = s.memPort ++ new ∧ new.map MemAccess.request = xs ∧
      ∀ a ∈ new, a.laneEn = en)
    (h' : ∃ new : List MemAccess, t.memPort = u.memPort ++ new ∧ new.map MemAccess.request = ys ∧
      ∀ a ∈ new, a.laneEn = en) :
    ∃ new : List MemAccess, t.memPort = s.memPort ++ new ∧ new.map MemAccess.request = xs ++ ys ∧
      ∀ a ∈ new, a.laneEn = en := by
  obtain ⟨n1, h1, h2, h3⟩ := h
  obtain ⟨n2, h4, h5, h6⟩ := h'
  refine ⟨n1 ++ n2, by rw [h4, h1, List.append_assoc], by rw [List.map_append, h2, h5], fun a ha => ?_⟩
  rcases List.mem_append.mp ha with h | h
  · exact h3 a h
  · exact h6 a h

/-- The requests of a command, split after its source stages. -/
def tailTraffic (i : Instr) (s : State) : List (AccessKind × Addr) :=
  match i with
  | .opOver _ | .opOverM _ =>
    if zeroSpan i s then [] else if opaqueSpan i s then [(.write, s.eng.iD)]
    else [(.read, s.eng.iD), (.write, s.eng.iD)]
  | .opOverrev _ | .opOverrevM _ =>
    if zeroSpan i s then [] else [(.read, s.eng.iD), (.write, s.eng.iD)]
  | .opOutrev _ | .opOutrevM _ | .opAdd _ | .opAddM _ => [(.read, s.eng.iD), (.write, s.eng.iD)]

theorem traffic_eq (i : Instr) (s : State) :
    traffic i s = ((if i.masked then [(.read, s.eng.iM)] else []) ++
      (if i.masked && transparentSpan i s then [] else [(.read, s.eng.iS)])) ++ tailTraffic i s := by
  cases i <;> rfl

/-- The composite stages after the source stages. -/
theorem iterated_of_composite {i : Instr} {s u v t : State} (hi : i.wellFormed = true)
    (q : Sourced i s u) (hf : Framed u v) (hm : v.mem = u.mem) (hdp : v.dp.VE = u.dp.VE)
    (hlm : v.dp.LM = u.dp.LM) (hp : v.memPort = u.memPort)
    (hs : u.dp.sized s.lanes → v.dp.sized s.lanes)
    (htr : tailTraffic i s = [(.read, s.eng.iD), (.write, s.eng.iD)])
    (ht : compositeStage i v = .next t) : Iterated i s t := by
  have hfv := q.framed.trans hf
  have hsv : Spanned v := q.spanned.of_framed hf hlm
  have hVE : v.dp.VE = lanesOf v.lanes (laneEffective i s) := by rw [hdp, q.VE, hfv.lanes]
  have c := (compositeStage_eq hi hsv hVE).2 t ht
  refine ⟨hfv.trans c.framed, c.spanned, fun h => ?_, fun h => ?_, fun h j hj => ?_, fun h => ?_, ?_⟩
  · have := c.sized; rw [hfv.lanes] at this; exact this (hs (q.sized h))
  · rw [c.mem]; exact wf_spanStore (by rw [hm, q.mem]; exact h) _ _
  · have hj' : j < activeLanes v := by rw [activeLanes_framed hfv]; exact hj
    rw [c.mem, ← hfv.eng, readPixel_spanStore (by rw [hm, q.mem]; exact h) _ _ hj', laneResult_eq,
      laneEffective_active hj, laneRead, if_pos hj', hm, q.mem, hfv.eng]
  · rw [c.mem]
    have := sameOutside_spanStore (s := v) (by rw [hm, q.mem]; exact h) v.eng.iD
      (fun j => opPixel i (laneEffective i s j) (laneRead v.mem v.eng.iD (activeLanes v) j))
    rw [hm, q.mem, activeLanes_framed hfv, hfv.eng] at this
    rw [hm, q.mem, activeLanes_framed hfv, hfv.eng]
    exact this
  · rw [traffic_eq, htr]
    refine port_append q.port ?_
    have := c.port
    rw [hp, hfv.eng, hfv.lanes] at this
    exact this

/-- What an iteration body leaves. -/
theorem bodyOf_eq_next {i : Instr} {s t : State} (hi : i.wellFormed = true) (h : Spanned s)
    (ht : bodyOf i s = .next t) : Iterated i s t := by
  rw [bodyOf_eq] at ht
  obtain ⟨u, hu, ht⟩ := andThen_eq_next.mp ht
  have q := sourceStage_eq_next hi h hu
  have hzero : isZero u.dp.VE = zeroSpan i s := by rw [q.VE, isZero_effective]
  have hopaque : isOpaque u.dp.VE i.ach = opaqueSpan i s := by rw [q.VE, isOpaque_effective]
  have over_case : ∀ a, i.ach = a → (i = .opOver a ∨ i = .opOverM a) → overFrom a u = .next t → Iterated i s t := by
    intro a ha hia ht
    have hop : ∀ e d, opPixel i e d = overPixel e d a := by rcases hia with rfl | rfl <;> intros <;> rfl
    have htt : tailTraffic i s = if zeroSpan i s then [] else if opaqueSpan i s then [(.write, s.eng.iD)]
        else [(.read, s.eng.iD), (.write, s.eng.iD)] := by rcases hia with rfl | rfl <;> rfl
    unfold overFrom at ht
    simp only [State.setDp_dp, testOpaque, testZero, hzero] at ht
    split at ht
    · rename_i hz
      simp only [Host.Outcome.next.injEq] at ht
      subst ht
      refine iterated_of_skip q (framed_setDp _ _) (q.spanned.of_framed (framed_setDp _ _) rfl)
        (fun hs => { hs with }) rfl (fun j hj => ?_) ?_
      · simp only [zeroSpan, List.all_eq_true, List.mem_range, beq_iff_eq] at hz
        rw [laneResult_eq, hz j hj, hop, overPixel_zero]
      · have htt' : tailTraffic i s = [] := by rw [htt, if_pos hz]
        rw [traffic_eq, htt', List.append_nil]; exact q.port
    · rename_i hz
      rw [← ha] at ht
      simp only [hopaque] at ht
      split at ht
      · rename_i ho
        generalize hv : u.setDp _ = v at ht
        have hf : Framed u v := hv ▸ framed_setDp _ _
        have hsv : Spanned v := q.spanned.of_framed hf (by rw [← hv]; rfl)
        have hsz : u.dp.sized s.lanes → v.dp.sized s.lanes := fun hs => by rw [← hv]; exact { hs with }
        have hVE : v.dp.VE = lanesOf v.lanes (laneEffective i s) := by
          rw [hf.lanes, q.framed.lanes, ← q.VE, ← hv]; rfl
        have hvp : v.memPort = u.memPort := by rw [← hv]; rfl
        have hvm : v.mem = u.mem := by rw [← hv]; rfl
        unfold storeEffective at ht
        rw [hVE] at ht
        obtain ⟨rfl, _⟩ := vwrite_eq_next hsv ht
        have ho' := ho
        simp only [opaqueSpan, Bool.and_eq_true, List.all_eq_true, List.mem_range, beq_iff_eq] at ho
        refine iterated_of_store (f := laneEffective i s) q
          (hf.trans ((framed_setMem _ _).trans (framed_addAccess _ _)))
          (hsv.of_framed ((framed_setMem _ _).trans (framed_addAccess _ _)) rfl) hsz ?_ (fun j hj => ?_) ?_
        · simp only [State.addAccess_mem, State.setMem_mem, spanStore, hvm, hf.lanes, activeLanes_framed hf, hf.eng]
        · rw [laneEffective_active hj, laneResult_eq, hop, overPixel_opaque _ (by rw [← ha]; exact ho.2 j hj)]
        · have htt' : tailTraffic i s = [(.write, s.eng.iD)] := by rw [htt, if_neg hz, if_pos ho']
          rw [traffic_eq, htt']
          refine port_append q.port ⟨[request v .write v.eng.iD (lanesOf v.lanes (laneEffective i s))], ?_, ?_, ?_⟩
          · simp only [State.addAccess_memPort, State.setMem_memPort, hvp]
          · simp [request, MemAccess.request, hf.eng, q.framed.eng]
          · simp [request, hf.eng, q.framed.eng, hf.lanes, q.framed.lanes]
      · rename_i ho
        have ht' : compositeStage i (u.setDp { u.dp with fZ := zeroSpan i s, fO := opaqueSpan i s }) = .next t := by
          rcases hia with rfl | rfl <;> exact ht
        exact iterated_of_composite (v := u.setDp { u.dp with fZ := zeroSpan i s, fO := opaqueSpan i s }) hi q
          (framed_setDp _ _) rfl rfl rfl rfl (fun hs => { hs with })
          (by rw [htt, if_neg hz, if_neg ho]) ht'
  have overrev_case : ∀ a, (i = .opOverrev a ∨ i = .opOverrevM a) → overrevFrom a u = .next t → Iterated i s t := by
    intro a hia ht
    have hop : ∀ e d, opPixel i e d = overrevPixel e d a := by rcases hia with rfl | rfl <;> intros <;> rfl
    have htt : tailTraffic i s = if zeroSpan i s then []
        else [(.read, s.eng.iD), (.write, s.eng.iD)] := by rcases hia with rfl | rfl <;> rfl
    unfold overrevFrom at ht
    simp only [State.setDp_dp, testZero, hzero] at ht
    split at ht
    · rename_i hz
      simp only [Host.Outcome.next.injEq] at ht
      subst ht
      refine iterated_of_skip q (framed_setDp _ _) (q.spanned.of_framed (framed_setDp _ _) rfl)
        (fun hs => { hs with }) rfl (fun j hj => ?_) ?_
      · simp only [zeroSpan, List.all_eq_true, List.mem_range, beq_iff_eq] at hz
        rw [laneResult_eq, hz j hj, hop, overrevPixel_zero]
      · have htt' : tailTraffic i s = [] := by rw [htt, if_pos hz]
        rw [traffic_eq, htt', List.append_nil]; exact q.port
    · rename_i hz
      have ht' : compositeStage i (u.setDp { u.dp with fZ := zeroSpan i s }) = .next t := by
        rcases hia with rfl | rfl <;> exact ht
      exact iterated_of_composite (v := u.setDp { u.dp with fZ := zeroSpan i s }) hi q
        (framed_setDp _ _) rfl rfl rfl rfl (fun hs => { hs with }) (by rw [htt, if_neg hz]) ht'
  cases i with
  | opOver a => exact over_case a rfl (.inl rfl) ht
  | opOverM a => exact over_case a rfl (.inr rfl) ht
  | opOverrev a => exact overrev_case a (.inl rfl) ht
  | opOverrevM a => exact overrev_case a (.inr rfl) ht
  | opOutrev a => exact iterated_of_composite hi q (Framed.refl _) rfl rfl rfl rfl id rfl ht
  | opOutrevM a => exact iterated_of_composite hi q (Framed.refl _) rfl rfl rfl rfl id rfl ht
  | opAdd a => exact iterated_of_composite hi q (Framed.refl _) rfl rfl rfl rfl id rfl ht
  | opAddM a => exact iterated_of_composite hi q (Framed.refl _) rfl rfl rfl rfl id rfl ht

/-- An iteration body answers when the pixels it can access are backed. -/
theorem bodyOf_answers {i : Instr} {s : State} (hi : i.wellFormed = true) (h : Spanned s)
    (hb : iterationBacked i.masked s = true) : ∃ t, bodyOf i s = .next t := by
  simp only [iterationBacked, Bool.and_eq_true, Bool.or_eq_true, Bool.not_eq_true'] at hb
  obtain ⟨u, hu⟩ := sourceStage_answers hi h hb.1.2 fun hm => by
    rcases hb.2 with h' | h'
    · rw [hm] at h'; exact absurd h' (by decide)
    · exact h'
  have q := sourceStage_eq_next hi h hu
  have hd : ∀ v, Framed u v → bufferBacked v.cfg v.eng.iD (activeLanes v) = true := fun v hf => by
    rw [hf.cfg, hf.eng, activeLanes_framed hf, q.framed.cfg, q.framed.eng, activeLanes_framed q.framed]
    exact hb.1.1
  have comp : ∀ v, Framed u v → v.dp.LM = u.dp.LM → v.dp.VE = u.dp.VE → ∃ t, compositeStage i v = .next t :=
    fun v hf hl hE => (compositeStage_eq hi (q.spanned.of_framed hf hl)
      (e := laneEffective i s) (by rw [hE, q.VE, hf.lanes, q.framed.lanes])).1 (hd v hf)
  rw [bodyOf_eq, hu, andThen_next]
  have over_case : ∀ a, (i = .opOver a ∨ i = .opOverM a) → ∃ t, overFrom a u = .next t := by
    intro a hia
    unfold overFrom
    dsimp only
    by_cases hz : (u.setDp (testOpaque a (testZero u.dp))).dp.fZ = true
    · rw [if_pos hz]; exact ⟨_, rfl⟩
    · rw [if_neg hz]
      by_cases ho : (u.setDp (testOpaque a (testZero u.dp))).dp.fO = true
      · rw [if_pos ho]
        have hf := framed_setDp u (testOpaque a (testZero u.dp))
        have hVE : (u.setDp (testOpaque a (testZero u.dp))).dp.VE =
            lanesOf (u.setDp (testOpaque a (testZero u.dp))).lanes (laneEffective i s) := by
          rw [hf.lanes, q.framed.lanes, ← q.VE]; rfl
        unfold storeEffective
        rw [hVE, vwrite_of_backed (q.spanned.of_framed hf rfl) (hd _ hf)]
        exact ⟨_, rfl⟩
      · rw [if_neg ho]
        obtain ⟨t, ht⟩ := comp (u.setDp (testOpaque a (testZero u.dp))) (framed_setDp _ _) rfl rfl
        exact ⟨t, by rcases hia with rfl | rfl <;> exact ht⟩
  have overrev_case : ∀ a, (i = .opOverrev a ∨ i = .opOverrevM a) → ∃ t, overrevFrom a u = .next t := by
    intro a hia
    unfold overrevFrom
    dsimp only
    by_cases hz : (u.setDp (testZero u.dp)).dp.fZ = true
    · rw [if_pos hz]; exact ⟨_, rfl⟩
    · rw [if_neg hz]
      obtain ⟨t, ht⟩ := comp (u.setDp (testZero u.dp)) (framed_setDp _ _) rfl rfl
      exact ⟨t, by rcases hia with rfl | rfl <;> exact ht⟩
  cases i with
  | opOver a => exact over_case a (.inl rfl)
  | opOverM a => exact over_case a (.inr rfl)
  | opOverrev a => exact overrev_case a (.inl rfl)
  | opOverrevM a => exact overrev_case a (.inr rfl)
  | opOutrev a => exact comp u (Framed.refl _) rfl rfl
  | opOutrevM a => exact comp u (Framed.refl _) rfl rfl
  | opAdd a => exact comp u (Framed.refl _) rfl rfl
  | opAddM a => exact comp u (Framed.refl _) rfl rfl

/-! ### What exec answers -/

theorem exec_idle {i : Instr} {s : State} (h : s.regs.busy = false) : exec i s = accept i s := by
  rw [exec_eq_drive, drive, h]; rfl

theorem exec_complete {i : Instr} {s : State} (h : s.regs.busy = true) (hn : s.eng.iN = 0) :
    exec i s = .next (complete s) := by
  rw [exec_eq_drive, drive, if_pos h, if_pos hn]

theorem exec_running {i : Instr} {s : State} (h : s.regs.busy = true) (hn : s.eng.iN ≠ 0) :
    exec i s = iterate i.masked (bodyOf i) s := by
  rw [exec_eq_drive, drive, if_pos h, if_neg hn]

theorem spanned_spanStage (s : State) : Spanned (spanStage s) := rfl

/-- What an iteration of a command leaves of the state before it. -/
structure Advanced (i : Instr) (s t : State) : Prop where
  cfg       : t.cfg = s.cfg
  regs      : t.regs = s.regs
  eng       : t.eng = advance i.masked (activeLanes s) s.eng
  hostRdata : t.hostRdata = s.hostRdata
  hostByte  : t.hostByte = s.hostByte
  draws     : t.draws = s.draws
  inputs    : t.inputs = s.inputs
  sized     : s.dp.sized s.lanes → t.dp.sized s.lanes
  memWf     : Memory.wf s.mem = true → Memory.wf t.mem = true
  lanes     : Memory.wf s.mem = true → ∀ j, j < activeLanes s →
      readPixel t.mem (pixelAddr s.eng.iD j) = laneResult i s j
  outside   : Memory.wf s.mem = true → sameOutside s.eng.iD (activeLanes s) s.mem t.mem
  port      : ∃ new : List MemAccess, t.memPort = s.memPort ++ new ∧
      new.map MemAccess.request = traffic i s ∧
      ∀ a ∈ new, a.laneEn = laneEnables (spanMask s.lanes s.eng.iN)

/-- An iteration that answers leaves this. -/
theorem iterate_eq_next {i : Instr} {s t : State} (hi : i.wellFormed = true)
    (ht : iterate i.masked (bodyOf i) s = .next t) : Advanced i s t := by
  unfold iterate at ht
  obtain ⟨u, hu, ht⟩ := andThen_eq_next.mp ht
  have q := bodyOf_eq_next hi (spanned_spanStage s) hu
  simp only [Host.Outcome.next.injEq] at ht
  subst ht
  refine ⟨q.framed.cfg, q.framed.regs, ?_, q.framed.hostRdata, q.framed.hostByte, q.framed.draws,
    q.framed.inputs, fun h => q.sized ?_, q.memWf, q.lanes, q.outside, q.port⟩
  · simp only [State.setEng_eng, q.framed.eng]; rfl
  · exact { h with LM := length_spanMaskFrom _ _ _ }

/-- An iteration answers when the pixels it can access are backed. -/
theorem iterate_answers {i : Instr} {s : State} (hi : i.wellFormed = true)
    (hb : iterationBacked i.masked s = true) : ∃ t, iterate i.masked (bodyOf i) s = .next t := by
  obtain ⟨u, hu⟩ := bodyOf_answers hi (spanned_spanStage s) hb
  unfold iterate
  rw [hu]
  exact ⟨_, rfl⟩

/-! ### The running command -/

theorem running_wellFormed (s : State) : (running s).wellFormed = true := by
  have := s.eng.cACH.isLt
  unfold running ofFields Instr.wellFormed
  split_ifs <;> exact decide_eq_true this

theorem running_masked (s : State) : (running s).masked = s.eng.cM := by
  unfold running ofFields
  cases s.eng.cM <;> split_ifs <;> simp_all [Instr.masked]

theorem running_func (s : State) : (running s).func = s.eng.cFUNC := by
  have h := s.eng.cFUNC
  unfold running ofFields
  have : s.eng.cFUNC = 0#2 ∨ s.eng.cFUNC = 1#2 ∨ s.eng.cFUNC = 2#2 ∨ s.eng.cFUNC = 3#2 := by
    generalize s.eng.cFUNC = x
    revert x; decide
  rcases this with e | e | e | e <;> rw [e] <;> cases s.eng.cM <;> rfl

end Sys2Proof.Machine
end

