-- ==== Sys2Proof/Laws/PerInstr.lean ====
section
/-! SUPPORT. Statements for all commands, one lemma a constructor (LAWS.json names the families). -/

namespace Sys2Proof.Laws.EncodeMatch

/-- The word of a well-formed command has the command's match word outside ACH (rule R88). -/
def Statement (i : Instr) : Prop := i.wellFormed = true → encode i &&& 0xFFFFFF9F#32 = i.matchWord

/-- ACH touches no bit of the mask of rule R88. -/
theorem outside_ach {m : Word} {a : Nat} (ha : a < 4) (hm : m &&& 0xFFFFFF9F#32 = m) :
    (m ||| (BitVec.ofNat 32 a <<< 5)) &&& 0xFFFFFF9F#32 = m := by
  have h : ∀ a, a < 4 → (BitVec.ofNat 32 a <<< 5) &&& 0xFFFFFF9F#32 = 0#32 := by decide
  rw [BitVec.and_or_distrib_right, hm, h a ha, BitVec.or_zero]

theorem ach_lt {i : Instr} (h : i.wellFormed = true) : i.ach < 4 := by simpa [Instr.wellFormed] using h

theorem opOver (a : Nat) : Statement (.opOver a) := fun h =>
  outside_ach (m := 0x00000000) (ach_lt h) (by decide)
theorem opOverM (a : Nat) : Statement (.opOverM a) := fun h =>
  outside_ach (m := 0x00000010) (ach_lt h) (by decide)
theorem opOverrev (a : Nat) : Statement (.opOverrev a) := fun h =>
  outside_ach (m := 0x00000001) (ach_lt h) (by decide)
theorem opOverrevM (a : Nat) : Statement (.opOverrevM a) := fun h =>
  outside_ach (m := 0x00000011) (ach_lt h) (by decide)
theorem opOutrev (a : Nat) : Statement (.opOutrev a) := fun h =>
  outside_ach (m := 0x00000002) (ach_lt h) (by decide)
theorem opOutrevM (a : Nat) : Statement (.opOutrevM a) := fun h =>
  outside_ach (m := 0x00000012) (ach_lt h) (by decide)
theorem opAdd (a : Nat) : Statement (.opAdd a) := fun h =>
  outside_ach (m := 0x00000003) (ach_lt h) (by decide)
theorem opAddM (a : Nat) : Statement (.opAddM a) := fun h =>
  outside_ach (m := 0x00000013) (ach_lt h) (by decide)

end Sys2Proof.Laws.EncodeMatch
end

