-- ==== Sys2Proof/Laws/Step.lean ====
section
/-! SUPPORT. What a step is, turn by turn, and what each turn can leave. -/

namespace Sys2Proof.Machine

/-! ### Which turn a step takes -/

theorem step_of_cons {s : State} {e : HostEvent} {rest : List HostEvent} (h : s.inputs = e :: rest) :
    step s = handle exec e (s.takeTurn rest) := by
  unfold step turn; rw [h]

theorem step_of_nil {s : State} (h : s.inputs = []) : step s = engineTurn exec (s.takeTurn []) := by
  unfold step turn; rw [h]

/-! ### The register block on the bus -/

theorem busOffset_base_add (cfg : Params) (off : BitVec 8) :
    busOffset cfg (cfg.regBase + off.setWidth 32) = some off := by
  have e : cfg.regBase + off.setWidth 32 - cfg.regBase = off.setWidth 32 := by
    rw [BitVec.add_comm, BitVec.add_sub_cancel]
  have h := off.isLt
  unfold busOffset
  rw [e, if_pos (by simp only [BitVec.toNat_setWidth]; omega)]
  simp

theorem busOffset_base (cfg : Params) : busOffset cfg cfg.regBase = some 0 := by
  simpa using busOffset_base_add cfg 0

theorem busOffset_reg (cfg : Params) (r : RegName) :
    busOffset cfg (cfg.regBase + r.offset) = some (r.offset.setWidth 8) := by
  have e : r.offset = (r.offset.setWidth 8 : BitVec 8).setWidth 32 := by cases r <;> rfl
  rw [e, busOffset_base_add]
  simp

theorem regAt_offset (r : RegName) : regAt (r.offset.setWidth 8) = r := by cases r <;> decide

theorem aligned_offset (r : RegName) : definedAccess true (r.offset.setWidth 8) = true := by cases r <;> decide

theorem regAt_cmd {off : BitVec 8} : regAt off = .cmd ↔ off = 0 := by
  unfold regAt
  split_ifs <;> simp_all

theorem regAt_reserved {off : BitVec 8} (h : 0x1C ≤ off.toNat) : regAt off = .reserved := by
  unfold regAt
  split_ifs <;> first | rfl | (subst_vars; simp at h)

/-- A word presented to an idle block (rule R22). -/
theorem busWrite_command {run : Instr → State → Res State} {s : State} (w : Word) (h : s.regs.busy = false) :
    busWrite run ⟨s.cfg.regBase, true, w⟩ s = presentCommand run w s := by
  unfold busWrite
  simp only [busOffset_base, h, Bool.false_eq_true, if_false]
  rfl

theorem busWrite_busy {run : Instr → State → Res State} {s : State} (w : RegWrite) (h : s.regs.busy = true) :
    busWrite run w s = .next s := by
  unfold busWrite
  split
  · rfl
  · rw [if_pos h]

/-! ### What the turns can leave -/

/-- A register write that answers: it left the state alone, wrote an operand register, raised IllegalCommand, or
ran the command of a legal word. -/
theorem busWrite_cases {run : Instr → State → Res State} {w : RegWrite} {s t : State}
    (h : busWrite run w s = .next t) :
    t = s ∨ s.regs.busy = false ∧ w.size4 = true ∧
      ((∃ r, t = writeRegister r w.data s) ∨
       w.busAddr = s.cfg.regBase ∧
        ((∃ e, decode w.data = .error e ∧ t = raiseIllegalCommand s) ∨
         ∃ i, decode w.data = .ok i ∧ run i s = .next t)) := by
  unfold busWrite at h
  split at h
  · simp only [Host.Outcome.next.injEq] at h; exact .inl h.symm
  · rename_i off ho
    split at h
    · simp only [Host.Outcome.next.injEq] at h; exact .inl h.symm
    · rename_i hb
      split at h
      · rename_i hd
        refine .inr ⟨by simpa using hb, by simp [definedAccess] at hd; exact hd.1, ?_⟩
        split at h
        · rename_i hr
          refine .inr ⟨?_, ?_⟩
          · have e := regAt_cmd.mp hr
            subst e
            unfold busOffset at ho
            split at ho
            · rename_i hl
              simp only [Option.some.injEq] at ho
              have h0 := congrArg BitVec.toNat ho
              rw [BitVec.toNat_setWidth, Nat.mod_eq_of_lt hl] at h0
              have : w.busAddr - s.cfg.regBase = 0 := by
                exact BitVec.eq_of_toNat_eq (by simpa using h0)
              exact BitVec.sub_eq_iff_eq_add.mp this |>.trans (by simp)
            · cases ho
          · unfold presentCommand at h
            split at h
            · exact .inr ⟨_, ‹_›, h⟩
            · simp only [Host.Outcome.next.injEq] at h
              exact .inl ⟨_, ‹_›, h.symm⟩
        · simp only [Host.Outcome.next.injEq] at h
          exact .inl ⟨_, h.symm⟩
      · simp only [Host.Outcome.next.injEq] at h; exact .inl h.symm

/-- What exec does: acceptance, completion, or an iteration. -/
theorem exec_cases {i : Instr} {s t : State} (hi : i.wellFormed = true) (h : exec i s = .next t) :
    (s.regs.busy = false ∧ contractViolation i.masked s.cfg s.regs = none ∧ t = accepted i s) ∨
    (s.regs.busy = true ∧ s.eng.iN = 0 ∧ t = complete s) ∨
    (s.regs.busy = true ∧ s.eng.iN ≠ 0 ∧ Advanced i s t) := by
  cases hb : s.regs.busy
  · rw [exec_idle hb] at h
    unfold accept at h
    split at h
    · cases h
    · simp only [Host.Outcome.next.injEq] at h
      exact .inl ⟨rfl, ‹_›, h.symm⟩
  · by_cases hn : s.eng.iN = 0
    · rw [exec_complete hb hn] at h
      simp only [Host.Outcome.next.injEq] at h
      exact .inr (.inl ⟨rfl, hn, h.symm⟩)
    · rw [exec_running hb hn] at h
      exact .inr (.inr ⟨rfl, hn, iterate_eq_next hi h⟩)

theorem busRead_cases (a : Addr) (size4 : Bool) (s : State) :
    busRead a size4 s = s ∨ ∃ v, busRead a size4 s = s.setRdata v := by
  unfold busRead
  split
  · exact .inl rfl
  · exact .inr ⟨_, rfl⟩

theorem agentWrite_eq_next {a : Addr} {b : Byte} {s t : State} (h : agentWrite a b s = .next t) :
    t = s.setMem (setByte s.mem a b) ∧ inUsedRange s a = false := by
  unfold agentWrite at h
  split at h
  · cases h
  · rename_i hu
    obtain ⟨_, _, h⟩ := andThen_eq_next.mp h
    simp only [Host.Outcome.next.injEq] at h
    exact ⟨h.symm, by simpa using hu⟩

theorem agentRead_eq_next {a : Addr} {s t : State} (h : agentRead a s = .next t) :
    (∃ b, t = s.setHostByte b) ∨ ∃ b, t = (s.setHostByte b).countDraw := by
  unfold agentRead at h
  split at h
  · simp only [Host.Outcome.next.injEq] at h
    exact .inr ⟨_, h.symm⟩
  · obtain ⟨_, _, h⟩ := andThen_eq_next.mp h
    simp only [Host.Outcome.next.injEq] at h
    exact .inl ⟨_, h.symm⟩

/-- A reset turn always has a next state. -/
theorem step_of_reset {s : State} {w : Option RegWrite} {rest : List HostEvent}
    (h : s.inputs = .reset w :: rest) : step s = .next (resetTurn (s.takeTurn rest)) := step_of_cons h

/-! ### The memory a reset leaves -/

theorem wf_choose {m : Memory} (c : Bool) (a : Addr) (p : Pixel) (h : Memory.wf m = true) :
    Memory.wf (if c then writePixel m a p else m) = true := by
  split
  · exact wf_writePixel _ _ h
  · exact h

@[simp] theorem powerOn_drawPixels (choose : Nat → Bool) (new : Nat → Pixel) (base : Addr) :
    ∀ (k i : Nat) (m : Memory), (drawPixels choose new base i k m).powerOn = m.powerOn
  | 0, _, _ => rfl
  | k + 1, i, m => by
    rw [drawPixels, powerOn_drawPixels choose new base k]
    split <;> rfl

theorem wf_drawPixels (choose : Nat → Bool) (new : Nat → Pixel) (base : Addr) :
    ∀ (k i : Nat) (m : Memory), Memory.wf m = true → Memory.wf (drawPixels choose new base i k m) = true
  | 0, _, _, h => h
  | k + 1, i, _, h => wf_drawPixels choose new base k (i + 1) _ (wf_choose _ _ _ h)

/-- A byte of no drawn pixel keeps its value. -/
theorem byteAt_drawPixels_other (choose : Nat → Bool) (new : Nat → Pixel) (base : Addr) (c : Addr) :
    ∀ (k i : Nat) (m : Memory), Memory.wf m = true →
      (∀ l, i ≤ l → l < i + k → ¬ ofPixel (pixelAddr base l) c) →
      byteAt (drawPixels choose new base i k m) c = byteAt m c
  | 0, _, _, _, _ => rfl
  | k + 1, i, m, h, hc => by
    unfold drawPixels
    rw [byteAt_drawPixels_other choose new base c k (i + 1) _ (wf_choose _ _ _ h)
      fun l h1 h2 => hc l (by omega) (by omega)]
    split
    · exact byteAt_writePixel_other h _ (hc i (by omega) (by omega))
    · rfl

/-- A drawn pixel holds its new value or keeps its old one. -/
theorem readPixel_drawPixels (choose : Nat → Bool) (new : Nat → Pixel) (base : Addr) {l : Nat} :
    ∀ (k i : Nat) (m : Memory), Memory.wf m = true → i + k ≤ 2 ^ 30 → i ≤ l → l < i + k →
      readPixel (drawPixels choose new base i k m) (pixelAddr base l) =
        if choose l then new l else readPixel m (pixelAddr base l)
  | 0, i, m, _, _, h1, h2 => by omega
  | k + 1, i, m, h, hk, h1, h2 => by
    unfold drawPixels
    have hw := wf_choose (choose i) (pixelAddr base i) (new i) h
    have other : ∀ p q, p < 2 ^ 30 → q < 2 ^ 30 → p ≠ q → ∀ c, ofPixel (pixelAddr base p) c →
        ¬ ofPixel (pixelAddr base q) c := fun p q hp hq hne c hc hc' => hne (ofPixel_unique hp hq hc hc')
    rcases Nat.eq_or_lt_of_le h1 with rfl | hlt
    · rw [readPixel_congr fun c hc => byteAt_drawPixels_other choose new base c k (i + 1) _ hw
        fun q h3 h4 => other i q (by omega) (by omega) (by omega) c hc]
      split
      · exact readPixel_writePixel_same h _ _
      · rfl
    · rw [readPixel_drawPixels choose new base k (i + 1) _ hw (by omega) (by omega) (by omega)]
      split
      · rfl
      · split
        · exact readPixel_congr fun c hc => byteAt_writePixel_other h _
            (other l i (by omega) (by omega) (by omega) c hc)
        · rfl

/-- Every request of an iteration is at one of the command's buffers. -/
theorem base_of_mem_traffic {i : Instr} {s : State} {q : AccessKind × Addr} (h : q ∈ traffic i s) :
    q.2 = s.eng.iD ∨ q.2 = s.eng.iS ∨ (i.masked = true ∧ q.2 = s.eng.iM) := by
  unfold traffic at h
  rcases List.mem_append.mp h with h | h
  · rcases List.mem_append.mp h with h | h <;> split at h
    · exact .inr (.inr ⟨‹_›, by rw [List.mem_singleton.mp h]⟩)
    · cases h
    · cases h
    · exact .inr (.inl (by rw [List.mem_singleton.mp h]))
  · have both : q ∈ [(AccessKind.read, s.eng.iD), (.write, s.eng.iD)] → q.2 = s.eng.iD := by
      intro h
      rcases List.mem_cons.mp h with h | h
      · rw [h]
      · rw [List.mem_singleton.mp h]
    refine .inl ?_
    split at h
    iterate 2
      split_ifs at h
      · cases h
      · rw [List.mem_singleton.mp h]
      · exact both h
    iterate 2
      split_ifs at h
      · cases h
      · exact both h
    all_goals exact both h

theorem readsBacked_of_iterationBacked {i : Instr} {s : State} (h : iterationBacked i.masked s = true) :
    readsBacked i s = true := by
  unfold iterationBacked at h
  simp only [Bool.and_eq_true, Bool.or_eq_true, Bool.not_eq_true'] at h
  refine List.all_eq_true.mpr fun q hq => ?_
  have hb : bufferBacked s.cfg q.2 (activeLanes s) = true := by
    rcases base_of_mem_traffic hq with e | e | ⟨hm, e⟩ <;> rw [e]
    · exact h.1.1
    · exact h.1.2
    · exact h.2.resolve_left (by simp [hm])
  rw [hb, Bool.or_true]

/-- With no iteration under way, or one whose reads have no step, reset leaves memory alone. -/
theorem memoryAtReset_same {s : State}
    (h : s.regs.busy = false ∨ s.eng.iN = 0 ∨ readsBacked (running s) s = false) : memoryAtReset s = s.mem := by
  unfold memoryAtReset
  refine if_neg ?_
  rcases h with h | h | h <;> simp [h]

/-- With an iteration under way whose reads are backed, reset draws its pixels. -/
theorem memoryAtReset_draw {s : State} (hb : s.regs.busy = true) (hn : s.eng.iN ≠ 0)
    (hr : readsBacked (running s) s = true) : memoryAtReset s =
      drawPixels (resetChoice s) (laneResult (running s) s) s.eng.iD 0 (activeLanes s) s.mem := by
  unfold memoryAtReset
  exact if_pos (by simp only [hb, hr, decide_eq_true hn, Bool.and_self])

theorem wf_memoryAtReset {s : State} (h : Memory.wf s.mem = true) : Memory.wf (memoryAtReset s) = true := by
  unfold memoryAtReset
  split
  · exact wf_drawPixels _ _ _ _ _ _ h
  · exact h

end Sys2Proof.Machine
end

