-- ==== Sys2Proof/Tests/Slice0.lean ====
section
/-! SUPPORT. Tests. Expected words and pixels are those of spec/30_encoding.md rule R88 and of
spec/95_test_vectors.md, or calculated by hand from the rules; and a witness for every statement of
Certificates/Slice0/Obligations.lean that has hypotheses. -/

namespace Sys2Proof.Tests

open Sys2Proof Sys2Proof.Machine

/-! ### WellFormed: an ill-formed term for each check -/

theorem test_ach_four_refused : (Instr.opOver 4).wellFormed = false := by decide
theorem test_ach_four_refused_masked : (Instr.opAddM 4).wellFormed = false := by decide
theorem test_ach_three_accepted : (Instr.opOutrevM 3).wellFormed = true := by decide

/-! ### Decoding: one word a constructor, bits written from rule R81 ([31:7] zero, ACH, M, FUNC) -/

theorem test_decode_over : decode 0b0000000000000000000000000_11_0_0000#32 = .ok (.opOver 3) := by decide
theorem test_decode_over_m : decode 0b0000000000000000000000000_11_1_0000#32 = .ok (.opOverM 3) := by decide
theorem test_decode_overrev : decode 0b0000000000000000000000000_11_0_0001#32 = .ok (.opOverrev 3) := by decide
theorem test_decode_overrev_m : decode 0b0000000000000000000000000_10_1_0001#32 = .ok (.opOverrevM 2) := by decide
theorem test_decode_outrev : decode 0b0000000000000000000000000_01_0_0010#32 = .ok (.opOutrev 1) := by decide
theorem test_decode_outrev_m : decode 0b0000000000000000000000000_11_1_0010#32 = .ok (.opOutrevM 3) := by decide
theorem test_decode_add : decode 0b0000000000000000000000000_00_0_0011#32 = .ok (.opAdd 0) := by decide
theorem test_decode_add_m : decode 0b0000000000000000000000000_00_1_0011#32 = .ok (.opAddM 0) := by decide
theorem test_decode_func_4 : decode 0x00000004 = .error .reservedFunc := by decide
theorem test_decode_func_15 : decode 0x0000000F = .error .reservedFunc := by decide
theorem test_decode_bit_7 : decode 0x00000080 = .error .reservedBits := by decide
theorem test_decode_bit_31 : decode 0x80000060 = .error .reservedBits := by decide
theorem test_encode_over_m : encode (.opOverM 3) = 0x00000070 := by decide
theorem test_encode_outrev : encode (.opOutrev 3) = 0x00000062 := by decide
theorem test_table_word : decodeTableWord 32 0x73 = some (.opAddM 3) := by decide

/-! ### The primitives (spec/95_test_vectors.md sections 2.1 to 2.3, 2.5, 2.6) -/

theorem test_mul8 : mul8 128 128 = 64 ∧ mul8 1 127 = 0 ∧ mul8 1 128 = 1 ∧ mul8 254 254 = 253 := by decide
theorem test_mul16 : mul16 0x00FF 0x007F = some 0x007F ∧ mul16 0x0100 0x0001 = none := by decide
theorem test_narrow : narrow 0x0100 0x00FF 0x0000 0x01FE = 0xFF00FFFF := by decide
theorem test_widen : widen 0x80FF0012 = [0x0012, 0x0000, 0x00FF, 0x0080] := by decide
theorem test_bcast_rev : bcastARev Params.default 0x80FF0012 = 0x12121212 := by decide
theorem test_maskc : maskc 0x12345678 0x7F000000 3 = 0x091A2B3C ∧ maskc 0xFFFFFFFF 0x000000FE 0 = 0xFEFEFEFE := by
  decide
theorem test_span_mask : spanMask 8 3 = List.replicate 3 0xFFFFFFFF ++ List.replicate 5 0 := by decide
theorem test_predicates_on_a_tail :
    isOpaque (List.replicate 3 0xFFFFFFFF ++ List.replicate 5 0) 3 = false ∧
    isTransparentMask (List.replicate 3 0x00FF00FF ++ List.replicate 5 0) 3 = true := by decide
theorem test_kernels_ach_0 : overPixel 0x808080FF 0x11223344 0 = 0x808080FF ∧
    overrevPixel 0x808080FF 0x11223344 0 = 0x6F8091FF ∧ addPixel 0x808080FF 0x11223344 0 = 0x91A2B3FF := by decide

/-! ### Commands: states of a running command at DST 0x2000, SRC 0x1000, MSK 0x3000 -/

/-- Memory that held zeros after power-on and to which nothing has written. -/
def blank : Memory := ⟨[], []⟩

/-- A byte that nothing has written reads what memory held after power-on, and writing that byte lists nothing. -/
theorem test_power_on : byteAt ⟨[(5, 7)], []⟩ 5 = 7 ∧ setByte ⟨[(5, 7)], [(5, 1), (6, 2)]⟩ 5 7 = ⟨[(5, 7)], [(6, 2)]⟩ ∧
    setByte ⟨[(5, 7)], []⟩ 5 0 = ⟨[(5, 7)], [(5, 0)]⟩ := by decide

/-- Registers programmed for a command of n pixels, with this memory and these turns to come. -/
def programmed (n : Word) (m : Memory) (es : List HostEvent) : State :=
  { State.reset with
    regs := { HostRegs.reset with dst := 0x2000, src := 0x1000, msk := 0x3000, count := n }
    mem := m
    inputs := es }

/-- The CMD write of a word at REG_BASE 0. -/
def cmdWrite (w : Word) : HostEvent := .regWrite ⟨0, true, w⟩

/-- The command accepted, no turn waiting. -/
def midway (i : Instr) (n : Word) (m : Memory) : State := accepted i (programmed n m [])

/-- Pixels stored from an address on. -/
def pixels : Addr → List Pixel → Memory → Memory
  | _, [], m => m
  | a, p :: ps, m => pixels (a + 4) ps (writePixel m a p)

/-- One source, mask and destination pixel, and a sentinel after the destination. -/
def single (s m d : Pixel) : Memory :=
  pixels 0x1000 [s] (pixels 0x3000 [m] (pixels 0x2000 [d, 0xDEADBEEF] blank))

/-- The destination pixel and the sentinel after the command's next step. -/
def leaves (i : Instr) (s : State) (d : Pixel) : Bool :=
  answers (exec i s) fun t => readPixel t.mem 0x2000 == d && readPixel t.mem 0x2004 == readPixel s.mem 0x2004

theorem test_over_scenario : leaves (.opOver 3) (midway (.opOver 3) 1 (single 0x80800000 0 0xFF00FF00)) 0xFF807F00 := by
  decide
theorem test_over_m : leaves (.opOverM 3) (midway (.opOverM 3) 1 (single 0x80402010 0x80000000 0x40302010)) 0x70442814 := by
  decide
theorem test_overrev : leaves (.opOverrev 3) (midway (.opOverrev 3) 1 (single 0x80402010 0 0x40302010)) 0xA060381C := by
  decide
theorem test_overrev_m :
    leaves (.opOverrevM 3) (midway (.opOverrevM 3) 1 (single 0x80402010 0x80000000 0x40302010)) 0x70482C16 := by decide
theorem test_outrev : leaves (.opOutrev 3) (midway (.opOutrev 3) 1 (single 0x80402010 0 0x40302010)) 0x20181008 := by
  decide
theorem test_outrev_m :
    leaves (.opOutrevM 3) (midway (.opOutrevM 3) 1 (single 0x80402010 0x80000000 0x40302010)) 0x3024180C := by decide
theorem test_add : leaves (.opAdd 3) (midway (.opAdd 3) 1 (single 0xC8000000 0 0x64000000)) 0xFF000000 := by decide
theorem test_add_m :
    leaves (.opAddM 3) (midway (.opAddM 3) 1 (single 0x80402010 0x80000000 0x40302010)) 0x80503018 := by decide

/-- The requests of the command's next step. -/
def requests (i : Instr) (s : State) (r : List (AccessKind × Addr)) : Bool :=
  answers (exec i s) fun t => t.memPort.map MemAccess.request == r

/-- Program P1: a tail takes the full path. -/
theorem test_over_tail : requests (.opOver 3)
    (midway (.opOver 3) 3 (pixels 0x1000 [0x80800000, 0x00000000, 0xFF123456] blank))
    [(.read, 0x1000), (.read, 0x2000), (.write, 0x2000)] := by decide
/-- Program P3: an opaque source is copied without reading the destination. -/
theorem test_over_m_opaque : requests (.opOverM 3)
    (midway (.opOverM 3) 8 (pixels 0x1000 (List.replicate 8 0xFF101010) (pixels 0x3000 (List.replicate 8 0xFF00FF00) blank)))
    [(.read, 0x3000), (.read, 0x1000), (.write, 0x2000)] := by decide
/-- Program P4: a zero source touches no destination. -/
theorem test_overrev_zero : requests (.opOverrev 3) (midway (.opOverrev 3) 9 blank) [(.read, 0x1000)] := by decide
theorem test_overrev_m_transparent :
    requests (.opOverrevM 3) (midway (.opOverrevM 3) 9 (pixels 0x1000 [0xFFFFFFFF] blank)) [(.read, 0x3000)] := by decide
/-- Program P3: exact aliasing, each pixel from its own start value. -/
theorem test_outrev_alias : leaves (.opOutrev 3)
    (accepted (.opOutrev 3)
      { programmed 1 (pixels 0x2000 [0x80402010, 0x5A5A5A5A] blank) [] with
        regs := { HostRegs.reset with dst := 0x2000, src := 0x2000, count := 1 } }) 0x40201008 := by decide
/-- Program P2, iteration 1: a transparent mask skips the source read only. -/
theorem test_add_m_transparent : requests (.opAddM 3)
    (midway (.opAddM 3) 2 (pixels 0x3000 [0x00FFFFFF, 0x00000000] blank))
    [(.read, 0x3000), (.read, 0x2000), (.write, 0x2000)] := by decide

/-! ### Host accesses and errors (spec/95_test_vectors.md section 2.9) -/

theorem test_illegal_command : answers (step (programmed 5 blank [cmdWrite 0x00000004]))
    (fun t => t.regs.err && !t.regs.busy && t.regs.cmd == 0) := by decide
theorem test_command_clears_err : answers
    (step { programmed 5 blank [cmdWrite 0x63] with
      regs := { HostRegs.reset with err := true, dst := 0x2000, src := 0x1000, count := 5 } })
    (fun t => !t.regs.err && t.regs.busy && t.regs.cmd == 0x63) := by decide
theorem test_busy_ignores_writes : answers
    (step { midway (.opOver 3) 5 blank with inputs := [.regWrite ⟨0x14, true, 7⟩] })
    (fun t => t.regs.count == 5 && t.regs.busy) := by decide
theorem test_fetch_word : answers (step (State.reset.withFetchWord 32 0x60))
    (fun t => t.regs.cmd == 0x60 && !t.regs.busy && !t.regs.err) := by decide

/-! ### The assembler (rules R91, R92) -/

theorem test_assemble : assemble "WR DST, 0x2000 ; a comment\n over.m ach=1\nWAIT".toList =
    some [.wr .dst 0x2000, .command (.opOverM 1), .wait] := by decide
theorem test_assemble_pseudo : assemble "Add 0x2000, 4096, 3".toList = some (pseudo (.opAdd 3) 0x2000 0x1000 3) := by
  decide
theorem test_assemble_ach_4 : assemble "OVER ach=4".toList = none ∧ assemble "OVER ach=0x4".toList = none := by decide
/-- Rule R91: a number is decimal, or hexadecimal with a 0x prefix, also after `ach=`. -/
theorem test_assemble_ach_hex : assemble "OVER ach=0x3\nAdd.m 1, 2, 3, 4 ach=0X02".toList =
    some (.command (.opOver 3) :: pseudoM (.opAddM 2) 1 2 3 4) := by decide

/-! ### Witnesses: states and operands that meet the hypotheses of the statements -/

theorem next_of_answers {α : Type} {o : Res α} {p : α → Bool} (h : answers o p = true) :
    ∃ t, o = .next t ∧ p t = true := by
  cases o <;> simp_all [answers]

theorem some_next {α : Type} {o : Res α} (h : answers o (fun _ => true) = true) : ∃ t, o = .next t :=
  (next_of_answers h).imp fun _ h => h.1

theorem witness_EncodedCommandDecodesToItself : (Instr.opOver 0).wellFormed = true ∧ (Instr.opAddM 3).wellFormed = true := by
  decide
theorem witness_DecodedWordIsItsEncoding : decode 0x00000073 = .ok (.opAddM 3) := by decide

theorem presented : presents (programmed 3 blank [cmdWrite 0x60]) 0x60 [] := ⟨rfl, rfl⟩
theorem witness_CommandWriteRunsTheDecodedCommand :
    presents (programmed 3 blank [cmdWrite 0x60]) 0x60 [] ∧ decode 0x60 = .ok (.opOver 3) := ⟨presented, by decide⟩
theorem witness_EngineTurnRunsTheLatchedCommand :
    (programmed 3 blank [.engine]).inputs = .engine :: [] ∧ (programmed 3 blank [.engine]).regs.busy = false ∧
    (midway (.opOver 3) 3 blank).inputs = [] ∧ (midway (.opOver 3) 3 blank).regs.busy = true := by decide
theorem witness_IllegalCommandSetsErrOnly :
    presents (programmed 3 blank [cmdWrite 0x80]) 0x80 [] ∧ legal 0x80 = false := ⟨⟨rfl, rfl⟩, by decide⟩
theorem witness_BusyBlockIgnoresRegisterWrites :
    (midway (.opOver 3) 3 blank).regs.busy = true ∧
    { midway (.opOver 3) 3 blank with inputs := [cmdWrite 4] }.inputs = .regWrite ⟨0, true, 4⟩ :: [] ∧
    { midway (.opOver 3) 3 blank with inputs := [.regRead 4 true] }.inputs = .regRead 4 true :: [] := by decide
theorem witness_RegisterReadsGiveTheirValues (r : RegName) :
    (programmed 3 blank [.regRead (State.reset.cfg.regBase + r.offset) true]).inputs =
      .regRead ((programmed 3 blank []).cfg.regBase + r.offset) true :: [] := rfl
theorem witness_RegisterWritesWhileIdle (r : RegName) (v : Word) :
    (programmed 3 blank [.regWrite ⟨State.reset.cfg.regBase + r.offset, true, v⟩]).inputs =
      .regWrite ⟨(programmed 3 blank []).cfg.regBase + r.offset, true, v⟩ :: [] ∧
    (programmed 3 blank [.regWrite ⟨State.reset.cfg.regBase + r.offset, true, v⟩]).regs.busy = false := ⟨rfl, rfl⟩
theorem witness_ReservedOffsetsReadZero :
    0x1C ≤ (0x1C : BitVec 8).toNat ∧ 0x1C ≤ (0xFC : BitVec 8).toNat ∧
    (programmed 3 blank [.regRead 0x1C true]).inputs =
      .regRead (State.reset.cfg.regBase + (0x1C : BitVec 8).setWidth 32) true :: [] ∧
    (programmed 3 blank [.regWrite ⟨0xFC, true, 1⟩]).inputs =
      .regWrite ⟨State.reset.cfg.regBase + (0xFC : BitVec 8).setWidth 32, true, 1⟩ :: [] := by decide
theorem witness_NarrowOrMisalignedAccesses :
    ((false = false ∨ (0x08 : BitVec 8).toNat % 4 ≠ 0) ∧ (true = false ∨ (0x09 : BitVec 8).toNat % 4 ≠ 0)) ∧
    (programmed 3 blank [.regRead 0x09 true]).inputs =
      .regRead (State.reset.cfg.regBase + (0x09 : BitVec 8).setWidth 32) true :: [] ∧
    (programmed 3 blank [.regWrite ⟨0x08, false, 1⟩]).inputs =
      .regWrite ⟨State.reset.cfg.regBase + (0x08 : BitVec 8).setWidth 32, false, 1⟩ :: [] := by decide
theorem witness_WaitPollsUntilIdle :
    (programmed 3 blank [.wait]).inputs = .wait :: [] ∧ (programmed 3 blank [.wait]).regs.busy = false ∧
    { midway (.opOver 3) 3 blank with inputs := [.wait] }.inputs = .wait :: [] ∧
    { midway (.opOver 3) 3 blank with inputs := [.wait] }.regs.busy = true := by decide

theorem witness_AcceptanceLatchesTheCommand :
    presents (programmed 3 blank [cmdWrite 0x70]) 0x70 [] ∧ decode 0x70 = .ok (.opOverM 3) ∧
    contractViolation (Instr.opOverM 3).masked Params.default (programmed 3 blank []).regs = none :=
  ⟨⟨rfl, rfl⟩, by decide, by decide⟩
theorem witness_ZeroCountTouchesNoMemory :
    presents (programmed 0 blank [cmdWrite 0x61]) 0x61 [] ∧ decode 0x61 = .ok (.opOverrev 3) ∧
    (programmed 0 blank [cmdWrite 0x61]).regs.count = 0 := ⟨⟨rfl, rfl⟩, by decide, rfl⟩

/-- Registers with these buffers and count. -/
def withBuffers (d s : Addr) (n : Word) : State :=
  { State.reset with regs := { HostRegs.reset with dst := d, src := s, count := n } }

/-- A platform with one device byte at 0x1008. -/
def withDevice (s : State) : State :=
  { s with cfg := { s.cfg with memMap := [⟨0, 2 ^ 32, .plain⟩, ⟨0x1008, 1, .sideEffecting⟩] } }

/-- Each clause of the refusals at a boundary: a range that ends one pixel past 2^32 wraps and one that ends at 2^32
does not; buffers that share one pixel overlap, buffers that touch do not, and equal buffers are accepted. -/
theorem witness_ContractBreakingCommandsAreRefused :
    (withBuffers 0xFFFFFFFC 0 2).regs.busy = false ∧ (withBuffers 0xFFFFFFFC 0 2).regs.count ≠ 0 ∧
    2 ^ 32 < (0xFFFFFFFC : Addr).toNat + 4 * 2 ∧ ¬ 2 ^ 32 < (0xFFFFFFFC : Addr).toNat + 4 * 1 ∧
    inRange 0x2000 2 0x2004 = true ∧ inRange 0x2004 2 0x2004 = true ∧
    inRange 0x1000 3 0x1008 = true ∧
      kindAt (withDevice State.reset).cfg.memMap (0x1008 : Addr).toNat = some .sideEffecting ∧
    answers (exec (.opOver 3) (withBuffers 0x2000 0x2008 2)) (fun t => t.regs.busy) = true ∧
    answers (exec (.opOver 3) (withBuffers 0x2000 0x2000 2)) (fun t => t.regs.busy) = true ∧
    answers (exec (.opOver 3) (withBuffers 0xFFFFFFFC 0 1)) (fun t => t.regs.busy) = true := by decide
theorem test_refusals :
    exec (.opOver 3) (withBuffers 0xFFFFFFFC 0 2) = .refused .rangeWraps ∧
    exec (.opOver 3) (withBuffers 0x2000 0x2004 2) = .refused .partialOverlap ∧
    exec (.opOver 3) (withDevice (withBuffers 0x2000 0x1000 3)) = .refused .sideEffectingMemory := by
  refine ⟨rfl, rfl, rfl⟩

theorem witness_CompletionClearsBusy :
    { midway (.opOver 3) 3 blank with eng := Engine.reset }.regs.busy = true ∧
    { midway (.opOver 3) 3 blank with eng := Engine.reset }.eng.iN = 0 := by decide

/-- A running masked command of three pixels, whose source pixel is opaque. -/
def mid : State := midway (.opOverM 3) 3 (single 0xFF402010 0x80000000 0x40302010)

theorem mid_running : Running mid :=
  { command := by decide, nonEmpty := by decide, left := by decide, whole := by decide
    dst := by decide, src := by decide, msk := by decide, contract := by decide }

theorem sized_reset_8 : (Datapath.reset 8).sized 8 := by
  constructor <;> first | rfl | exact ⟨rfl, rfl⟩

theorem mid_inv : Inv mid :=
  { mem := by decide, cmd := by decide, dst := by decide, src := by decide, msk := by decide
    sized := sized_reset_8, running := fun _ => mid_running }

theorem witness_RunningCommandKeepsTheHostRegisters :
    mid.regs.busy = true ∧ Running mid ∧ ∃ t, exec (running mid) mid = .next t :=
  ⟨rfl, mid_running, some_next (by decide)⟩

/-- What the iteration statements assume, of the state and the operands alone. -/
def iterationHypotheses (masked : Bool) (a : Nat) (s : State) : Bool :=
  decide (a < 4) && s.regs.busy && decide (s.eng.iN ≠ 0) && Memory.wf s.mem && iterationBacked masked s

theorem witness_OverIteration : iterationHypotheses false 3 (midway (.opOver 3) 1 (single 0x80800000 0 0xFF00FF00)) := by
  decide
theorem witness_OverMIteration : iterationHypotheses true 3 mid := by decide
theorem witness_OverrevIteration : iterationHypotheses false 0 (midway (.opOverrev 0) 9 blank) := by decide
theorem witness_OverrevMIteration : iterationHypotheses true 1 (midway (.opOverrevM 1) 2 blank) := by decide
theorem witness_OutrevIteration : iterationHypotheses false 2 (midway (.opOutrev 2) 8 blank) := by decide
theorem witness_OutrevMIteration : iterationHypotheses true 3 (midway (.opOutrevM 3) 7 blank) := by decide
theorem witness_AddIteration : iterationHypotheses false 3 (midway (.opAdd 3) 1 blank) := by decide
theorem witness_AddMIteration : iterationHypotheses true 3 (midway (.opAddM 3) 1 blank) := by decide

theorem witness_IterationLoadsTheDatapath :
    (Instr.opOverM 3).wellFormed = true ∧ mid.regs.busy = true ∧ mid.eng.iN ≠ 0 ∧ ∃ t, exec (.opOverM 3) mid = .next t :=
  ⟨by decide, by decide, by decide, some_next (by decide)⟩
theorem witness_DatapathRegistersLeftAlone :
    (Instr.opOverM 3).wellFormed = true ∧ mid.regs.busy = true ∧ ∃ t, exec (.opOverM 3) mid = .next t :=
  ⟨by decide, by decide, some_next (by decide)⟩
theorem witness_IterationTrafficFollowsTheTable :
    (Instr.opOutrev 3).wellFormed = true ∧ mid.regs.busy = true ∧ mid.eng.iN ≠ 0 ∧ ∃ t, exec (.opOutrev 3) mid = .next t :=
  ⟨by decide, by decide, by decide, some_next (by decide)⟩
theorem witness_ShortcutsLeaveTheSameMemory :
    (Instr.opOverM 3).wellFormed = true ∧ mid.regs.busy = true ∧ mid.eng.iN ≠ 0 ∧ Memory.wf mid.mem = true ∧
    iterationBacked true mid = true ∧ ∃ t, exec (.opOverM 3) mid = .next t :=
  ⟨by decide, by decide, by decide, by decide, by decide, some_next (by decide)⟩
theorem witness_AccessesStayInTheRanges :
    Inv mid ∧ mid.regs.busy = true ∧ mid.inputs = [] ∧
    (∃ t, step mid = .next t ∧ (t.memPort.length == 4 && t.memPort.all fun m => m.laneEn[2]? == some true) = true) :=
  ⟨mid_inv, rfl, rfl, next_of_answers (by decide)⟩

theorem witness_WidenedMultiplyEqualsMul8 :
    (0x00FF : WideLane).toNat ≤ 255 ∧ (0 : WideLane).toNat ≤ 255 ∧ 255 < (0x0100 : WideLane).toNat := by decide
theorem witness_NegateAndBroadcast : (0x00FF : WideLane).toNat ≤ 255 ∧ 3 < 4 := by decide
theorem witness_SaturatingAddAndNarrower : 3 < 4 := by decide
theorem witness_WidenedHalvesPlaceEveryChannel :
    ([1, 2, 3, 4, 5, 0x01020304, 7, 8] : PixelVector).length = 2 * 4 ∧ 1 < 4 ∧ 3 < 4 := by decide
theorem witness_ReverseBroadcastUsedByNoCommand : 3 < 4 := by decide
theorem witness_SpanMaskIsTheTableEntry : 7 < 8 ∧ 0 < 8 ∧ (1 : Word) ≠ 0 := by decide
theorem witness_OperatorFormulasAndCornerCases :
    3 < 4 ∧ (∀ c, c < 4 → (ch 0x80402010 c).toNat ≤ (ch 0x80402010 3).toNat) ∧
    ch 0xFF123456 3 = 255 ∧ ch 0x00FFFFFF 3 = 0 := by decide

/-- A launch of a command of three pixels. -/
theorem launch_three {i : Instr} {m : Memory} (hi : i.wellFormed = true) (hm : Memory.wf m = true)
    (hc : contractViolation i.masked Params.default (programmed 3 blank []).regs = none)
    (hb : commandBacked i.masked Params.default (programmed 3 blank []).regs = true) :
    Launch i (programmed 3 m [cmdWrite (encode i)]) :=
  { wellFormed := hi, mem := hm, idle := rfl, inputs := rfl, contract := hc, backed := hb }

theorem witness_CommandLeavesTheClosedForm : Launch (.opAddM 3) (programmed 3 blank [cmdWrite (encode (.opAddM 3))]) :=
  launch_three (by decide) (by decide) (by decide) (by decide)
theorem witness_CommandTakesCeilIterations :
    Launch (.opOver 3) (programmed 3 blank [cmdWrite (encode (.opOver 3))]) ∧
    0 < (programmed 3 blank []).regs.count.toNat ∧ 1 ≤ ((programmed 3 blank []).regs.count.toNat + 8 - 1) / 8 :=
  ⟨launch_three (by decide) (by decide) (by decide) (by decide), by decide, by decide⟩
theorem witness_FinalMemoryDoesNotDependOnLanes :
    Launch (.opOverrev 3) (programmed 3 blank [cmdWrite (encode (.opOverrev 3))]) :=
  launch_three (by decide) (by decide) (by decide) (by decide)

/-- A mask buffer of three pixels of alpha 255. -/
def fullMask : Memory := pixels 0x3000 [0xFF000000, 0xFF112233, 0xFFFFFFFF] blank

theorem witness_FullMaskEqualsNoMask :
    (Instr.opOver 3).masked = false ∧
    Launch (.opOver 3) (programmed 3 fullMask [cmdWrite (encode (.opOver 3))]) ∧
    Launch (maskedForm (.opOver 3)) (programmed 3 fullMask [cmdWrite (encode (maskedForm (.opOver 3)))]) ∧
    (∀ j, j < 3 → ch (readPixel fullMask (pixelAddr 0x3000 j)) 3 = 255) :=
  ⟨rfl, launch_three (by decide) (by decide) (by decide) (by decide),
    launch_three (by decide) (by decide) (by decide) (by decide), by decide⟩

theorem witness_ResetLoadsTheRegisters :
    (programmed 3 blank [.reset (some ⟨8, true, 1⟩)]).inputs = .reset (some ⟨8, true, 1⟩) :: [] ∧
    (programmed 3 blank [.reset (some ⟨8, true, 1⟩)]).regs.busy = false := by decide
theorem witness_ResetDrawsTheInterruptedPixels :
    { mid with inputs := [.reset none] }.inputs = .reset none :: [] ∧ mid.regs.busy = true ∧ mid.eng.iN ≠ 0 ∧
    Memory.wf mid.mem = true ∧ iterationBacked mid.eng.cM mid = true := by decide
theorem witness_RacingAccesses :
    mid.regs.busy = true ∧ { mid with inputs := [.memWrite 0x300B 1] }.inputs = .memWrite 0x300B 1 :: [] ∧
    { mid with inputs := [.memRead 0x2000] }.inputs = .memRead 0x2000 :: [] ∧
    inRange (readRegister .dst mid) 3 0x2000 = true ∧ inRange (readRegister .src mid) 3 0x100B = true ∧
    mid.eng.cM = true ∧ inRange (readRegister .msk mid) 3 0x300B = true := by decide

/-- A platform that backs the bytes 0x1000 to 0x1FFF only. -/
def withHole (s : State) : State := { s with cfg := { s.cfg with memMap := [⟨0x1000, 0x1000, .plain⟩] } }

theorem witness_AgentAccessesWhileIdle :
    (withHole (programmed 0 blank [.memWrite 0x1FFF 7])).regs.busy = false ∧
    Memory.wf (programmed 0 blank []).mem = true ∧
    (withHole (programmed 0 blank [.memWrite 0x1FFF 7])).inputs = .memWrite 0x1FFF 7 :: [] ∧
    (withHole (programmed 0 blank [.memRead 0x2000])).inputs = .memRead 0x2000 :: [] ∧
    (withHole (programmed 0 blank [.memRead 0x2000])).regs.busy = false ∧
    kindAt (withHole State.reset).cfg.memMap (0x1FFF : Addr).toNat = some .plain ∧
    kindAt (withHole State.reset).cfg.memMap (0x2000 : Addr).toNat = none ∧
    kindAt (withDevice State.reset).cfg.memMap (0x1008 : Addr).toNat = some .sideEffecting := by decide
theorem witness_UnbackedReadsAreStuck :
    (Instr.opOverM 3).wellFormed = true ∧ (withHole mid).regs.busy = true ∧ (withHole mid).eng.iN ≠ 0 ∧
    (∀ r ∈ (withHole mid).cfg.memMap, r.kind = .plain) ∧
    bufferBacked (withHole mid).cfg (withHole mid).eng.iM (activeLanes (withHole mid)) = false := by decide

/-- A command that could take no further step still ends at reset (rule R220). -/
theorem test_reset_of_stuck_command : answers (step { withHole mid with inputs := [.reset none] })
    (fun t => !t.regs.busy && t.regs.count == 0 && t.mem == mid.mem) := by decide

theorem witness_EveryStepKeepsTheInvariant : Inv mid ∧ ∃ t, step mid = .next t := ⟨mid_inv, some_next (by decide)⟩

/-- Each clause about STATUS: a step at which BUSY rises, one at which it falls, and the same for ERR. -/
theorem witness_StatusBitsChangeOnlyByTheirEvents :
    (∃ t, step (programmed 3 blank [cmdWrite 0x60]) = .next t ∧ t.regs.busy = true) ∧
    (∃ t, step { mid with eng := { mid.eng with iN := 0 } } = .next t ∧ (!t.regs.busy) = true) ∧
    (∃ t, step (programmed 3 blank [cmdWrite 4]) = .next t ∧ t.regs.err = true) ∧
    (∃ t, step { programmed 3 blank [cmdWrite 0x60] with
        regs := { HostRegs.reset with err := true } } = .next t ∧ (!t.regs.err) = true) :=
  ⟨next_of_answers (by decide), next_of_answers (by decide), next_of_answers (by decide),
    next_of_answers (by decide)⟩
theorem witness_ParametersNeverChange : ∃ t, step mid = .next t := some_next (by decide)
theorem witness_OperandRegistersChangeOnlyByTheHost :
    ∃ t, step (programmed 3 blank [.regWrite ⟨0x14, true, 9⟩]) = .next t ∧ (t.regs.count != 3) = true :=
  next_of_answers (by decide)
theorem witness_IdleBlockAccessesNoMemory :
    Memory.wf (programmed 3 blank [.memWrite 0x2000 1]).mem = true ∧
    (programmed 3 blank [.memWrite 0x2000 1]).regs.busy = false ∧
    ∃ t, step (programmed 3 blank [.memWrite 0x2000 1]) = .next t ∧ (byteAt t.mem 0x2000 != 0) = true :=
  ⟨by decide, by decide, next_of_answers (by decide)⟩

/-- A reset with nothing under way, one that draws, and one of a command whose mask read has no step. -/
theorem witness_ResetEndsEveryCommand :
    Memory.wf mid.mem = true ∧ { mid with inputs := [.reset none] }.inputs = .reset none :: [] ∧
    activeLanes mid = 3 ∧ pixelBacked mid.cfg (pixelAddr mid.eng.iD 2) = true ∧
    State.reset.regs.busy = false ∧ Engine.reset.iN = 0 ∧
    (.read, (0x3000 : Addr)) ∈ traffic (running (withHole mid)) (withHole mid) ∧
    bufferBacked (withHole mid).cfg 0x3000 (activeLanes (withHole mid)) = false := by decide
theorem witness_NonRacingAccessesWhileBusy :
    mid.regs.busy = true ∧ Memory.wf mid.mem = true ∧
    { mid with inputs := [.memWrite 0x300C 1] }.inputs = .memWrite 0x300C 1 :: [] ∧
    { mid with inputs := [.memRead 0x300B] }.inputs = .memRead 0x300B :: [] ∧
    inRange (readRegister .dst mid) 3 0x300C = false ∧ inRange (readRegister .src mid) 3 0x300C = false ∧
    inRange (readRegister .msk mid) 3 0x300C = false ∧ inRange (readRegister .dst mid) 3 0x300B = false ∧
    kindAt mid.cfg.memMap (0x300C : Addr).toNat = some .plain ∧
    kindAt (withHole mid).cfg.memMap (0x300C : Addr).toNat = none ∧
    kindAt { mid.cfg with memMap := [⟨0x300C, 1, .sideEffecting⟩] }.memMap (0x300C : Addr).toNat =
      some .sideEffecting := by decide

end Sys2Proof.Tests
end

section
/-! Reset of a running command, and the parameters: the statements about the free values and open parameters of
spec/00_scope.md rule R11. -/

namespace Sys2Proof.Machine

/-! ### The pixels a reset draws (rule R221) -/

theorem activeLanes_le (s : State) : activeLanes s ≤ 16 := (activeCount_le _ _).trans (count_le _)

theorem pixelBacked_of_iterationBacked {masked : Bool} {s : State} (h : iterationBacked masked s = true) {j : Nat}
    (hj : j < activeLanes s) : pixelBacked s.cfg (pixelAddr s.eng.iD j) = true := by
  simp only [iterationBacked, Bool.and_eq_true] at h
  obtain ⟨⟨hD, -⟩, -⟩ := h
  exact bufferBacked_iff.mp hD j hj

/-- Where the destination is backed, RESET_DRAW alone decides. -/
theorem resetChoice_of_backed {s : State} {j : Nat} (h : pixelBacked s.cfg (pixelAddr s.eng.iD j) = true) :
    resetChoice s j = Config.resetDraw s.draws (pixelsDone s + j) := by
  rw [resetChoice, h, Bool.and_true]

theorem sameOutside_drawPixels (choose : Nat → Bool) (new : Nat → Pixel) (base : Addr) (n : Nat) {m : Memory}
    (h : Memory.wf m = true) : sameOutside base n m (drawPixels choose new base 0 n m) :=
  ⟨powerOn_drawPixels _ _ _ _ _ _, fun c hc => byteAt_drawPixels_other _ _ _ c n 0 m h fun l _ hl =>
    bufferHolds_eq_false.mp hc l (by omega)⟩

/-- Reset changes no byte outside the destination pixels of the next iteration, whatever the command meets. -/
theorem sameOutside_memoryAtReset {s : State} (h : Memory.wf s.mem = true) :
    sameOutside s.eng.iD (activeLanes s) s.mem (memoryAtReset s) := by
  unfold memoryAtReset
  split
  · exact sameOutside_drawPixels _ _ _ _ h
  · exact sameOutside_refl _ _ _

/-- A reset that interrupts an iteration whose reads are backed leaves each of its pixels as chosen. -/
theorem readPixel_memoryAtReset {s : State} (hb : s.regs.busy = true) (hn : s.eng.iN ≠ 0)
    (hw : Memory.wf s.mem = true) (hr : readsBacked (running s) s = true) {j : Nat} (hj : j < activeLanes s) :
    readPixel (memoryAtReset s) (pixelAddr s.eng.iD j) =
      if resetChoice s j then laneResult (running s) s j else readPixel s.mem (pixelAddr s.eng.iD j) := by
  have hk := activeLanes_le s
  rw [memoryAtReset_draw hb hn hr]
  exact readPixel_drawPixels _ _ _ (activeLanes s) 0 s.mem hw (by omega) (Nat.zero_le j) (by omega)

/-- Settles O49: every pixel of the interrupted iteration is backed, so `memoryAtReset` draws each of them by
RESET_DRAW alone, and the turn's own bookkeeping reaches none of what that memory is computed from. -/
theorem resetDrawsTheInterruptedPixels : Obligations.ResetDrawsTheInterruptedPixels := by
  intro s w rest hin hb hn hw hback
  have hr : readsBacked (running s) s = true :=
    readsBacked_of_iterationBacked (by rw [running_masked]; exact hback)
  have hmem : (resetTurn (s.takeTurn rest)).mem = memoryAtReset s := rfl
  refine ⟨_, step_of_reset hin, rfl, fun j hj => ?_, ?_, rfl, rfl, rfl⟩
  · rw [hmem, readPixel_memoryAtReset hb hn hw hr hj,
      resetChoice_of_backed (pixelBacked_of_iterationBacked hback hj)]
  · rw [hmem]
    exact sameOutside_memoryAtReset hw

/-! ### The parameters (rules R11, R26) -/

theorem wellFormed_ofFields (func : BitVec 2) (m : Bool) (ach : BitVec 2) :
    (ofFields func m ach).wellFormed = true := by
  have h := ach.isLt
  unfold ofFields Instr.wellFormed
  split_ifs <;> exact decide_eq_true h

theorem wellFormed_of_decode {w : Word} {i : Instr} (h : decode w = .ok i) : i.wellFormed = true := by
  unfold decode at h
  split_ifs at h
  obtain rfl := Except.ok.inj h
  exact wellFormed_ofFields _ _ _

@[simp] theorem writeRegister_cfg (r : RegName) (v : Word) (s : State) : (writeRegister r v s).cfg = s.cfg := by
  cases r <;> rfl

theorem exec_cfg {i : Instr} {s t : State} (hi : i.wellFormed = true) (h : exec i s = .next t) :
    t.cfg = s.cfg := by
  rcases exec_cases hi h with ⟨-, -, rfl⟩ | ⟨-, -, rfl⟩ | ⟨-, -, hadv⟩
  · rfl
  · rfl
  · exact hadv.cfg

theorem engineTurn_cfg {s t : State} (h : engineTurn exec s = .next t) : t.cfg = s.cfg := by
  unfold engineTurn at h
  split at h
  · exact exec_cfg (running_wellFormed s) h
  · rw [Host.Outcome.next.inj h]

theorem busWrite_cfg {w : RegWrite} {s t : State} (h : busWrite exec w s = .next t) : t.cfg = s.cfg := by
  rcases busWrite_cases h with rfl | ⟨-, -, ⟨r, rfl⟩ | ⟨-, ⟨_, -, rfl⟩ | ⟨i, hi, hx⟩⟩⟩
  · rfl
  · exact writeRegister_cfg r w.data s
  · rfl
  · exact exec_cfg (wellFormed_of_decode hi) hx

theorem busRead_cfg (a : Addr) (size4 : Bool) (s : State) : (busRead a size4 s).cfg = s.cfg := by
  rcases busRead_cases a size4 s with e | ⟨v, e⟩
  · rw [e]
  · rw [e, State.setRdata_cfg]

theorem poll_cfg (s : State) : (poll s).cfg = s.cfg := by
  unfold poll
  split <;> rfl

theorem agentRead_cfg {a : Addr} {s t : State} (h : agentRead a s = .next t) : t.cfg = s.cfg := by
  rcases agentRead_eq_next h with ⟨b, rfl⟩ | ⟨b, rfl⟩ <;> rfl

/-- No agent's turn changes the parameters. -/
theorem handle_cfg {e : HostEvent} {s t : State} (h : handle exec e s = .next t) : t.cfg = s.cfg := by
  cases e with
  | regWrite w => exact busWrite_cfg h
  | regRead a size4 => rw [← Host.Outcome.next.inj h]; exact busRead_cfg a size4 s
  | wait => rw [← Host.Outcome.next.inj h]; exact poll_cfg s
  | engine => exact engineTurn_cfg h
  | reset w => rw [← Host.Outcome.next.inj h]; rfl
  | memWrite a b => rw [(agentWrite_eq_next h).1]; rfl
  | memRead a => exact agentRead_cfg h

theorem step_cfg {s t : State} (h : step s = .next t) : t.cfg = s.cfg := by
  cases hin : s.inputs with
  | nil => rw [step_of_nil hin] at h; exact (engineTurn_cfg h).trans (s.takeTurn_cfg [])
  | cons e rest => rw [step_of_cons hin] at h; exact (handle_cfg h).trans (s.takeTurn_cfg rest)

theorem readRegister_param (s : State) : readRegister .param s = paramWord s.cfg := rfl

/-- Settles O56, turn by turn: each agent's turn leaves the parameters alone, and PARAM reads nothing else. -/
theorem parametersNeverChange : Obligations.ParametersNeverChange := by
  intro s t h
  have hc := step_cfg h
  exact ⟨hc, by rw [readRegister_param, readRegister_param, hc]⟩

end Sys2Proof.Machine
end

section
/-! What a step can leave of the state before it, one case an event, and what follows for the invariant, the status
bits, the operand registers and reset (spec/10_state.md, spec/44_row_driver.md). -/

namespace Sys2Proof.Machine

/-! ### Legal words and the latched command (rules R30, R86) -/

/-- The mask of rule R86 keeps exactly the reserved bits [31:7]. -/
theorem and_highMask_eq_zero (w : Word) : w &&& 0xFFFFFF80#32 = 0#32 ↔ fieldReserved w = 0#25 := by
  have e : w &&& 0xFFFFFF80#32 = w >>> 7 <<< 7 := (BitVec.shiftLeft_ushiftRight (x := w) (n := 7)).symm
  have hw := w.isLt
  rw [e, fieldReserved, ← BitVec.toNat_inj, ← BitVec.toNat_inj]
  simp only [BitVec.toNat_shiftLeft, BitVec.toNat_ushiftRight, BitVec.extractLsb'_toNat, Nat.shiftLeft_eq,
    Nat.shiftRight_eq_div_pow, BitVec.toNat_ofNat]
  omega

theorem and_lowMask_toNat (w : Word) : (w &&& 0xF#32).toNat = (fieldFUNC w).toNat := by
  rw [fieldFUNC, BitVec.toNat_and, BitVec.extractLsb'_toNat]
  exact Nat.and_two_pow_sub_one_eq_mod w.toNat 4

theorem legal_iff_fields (w : Word) : legal w = true ↔ fieldReserved w = 0#25 ∧ (fieldFUNC w).toNat ≤ 3 := by
  simp only [legal, Bool.and_eq_true, beq_iff_eq, decide_eq_true_eq, and_highMask_eq_zero, and_lowMask_toNat]

theorem legal_of_decode {w : Word} {i : Instr} (h : decode w = .ok i) : legal w = true := by
  unfold decode at h
  split_ifs at h with hr hf
  exact (legal_iff_fields w).mpr ⟨not_not.mp hr, Nat.not_lt.mp hf⟩

theorem not_legal_of_decode_error {w : Word} {e : DecodeError} (h : decode w = .error e) : legal w = false := by
  rw [← Bool.not_eq_true, legal_iff_fields]
  rintro ⟨hr, hf⟩
  rw [decode, if_neg (not_not.mpr hr), if_neg (Nat.not_lt.mpr hf)] at h
  cases h

theorem ofFields_of_wellFormed {i : Instr} (h : i.wellFormed = true) :
    ofFields i.func i.masked (BitVec.ofNat 2 i.ach) = i := by
  have ha : i.ach < 4 := by simpa [Instr.wellFormed] using h
  have e : (BitVec.ofNat 2 i.ach).toNat = i.ach := Nat.mod_eq_of_lt ha
  unfold ofFields
  rw [e]
  cases i <;> rfl

theorem legal_encode {i : Instr} (h : i.wellFormed = true) : legal (encode i) = true := by
  have all : ∀ (f : BitVec 2) (m : Bool) (a : BitVec 2), legal (encode (ofFields f m a)) = true := by decide
  rw [← ofFields_of_wellFormed h]
  exact all _ _ _

theorem running_accepted {i : Instr} (h : i.wellFormed = true) (s : State) : running (accepted i s) = i :=
  ofFields_of_wellFormed h

/-! ### What a step can leave -/

/-- A turn that touches no register, no engine and no datapath: at most the byte another agent writes changes. -/
structure Quiet (s t : State) : Prop where
  cfg     : t.cfg = s.cfg
  regs    : t.regs = s.regs
  eng     : t.eng = s.eng
  dp      : t.dp = s.dp
  memPort : t.memPort = []
  mem     : t.mem = s.mem ∨ ∃ a b rest, s.inputs = .memWrite a b :: rest ∧ t.mem = setByte s.mem a b

/-- What a step can leave, one case an event: a quiet turn, reset, a register write to an idle block that stores an
operand, is rejected or is accepted, and the completion or an iteration of the running command. -/
inductive Stepped (s t : State) : Prop where
  | quiet (q : Quiet s t)
  | reset (w : Option RegWrite) (rest : List HostEvent) (hin : s.inputs = .reset w :: rest)
      (ht : t = resetTurn (s.takeTurn rest))
  | stored (w : RegWrite) (rest : List HostEvent) (r : RegName) (hin : s.inputs = .regWrite w :: rest)
      (idle : s.regs.busy = false) (size4 : w.size4 = true) (ht : t = writeRegister r w.data (s.takeTurn rest))
  | rejected (w : Word) (rest : List HostEvent) (hp : presents s w rest) (hw : legal w = false)
      (ht : t = raiseIllegalCommand (s.takeTurn rest))
  | accepted (w : Word) (rest : List HostEvent) (i : Instr) (hp : presents s w rest) (hw : decode w = .ok i)
      (contract : contractViolation i.masked s.cfg s.regs = none) (ht : t = accepted i (s.takeTurn rest))
  | completed (rest : List HostEvent) (busy : s.regs.busy = true) (done : s.eng.iN = 0)
      (ht : t = complete (s.takeTurn rest))
  | iterated (rest : List HostEvent) (busy : s.regs.busy = true) (left : s.eng.iN ≠ 0)
      (adv : Advanced (running s) (s.takeTurn rest) t)

theorem quiet_takeTurn (s : State) (rest : List HostEvent) : Quiet s (s.takeTurn rest) :=
  ⟨rfl, rfl, rfl, rfl, rfl, .inl rfl⟩

theorem stepped_engineTurn {s t : State} {rest : List HostEvent}
    (h : engineTurn exec (s.takeTurn rest) = .next t) : Stepped s t := by
  unfold engineTurn at h
  split at h
  · rename_i hb
    rcases exec_cases (running_wellFormed _) h with ⟨hidle, -⟩ | ⟨-, hn, rfl⟩ | ⟨-, hn, adv⟩
    · rw [hb] at hidle; cases hidle
    · exact .completed rest hb hn rfl
    · exact .iterated rest hb hn adv
  · rw [← Host.Outcome.next.inj h]
    exact .quiet (quiet_takeTurn s rest)

theorem stepped_busWrite {s t : State} {w : RegWrite} {rest : List HostEvent} (hin : s.inputs = .regWrite w :: rest)
    (h : busWrite exec w (s.takeTurn rest) = .next t) : Stepped s t := by
  rcases busWrite_cases h with rfl | ⟨hb, h4, ⟨r, rfl⟩ | ⟨ha, hc⟩⟩
  · exact .quiet (quiet_takeTurn s rest)
  · exact .stored w rest r hin hb h4 rfl
  · have hp : presents s w.data rest := by
      obtain ⟨a, z, d⟩ := w
      obtain rfl : a = s.cfg.regBase := ha
      obtain rfl : z = true := h4
      exact ⟨hin, hb⟩
    rcases hc with ⟨e, he, rfl⟩ | ⟨i, hi, hx⟩
    · exact .rejected w.data rest hp (not_legal_of_decode_error he) rfl
    · rcases exec_cases (wellFormed_of_decode hi) hx with ⟨-, hk, rfl⟩ | ⟨hbusy, -⟩ | ⟨hbusy, -⟩
      · exact .accepted w.data rest i hp hi hk rfl
      all_goals rw [hb] at hbusy; cases hbusy

theorem quiet_busRead (a : Addr) (size4 : Bool) (s : State) (rest : List HostEvent) :
    Quiet s (busRead a size4 (s.takeTurn rest)) := by
  rcases busRead_cases a size4 (s.takeTurn rest) with e | ⟨v, e⟩ <;> rw [e]
  · exact quiet_takeTurn s rest
  · exact ⟨rfl, rfl, rfl, rfl, rfl, .inl rfl⟩

theorem quiet_poll (s : State) (rest : List HostEvent) : Quiet s (poll (s.takeTurn rest)) := by
  unfold poll
  split <;> exact ⟨rfl, rfl, rfl, rfl, rfl, .inl rfl⟩

theorem quiet_agentWrite {a : Addr} {b : Byte} {s t : State} {rest : List HostEvent}
    (hin : s.inputs = .memWrite a b :: rest) (h : agentWrite a b (s.takeTurn rest) = .next t) : Quiet s t := by
  obtain ⟨rfl, -⟩ := agentWrite_eq_next h
  exact ⟨rfl, rfl, rfl, rfl, rfl, .inr ⟨a, b, rest, hin, rfl⟩⟩

theorem quiet_agentRead {a : Addr} {s t : State} {rest : List HostEvent}
    (h : agentRead a (s.takeTurn rest) = .next t) : Quiet s t := by
  rcases agentRead_eq_next h with ⟨b, rfl⟩ | ⟨b, rfl⟩ <;> exact ⟨rfl, rfl, rfl, rfl, rfl, .inl rfl⟩

/-- Every step is one of these events. -/
theorem stepped_of_step {s t : State} (h : step s = .next t) : Stepped s t := by
  cases hin : s.inputs with
  | nil => rw [step_of_nil hin] at h; exact stepped_engineTurn h
  | cons e rest =>
    rw [step_of_cons hin] at h
    cases e with
    | regWrite w => exact stepped_busWrite hin h
    | regRead a size4 => rw [← Host.Outcome.next.inj h]; exact .quiet (quiet_busRead a size4 s rest)
    | wait => rw [← Host.Outcome.next.inj h]; exact .quiet (quiet_poll s rest)
    | engine => exact stepped_engineTurn h
    | reset w => exact .reset w rest hin (Host.Outcome.next.inj h).symm
    | memWrite a b => exact .quiet (quiet_agentWrite hin h)
    | memRead a => exact .quiet (quiet_agentRead h)

/-! ### The invariant (rules R22, R24, R30 to R34, R173 to R176) -/

theorem Quiet.memWf {s t : State} (q : Quiet s t) (h : Memory.wf s.mem = true) : Memory.wf t.mem = true := by
  rcases q.mem with e | ⟨a, b, -, -, e⟩ <;> rw [e]
  · exact h
  · exact wf_setByte a b h

/-- Whether a command runs is a matter of the parameters, the registers and the engine. -/
theorem Running.congr {s t : State} (h : Running s) (hc : t.cfg = s.cfg) (hr : t.regs = s.regs)
    (he : t.eng = s.eng) : Running t := by
  cases t
  subst hc hr he
  exact ⟨h.command, h.nonEmpty, h.left, h.whole, h.dst, h.src, h.msk, h.contract⟩

theorem Quiet.inv {s t : State} (q : Quiet s t) (h : Inv s) : Inv t where
  mem := q.memWf h.mem
  cmd := by rw [q.regs]; exact h.cmd
  dst := by rw [q.regs]; exact h.dst
  src := by rw [q.regs]; exact h.src
  msk := by rw [q.regs]; exact h.msk
  sized := by rw [State.lanes, q.dp, q.cfg]; exact h.sized
  running hb := (h.running (by rw [← q.regs]; exact hb)).congr q.cfg q.regs q.eng

theorem Inv.takeTurn {s : State} (h : Inv s) (rest : List HostEvent) : Inv (s.takeTurn rest) :=
  (quiet_takeTurn s rest).inv h

theorem sized_reset (l : Lanes) : (Datapath.reset l.count).sized l.count := by
  constructor
  case hVM | hVS | hVE | hVD | hVR => exact ⟨List.length_replicate, List.length_replicate⟩
  all_goals exact List.length_replicate

/-- A block at the reset values of rule R39 meets the invariant, whatever memory holds. -/
theorem inv_of_resetValues {s : State} (hr : s.regs = HostRegs.reset) (hd : s.dp = Datapath.reset s.lanes)
    (hm : Memory.wf s.mem = true) : Inv s where
  mem := hm
  cmd := by rw [hr]; rfl
  dst := by rw [hr]; rfl
  src := by rw [hr]; rfl
  msk := by rw [hr]; rfl
  sized := by rw [hd]; exact sized_reset _
  running hb := by rw [hr] at hb; cases hb

theorem inv_resetTurn {s : State} (h : Inv s) : Inv (resetTurn s) :=
  inv_of_resetValues rfl rfl (wf_memoryAtReset h.mem)

theorem hardwire_hardwire (a : Addr) : hardwire (hardwire a) = hardwire a := by
  unfold hardwire
  rw [BitVec.and_assoc, BitVec.and_self]

theorem writeRegister_busy (r : RegName) (v : Word) (s : State) : (writeRegister r v s).regs.busy = s.regs.busy := by
  cases r <;> rfl

theorem writeRegister_err (r : RegName) (v : Word) (s : State) : (writeRegister r v s).regs.err = s.regs.err := by
  cases r <;> rfl

theorem inv_writeRegister {s : State} (h : Inv s) (idle : s.regs.busy = false) (r : RegName) (v : Word) :
    Inv (writeRegister r v s) := by
  have hrun : (writeRegister r v s).regs.busy = true → Running (writeRegister r v s) := fun hb => by
    rw [writeRegister_busy, idle] at hb; cases hb
  cases r with
  | dst => exact { h with dst := hardwire_hardwire v, running := hrun }
  | src => exact { h with src := hardwire_hardwire v, running := hrun }
  | msk => exact { h with msk := hardwire_hardwire v, running := hrun }
  | count => exact { h with running := hrun }
  | cmd | status | param | reserved => exact h

theorem inv_raiseIllegalCommand {s : State} (h : Inv s) (idle : s.regs.busy = false) :
    Inv (raiseIllegalCommand s) :=
  { h with running := fun hb => absurd (idle.symm.trans hb) (by decide) }

/-- Acceptance with COUNT ≠ 0 starts the command at pixel 0 (rules R170, R173). -/
theorem running_of_accepted {i : Instr} {s : State} (hi : i.wellFormed = true)
    (hc : contractViolation i.masked s.cfg s.regs = none) (hn : s.regs.count ≠ 0) : Running (accepted i s) := by
  have done : pixelsDone (accepted i s) = 0 := Nat.sub_self _
  exact {
    command := by rw [running_accepted hi]; rfl
    nonEmpty := hn
    left := Nat.le_refl _
    whole := .inr (by rw [done, Nat.zero_mod])
    dst := by rw [done, pixelAddr_zero]; rfl
    src := by rw [done, pixelAddr_zero]; rfl
    msk := by rw [done, ite_self, pixelAddr_zero]; rfl
    contract := hc }

theorem inv_accepted {i : Instr} {s : State} (h : Inv s) (hi : i.wellFormed = true)
    (hc : contractViolation i.masked s.cfg s.regs = none) : Inv (accepted i s) :=
  { h with
    cmd := legal_encode hi
    running := fun hb => running_of_accepted hi hc (of_decide_eq_true hb) }

theorem inv_complete {s : State} (h : Inv s) : Inv (complete s) :=
  { h with running := fun hb => by cases hb }

/-- Of iN pixels left, an iteration does W, or all of them (rules R150, R173). -/
theorem iN_advance (s : State) :
    (s.eng.iN - BitVec.ofNat 32 (activeLanes s)).toNat = s.eng.iN.toNat - activeLanes s := by
  have hk : activeLanes s ≤ s.eng.iN.toNat := Nat.min_le_left _ _
  have hn := s.eng.iN.isLt
  rw [BitVec.toNat_sub_of_le] <;> simp only [BitVec.le_def, BitVec.toNat_ofNat] <;>
    rw [Nat.mod_eq_of_lt (by omega)]
  exact hk

/-- An iteration keeps the iteration registers in lockstep (rules R173, R174, R176). -/
theorem Running.advanced {s t : State} (h : Running s) (adv : Advanced (running s) s t) : Running t := by
  have hk : activeLanes s = min s.eng.iN.toNat s.lanes := rfl
  have hiN : t.eng.iN.toNat = s.eng.iN.toNat - activeLanes s := by rw [adv.eng]; exact iN_advance s
  have hleft := h.left
  have done : pixelsDone t = pixelsDone s + activeLanes s := by
    unfold pixelsDone; rw [adv.regs, hiN]; omega
  have latched : running t = running s := by unfold running; rw [adv.eng]; rfl
  have hcM : t.eng.cM = s.eng.cM := by rw [adv.eng]; rfl
  have lanes : t.lanes = s.lanes := by unfold State.lanes; rw [adv.cfg]
  exact {
    command := by rw [adv.regs, latched]; exact h.command
    nonEmpty := by rw [adv.regs]; exact h.nonEmpty
    left := by rw [adv.regs, hiN]; omega
    whole := by
      by_cases hlast : s.eng.iN.toNat ≤ s.lanes
      · exact .inl (BitVec.eq_of_toNat_eq (by rw [hiN]; simp; omega))
      · have hw : pixelsDone s % s.lanes = 0 := h.whole.resolve_left fun e => hlast (by simp [e])
        refine .inr ?_
        rw [done, lanes, hk, Nat.min_eq_right (by omega), Nat.add_mod_right, hw]
    dst := by rw [adv.regs, done, ← pixelAddr_add, ← h.dst, adv.eng]; rfl
    src := by rw [adv.regs, done, ← pixelAddr_add, ← h.src, adv.eng]; rfl
    msk := by
      have e : t.eng.iM = if s.eng.cM then pixelAddr s.eng.iM (activeLanes s) else s.eng.iM := by
        rw [adv.eng, ← running_masked]; rfl
      rw [adv.regs, hcM, e, h.msk, done]
      split
      · exact pixelAddr_add _ _ _
      · rfl
    contract := by rw [hcM, adv.cfg, adv.regs]; exact h.contract }

theorem inv_advanced {s t : State} (h : Inv s) (hb : s.regs.busy = true) (adv : Advanced (running s) s t) :
    Inv t where
  mem := adv.memWf h.mem
  cmd := by rw [adv.regs]; exact h.cmd
  dst := by rw [adv.regs]; exact h.dst
  src := by rw [adv.regs]; exact h.src
  msk := by rw [adv.regs]; exact h.msk
  sized := by
    have lanes : t.lanes = s.lanes := by unfold State.lanes; rw [adv.cfg]
    rw [lanes]; exact adv.sized h.sized
  running _ := (h.running hb).advanced adv

/-- Settles O54, event by event: an idle event keeps the registers aligned and CMD legal, acceptance starts the
lockstep at pixel 0, and an iteration moves it on by the active lanes. -/
theorem everyStepKeepsTheInvariant : Obligations.EveryStepKeepsTheInvariant := by
  intro s t h hstep
  cases stepped_of_step hstep with
  | quiet q => exact q.inv h
  | reset w rest _ ht => rw [ht]; exact inv_resetTurn (h.takeTurn rest)
  | stored w rest r _ idle _ ht => rw [ht]; exact inv_writeRegister (h.takeTurn rest) idle r w.data
  | rejected w rest hp _ ht => rw [ht]; exact inv_raiseIllegalCommand (h.takeTurn rest) hp.2
  | accepted w rest i _ hw hc ht => rw [ht]; exact inv_accepted (h.takeTurn rest) (wellFormed_of_decode hw) hc
  | completed rest _ _ ht => rw [ht]; exact inv_complete (h.takeTurn rest)
  | iterated rest busy _ adv => exact inv_advanced (h.takeTurn rest) busy adv

/-- Settles O53: the reset state is at the values of rule R39, and memory lists no byte. -/
theorem resetMeetsTheInvariant : Obligations.ResetMeetsTheInvariant :=
  inv_of_resetValues rfl rfl (wf_unwritten _)


/-! ### The status bits (rules R23, R201) -/

/-- The five things a step can do to BUSY and ERR. -/
inductive StatusStep (s t : State) : Prop where
  | kept (busy : t.regs.busy = s.regs.busy) (err : t.regs.err = s.regs.err)
  | reset (w : Option RegWrite) (rest : List HostEvent) (hin : s.inputs = .reset w :: rest)
      (busy : t.regs.busy = false) (err : t.regs.err = false)
  | rejected (w : Word) (rest : List HostEvent) (hp : presents s w rest) (hw : legal w = false)
      (busy : t.regs.busy = s.regs.busy) (err : t.regs.err = true)
  | accepted (w : Word) (rest : List HostEvent) (hp : presents s w rest) (hw : legal w = true)
      (busy : t.regs.busy = decide (s.regs.count ≠ 0)) (err : t.regs.err = false)
  | completed (done : s.eng.iN = 0) (busy : t.regs.busy = false) (err : t.regs.err = s.regs.err)

theorem statusStep_of_step {s t : State} (h : step s = .next t) : StatusStep s t := by
  cases stepped_of_step h with
  | quiet q => exact .kept (by rw [q.regs]) (by rw [q.regs])
  | reset w rest hin ht => subst ht; exact .reset w rest hin rfl rfl
  | stored w rest r _ _ _ ht => subst ht; exact .kept (writeRegister_busy r w.data _) (writeRegister_err r w.data _)
  | rejected w rest hp hw ht => subst ht; exact .rejected w rest hp hw rfl rfl
  | accepted w rest i hp hw _ ht => subst ht; exact .accepted w rest hp (legal_of_decode hw) rfl rfl
  | completed rest _ done ht => subst ht; exact .completed done rfl rfl
  | iterated rest _ _ adv => exact .kept (by rw [adv.regs]; rfl) (by rw [adv.regs]; rfl)

theorem busy_rises {s t : State} (h : step s = .next t) (h0 : s.regs.busy = false) (h1 : t.regs.busy = true) :
    ∃ w rest, presents s w rest ∧ legal w = true ∧ s.regs.count ≠ 0 := by
  cases statusStep_of_step h with
  | accepted w rest hp hw busy _ => exact ⟨w, rest, hp, hw, of_decide_eq_true (busy.symm.trans h1)⟩
  | kept busy | rejected _ _ _ _ busy => rw [busy, h0] at h1; cases h1
  | reset _ _ _ busy | completed _ busy => rw [busy] at h1; cases h1

theorem busy_falls {s t : State} (h : step s = .next t) (h0 : s.regs.busy = true) (h1 : t.regs.busy = false) :
    s.eng.iN = 0 ∨ ∃ w rest, s.inputs = .reset w :: rest := by
  cases statusStep_of_step h with
  | completed done => exact .inl done
  | reset w rest hin => exact .inr ⟨w, rest, hin⟩
  | kept busy | rejected _ _ _ _ busy => rw [busy, h0] at h1; cases h1
  | accepted _ _ hp => rw [hp.2] at h0; cases h0

theorem err_rises {s t : State} (h : step s = .next t) (h0 : s.regs.err = false) (h1 : t.regs.err = true) :
    ∃ w rest, presents s w rest ∧ legal w = false := by
  cases statusStep_of_step h with
  | rejected w rest hp hw => exact ⟨w, rest, hp, hw⟩
  | kept _ err | completed _ _ err => rw [err, h0] at h1; cases h1
  | reset _ _ _ _ err | accepted _ _ _ _ _ err => rw [err] at h1; cases h1

theorem err_falls {s t : State} (h : step s = .next t) (h0 : s.regs.err = true) (h1 : t.regs.err = false) :
    (∃ w rest, s.inputs = .reset w :: rest) ∨ ∃ w rest, presents s w rest ∧ legal w = true := by
  cases statusStep_of_step h with
  | reset w rest hin => exact .inl ⟨w, rest, hin⟩
  | accepted w rest hp hw => exact .inr ⟨w, rest, hp, hw⟩
  | kept _ err | completed _ _ err => rw [err, h0] at h1; cases h1
  | rejected _ _ _ _ _ err => rw [err] at h1; cases h1

/-- Settles O55: of the five things a step can do to STATUS, each change of a bit leaves only the events named. -/
theorem statusBitsChangeOnlyByTheirEvents : Obligations.StatusBitsChangeOnlyByTheirEvents := by
  intro s t h
  refine ⟨fun h0 h1 => ?_, busy_falls h, fun h0 h1 => ?_, fun h0 h1 => ?_⟩
  · obtain ⟨w, rest, hp, hw, hn⟩ := busy_rises h h0 h1
    exact ⟨_, rest, hp.1, rfl, rfl, hw, hn⟩
  · obtain ⟨w, rest, hp, hw⟩ := err_rises h h0 h1
    exact ⟨hp.2, _, rest, hp.1, rfl, rfl, hw⟩
  · refine (err_falls h h0 h1).imp_right ?_
    rintro ⟨w, rest, hp, hw⟩
    exact ⟨hp.2, _, rest, hp.1, rfl, rfl, hw⟩

/-! ### The operand registers (rules R22 to R29) -/

/-- Settles O57: every event but reset and an idle block's register write keeps the five registers. -/
theorem operandRegistersChangeOnlyByTheHost : Obligations.OperandRegistersChangeOnlyByTheHost := by
  intro s t h hne
  have kept (hr : t.regs = { s.regs with busy := t.regs.busy, err := t.regs.err }) : False := by
    rw [hr] at hne
    simp at hne
  cases stepped_of_step h with
  | reset w rest hin => exact .inl ⟨w, rest, hin⟩
  | stored w rest _ hin idle size4 => exact .inr ⟨idle, w, rest, hin, size4⟩
  | rejected w rest hp | accepted w rest _ hp => exact .inr ⟨hp.2, _, rest, hp.1, rfl⟩
  | quiet q => exact (kept (by rw [q.regs])).elim
  | completed rest _ _ ht => exact (kept (by rw [ht]; rfl)).elim
  | iterated rest _ _ adv => exact (kept (by rw [adv.regs]; rfl)).elim

/-! ### The command write (rules R22, R80) -/

theorem step_of_presents {s : State} {w : Word} {rest : List HostEvent} (h : presents s w rest) :
    step s = presentCommand exec w (s.takeTurn rest) := by
  rw [step_of_cons h.1]
  exact busWrite_command w h.2

/-- Settles O7: the write presents the word, and the decoder gives exec its command. -/
theorem commandWriteRunsTheDecodedCommand : Obligations.CommandWriteRunsTheDecodedCommand := by
  intro s w i rest hp hw
  rw [step_of_presents hp, presentCommand, hw]

/-! ### Reset (rules R39, R220 to R222) -/

/-- Settles O47: the registers are read one by one, and with no turn waiting the idle engine moves. -/
theorem resetStateHasTheSpecsValues : Obligations.ResetStateHasTheSpecsValues := by
  refine ⟨fun r hr => ?_, rfl, rfl, rfl, rfl, step_of_nil rfl⟩
  cases r with
  | param => exact absurd rfl hr
  | cmd | status | dst | src | msk | count | reserved => rfl

/-- Settles O48: with no iteration under way the reset's memory is the old one, and the turn never looks at the
coincident write. -/
theorem resetLoadsTheRegisters : Obligations.ResetLoadsTheRegisters := by
  intro s w rest hin hquiet
  have hmem : memoryAtReset (s.takeTurn rest) = s.mem :=
    memoryAtReset_same (hquiet.imp_right Or.inl)
  exact ⟨_, step_of_reset hin, rfl, hmem, rfl, rfl, rfl⟩

/-- A pixel at reset is the old one, or is backed and is the computed one. -/
theorem readPixel_memoryAtReset_cases {s : State} (hw : Memory.wf s.mem = true) {j : Nat} (hj : j < activeLanes s) :
    readPixel (memoryAtReset s) (pixelAddr s.eng.iD j) = readPixel s.mem (pixelAddr s.eng.iD j) ∨
      pixelBacked s.cfg (pixelAddr s.eng.iD j) = true ∧
        readPixel (memoryAtReset s) (pixelAddr s.eng.iD j) = laneResult (running s) s j := by
  by_cases hdraw : s.regs.busy = true ∧ s.eng.iN ≠ 0 ∧ readsBacked (running s) s = true
  · obtain ⟨hb, hn, hr⟩ := hdraw
    rw [readPixel_memoryAtReset hb hn hw hr hj]
    split
    · rename_i hc
      rw [resetChoice, Bool.and_eq_true] at hc
      exact .inr ⟨hc.2, rfl⟩
    · exact .inl rfl
  · refine .inl ?_
    rw [memoryAtReset_same (by
      by_contra hno
      simp only [not_or, Bool.not_eq_false] at hno
      exact hdraw hno)]

theorem readsBacked_false {i : Instr} {s : State} {base : Addr} (h : (.read, base) ∈ traffic i s)
    (hb : bufferBacked s.cfg base (activeLanes s) = false) : readsBacked i s = false := by
  rw [readsBacked, List.all_eq_false]
  exact ⟨_, h, by simp [hb]⟩

/-- Settles O59: reset always answers; its memory draws only backed pixels of an iteration whose reads are backed. -/
theorem resetEndsEveryCommand : Obligations.ResetEndsEveryCommand := by
  intro s w rest hin hw
  have hmem : (resetTurn (s.takeTurn rest)).mem = memoryAtReset s := rfl
  refine ⟨_, step_of_reset hin, rfl, rfl, rfl, rfl, ?_, fun j hj => ?_, ?_, fun hno => ?_⟩ <;> rw [hmem]
  · exact wf_memoryAtReset hw
  · exact readPixel_memoryAtReset_cases hw hj
  · exact sameOutside_memoryAtReset hw
  · refine memoryAtReset_same (hno.imp_right (Or.imp_right ?_))
    rintro ⟨base, hq, hb⟩
    exact readsBacked_false hq hb

end Sys2Proof.Machine
end

section
/-! The register block on the bus: what a read receives and what a write stores, at each register and at each byte
offset (spec/10_state.md rules R21 to R29). -/

namespace Sys2Proof.Machine

/-! ### The hardwired bits (rule R24) -/

theorem hardwire_toNat (a : Addr) : (hardwire a).toNat = a.toNat / 4 * 4 := by
  have e : hardwire a = a >>> 2 <<< 2 := (BitVec.shiftLeft_ushiftRight (x := a) (n := 2)).symm
  have ha := a.isLt
  rw [e]
  simp only [BitVec.toNat_shiftLeft, BitVec.toNat_ushiftRight, Nat.shiftLeft_eq, Nat.shiftRight_eq_div_pow]
  omega

theorem hardwire_eq_append (a : Addr) : hardwire a = a.extractLsb' 2 30 ++ 0#2 := by
  have ha := a.isLt
  apply BitVec.eq_of_toNat_eq
  simp only [hardwire_toNat, BitVec.toNat_append, BitVec.extractLsb'_toNat, BitVec.toNat_ofNat, Nat.shiftLeft_eq,
    Nat.shiftRight_eq_div_pow, Nat.zero_mod, Nat.or_zero]
  omega

theorem hardwire_bits (a : Addr) :
    (hardwire a).extractLsb' 2 30 = a.extractLsb' 2 30 ∧ (hardwire a).extractLsb' 0 2 = 0#2 := by
  constructor <;> apply BitVec.eq_of_toNat_eq <;>
    simp only [BitVec.extractLsb'_toNat, hardwire_toNat, Nat.shiftRight_eq_div_pow, BitVec.toNat_ofNat] <;> omega

/-! ### Accesses by offset (rules R27, R28) -/

theorem busRead_offset (s : State) (off : BitVec 8) (size4 : Bool) :
    busRead (s.cfg.regBase + off.setWidth 32) size4 s =
      s.setRdata (if definedAccess size4 off then readRegister (regAt off) s else 0) := by
  rw [busRead, busOffset_base_add]

/-- A write at an offset where no register stores it only takes the turn, idle or busy. -/
theorem busWrite_offset_ignored {run : Instr → State → Res State} {s : State} {off : BitVec 8} {size4 : Bool}
    (v : Word) (h : definedAccess size4 off = true → regAt off = .reserved) :
    busWrite run ⟨s.cfg.regBase + off.setWidth 32, size4, v⟩ s = .next s := by
  simp only [busWrite, busOffset_base_add]
  split
  · rfl
  · split
    · rename_i hd
      rw [h hd]
      rfl
    · rfl

theorem not_definedAccess {size4 : Bool} {off : BitVec 8} (h : size4 = false ∨ off.toNat % 4 ≠ 0) :
    definedAccess size4 off = false := by
  rcases h with rfl | h
  · rfl
  · rw [definedAccess, decide_eq_false h, Bool.and_false]

/-- Settles O13: every offset from 0x1C on names the reserved register, whose value is 0. -/
theorem reservedOffsetsReadZero : Obligations.ReservedOffsetsReadZero := by
  intro s off size4 v rest hoff
  have hres := regAt_reserved hoff
  constructor <;> intro hin <;> rw [step_of_cons hin]
  · refine congrArg Host.Outcome.next ((busRead_offset (s.takeTurn rest) off size4).trans ?_)
    rw [hres, readRegister, ite_self]
    rfl
  · exact busWrite_offset_ignored (s := s.takeTurn rest) v fun _ => hres

/-- Settles O14: such an access is not a defined one, and only a defined one reaches a register. -/
theorem narrowOrMisalignedAccesses : Obligations.NarrowOrMisalignedAccesses := by
  intro s off size4 v rest h
  have hd := not_definedAccess h
  constructor <;> intro hin <;> rw [step_of_cons hin]
  · refine congrArg Host.Outcome.next ((busRead_offset (s.takeTurn rest) off size4).trans ?_)
    rw [hd]
    rfl
  · exact busWrite_offset_ignored (s := s.takeTurn rest) v fun hd' => by rw [hd] at hd'; cases hd'

/-! ### Accesses by register (rules R21 to R26) -/

theorem busRead_register (s : State) (r : RegName) :
    busRead (s.cfg.regBase + r.offset) true s = s.setRdata (readRegister r s) := by
  rw [busRead, busOffset_reg]
  simp only [aligned_offset, regAt_offset, if_true]

theorem busWrite_register {run : Instr → State → Res State} {s : State} {r : RegName} (v : Word)
    (hb : s.regs.busy = false) (hr : r ≠ .cmd) :
    busWrite run ⟨s.cfg.regBase + r.offset, true, v⟩ s = .next (writeRegister r v s) := by
  simp only [busWrite, busOffset_reg, hb, aligned_offset, regAt_offset, hr, if_true, if_false, Bool.false_eq_true]

theorem step_register_read {s : State} {r : RegName} {rest : List HostEvent}
    (hin : s.inputs = .regRead (s.cfg.regBase + r.offset) true :: rest) :
    step s = .next { s.takeTurn rest with hostRdata := readRegister r s } := by
  rw [step_of_cons hin]
  exact congrArg Host.Outcome.next ((busRead_register (s.takeTurn rest) r).trans (by cases r <;> rfl))

theorem step_register_write {s : State} {r : RegName} {v : Word} {rest : List HostEvent}
    (hin : s.inputs = .regWrite ⟨s.cfg.regBase + r.offset, true, v⟩ :: rest) (hb : s.regs.busy = false)
    (hr : r ≠ .cmd) : step s = .next (writeRegister r v (s.takeTurn rest)) := by
  rw [step_of_cons hin]
  exact busWrite_register (s := s.takeTurn rest) v hb hr

/-- Settles O10: a busy block does not look at a write, and a read sets nothing but the received word. -/
theorem busyBlockIgnoresRegisterWrites : Obligations.BusyBlockIgnoresRegisterWrites := by
  intro s rest hb
  refine ⟨fun w hin => ?_, fun a size4 hin => ?_⟩ <;> rw [step_of_cons hin]
  · exact busWrite_busy (s := s.takeTurn rest) w hb
  · rcases busRead_cases a size4 (s.takeTurn rest) with e | ⟨v, e⟩
    · exact ⟨s.hostRdata, congrArg Host.Outcome.next e⟩
    · exact ⟨v, congrArg Host.Outcome.next e⟩

theorem statusWord_eq_add (r : HostRegs) :
    statusWord r = (if r.busy then 1 else 0) + (if r.err then 2 else 0) := by
  unfold statusWord
  cases r.busy <;> cases r.err <;> rfl

theorem paramWord_toNat (cfg : Params) : (paramWord cfg).toNat = cfg.lanes.count := by
  unfold paramWord
  cases cfg.lanes <;> rfl

/-- Settles O11: the read receives `readRegister`, whose value is then read off bit by bit. -/
theorem registerReadsGiveTheirValues : Obligations.RegisterReadsGiveTheirValues := by
  intro s r rest hin
  refine ⟨readRegister r s, step_register_read hin, ?_⟩
  cases r with
  | cmd | count | reserved => rfl
  | status => exact statusWord_eq_add s.regs
  | dst | src | msk => exact hardwire_bits _
  | param => exact paramWord_toNat s.cfg

/-- Settles O12: the write stores `writeRegister`, which hardwires the address registers and drops the rest. -/
theorem registerWritesWhileIdle : Obligations.RegisterWritesWhileIdle := by
  intro s r v rest hin hb
  dsimp only
  rw [← hardwire_eq_append v]
  cases r with
  | cmd => trivial
  | dst | src | msk | count | status | param | reserved =>
    exact step_register_write hin hb (by decide)

end Sys2Proof.Machine
end

section
/-! What an iteration leaves in the datapath registers and on the memory port (spec/10_state.md rules R32 to R35,
spec/43_fast_path.md, spec/44_row_driver.md rule R172), and the placement of the widened lanes. -/

namespace Sys2Proof.Machine

/-! ### The widened halves (rules R33, R100, R101) -/

theorem widen_getElem? (p : Pixel) {k : Nat} (hk : k < 4) : (widen p)[k]? = some ((ch p k).setWidth 16) := by
  obtain rfl | rfl | rfl | rfl : k = 0 ∨ k = 1 ∨ k = 2 ∨ k = 3 := by omega
  all_goals rfl

theorem widenHalf_getElem? {k : Nat} (hk : k < 4) :
    ∀ (V : PixelVector) (j : Nat), j < V.length →
      (widenHalf V)[4 * j + k]? = some ((ch (V.getD j 0) k).setWidth 16)
  | [], _, h => absurd h (Nat.not_lt_zero _)
  | p :: ps, 0, _ => by
    rw [widenHalf, List.getElem?_append_left (by simp only [widen, List.length_cons, List.length_nil]; omega)]
    simpa using widen_getElem? p hk
  | p :: ps, j + 1, h => by
    have ih := widenHalf_getElem? hk ps j (by simpa using h)
    rw [widenHalf, List.getElem?_append_right (by simp only [widen, List.length_cons, List.length_nil]; omega)]
    have e : 4 * (j + 1) + k - (widen p).length = 4 * j + k := by
      simp only [widen, List.length_cons, List.length_nil]; omega
    rw [e, ih]
    rfl

/-- Settles O39: each half is the widened run of its own pixels, taken from or dropped to the middle. -/
theorem widenedHalvesPlaceEveryChannel : Obligations.WidenedHalvesPlaceEveryChannel := by
  intro V h j k hV hj hk
  have hhalf : V.length / 2 = h := by omega
  have htake : (V.take h).length = h := by rw [List.length_take]; omega
  have hdrop : (V.drop h).length = h := by rw [List.length_drop]; omega
  simp only [widenV, hhalf, length_widenHalf, htake, hdrop, and_self, and_true]
  refine ⟨(widenHalf_getElem? hk _ j (by omega)).trans ?_, (widenHalf_getElem? hk _ j (by omega)).trans ?_⟩
  · rw [List.getD_eq_getElem?_getD, List.getD_eq_getElem?_getD, List.getElem?_take_of_lt hj]
  · rw [List.getD_eq_getElem?_getD, List.getD_eq_getElem?_getD, List.getElem?_drop]

/-! ### The source stages -/

/-- What the source stages leave in the datapath beside VE, its half and LM. -/
structure SourceLoaded (i : Instr) (s t : State) : Prop where
  unmasked : i.masked = false → t.dp.VM = s.dp.VM ∧ t.dp.hVM = s.dp.hVM ∧ t.dp.hVS = s.dp.hVS ∧ t.dp.fT = s.dp.fT
  mask     : i.masked = true → t.dp.VM = spanRead s s.eng.iM ∧ t.dp.fT = transparentSpan i s
  skipped  : i.masked = true → transparentSpan i s = true → t.dp.VS = s.dp.VS ∧ t.dp.hVS = s.dp.hVS
  read     : (i.masked = true ∧ transparentSpan i s = true) ∨ t.dp.VS = spanRead s s.eng.iS
  fZ       : t.dp.fZ = s.dp.fZ
  fO       : t.dp.fO = s.dp.fO
  VD       : t.dp.VD = s.dp.VD
  VR       : t.dp.VR = s.dp.VR
  hVD      : t.dp.hVD = s.dp.hVD
  hVR      : t.dp.hVR = s.dp.hVR

theorem combineMask_eq_next {a : Nat} {s t : State} (h : combineMask a s = .next t) :
    ∃ hE, t = s.setDp { s.dp with
      hVS := widenV s.dp.VS, hVM := widenV s.dp.VM, hVE := hE, VE := narrowV hE } := by
  unfold combineMask at h
  dsimp only at h
  split at h
  · exact ⟨_, (Host.Outcome.next.inj h).symm⟩
  · cases h

theorem sourceLoaded_plain {i : Instr} {s t : State} (hm : i.masked = false) (h : Spanned s)
    (ht : plainSource s = .next t) : SourceLoaded i s t := by
  obtain ⟨u, hu, ht⟩ := andThen_eq_next.mp ht
  have r := loadSource_eq_next h hu
  have e : t.dp = { s.dp with VS := spanRead s s.eng.iS, VE := spanRead s s.eng.iS } := by
    rw [← Host.Outcome.next.inj ht, takeSource, State.setDp_dp, r.dp]
  constructor <;> simp [e, hm]

theorem sourceLoaded_masked {i : Instr} {s t : State} (hm : i.masked = true) (h : Spanned s)
    (ht : maskedSource i.ach s = .next t) : SourceLoaded i s t := by
  obtain ⟨u, hu, ht⟩ := andThen_eq_next.mp ht
  have r := loadMask_eq_next h hu
  rw [transparentSpan_iff] at r
  have hT : u.dp.fT = transparentSpan i s := by rw [r.dp]
  rw [hT] at ht
  split at ht
  · rename_i hskip
    have e : t.dp = { u.dp with VE := List.replicate u.lanes 0 } := by
      rw [← Host.Outcome.next.inj ht, clearSource, State.setDp_dp]
    constructor <;> simp [e, r.dp, hm, hskip]
  · rename_i hskip
    obtain ⟨v, hv, ht⟩ := andThen_eq_next.mp ht
    have r' := loadSource_eq_next (h.of_framed r.framed (by rw [r.dp])) hv
    rw [spanRead_congr r.framed r.mem, r.framed.eng, r.dp] at r'
    obtain ⟨hE, rfl⟩ := combineMask_eq_next ht
    constructor <;> simp [r'.dp, hm, hskip]

theorem sourceStage_loads {i : Instr} {s t : State} (h : Spanned s) (ht : sourceStage i s = .next t) :
    SourceLoaded i s t := by
  unfold sourceStage at ht
  split at ht
  · exact sourceLoaded_masked ‹_› h ht
  · rename_i hm
    exact sourceLoaded_plain (Bool.not_eq_true _ ▸ hm) h ht

/-! ### The destination stages -/

/-- The registers that the destination stages only read. -/
structure SourcesKept (d d' : Datapath) : Prop where
  VM  : d'.VM = d.VM
  VS  : d'.VS = d.VS
  VE  : d'.VE = d.VE
  hVM : d'.hVM = d.hVM
  hVS : d'.hVS = d.hVS
  LM  : d'.LM = d.LM
  fT  : d'.fT = d.fT
  fZ  : d'.fZ = d.fZ
  fO  : d'.fO = d.fO

theorem SourcesKept.refl (d : Datapath) : SourcesKept d d := ⟨rfl, rfl, rfl, rfl, rfl, rfl, rfl, rfl, rfl⟩

theorem vwrite_dp {base : Addr} {V : PixelVector} {s t : State} (h : vwrite base V s = .next t) : t.dp = s.dp := by
  obtain ⟨m, -, h⟩ := andThen_eq_next.mp h
  rw [← Host.Outcome.next.inj h]
  rfl

theorem loadDst_dp {s t : State} (h : loadDst s = .next t) : ∃ V, t.dp = { s.dp with VD := V } := by
  obtain ⟨⟨V, u⟩, hv, h⟩ := andThen_eq_next.mp h
  obtain ⟨_, -, hv⟩ := andThen_eq_next.mp hv
  obtain ⟨rfl, rfl⟩ := Prod.mk.inj (Host.Outcome.next.inj hv)
  exact ⟨_, by rw [← Host.Outcome.next.inj h]; rfl⟩

theorem composite_keeps {kernel : Halves → Halves → Option Halves} {finish : PixelVector → Datapath → PixelVector}
    {s t : State} (h : composite kernel finish s = .next t) : SourcesKept s.dp t.dp := by
  obtain ⟨u, hu, h⟩ := andThen_eq_next.mp h
  obtain ⟨v, hv, h⟩ := andThen_eq_next.mp h
  obtain ⟨V, hV⟩ := loadDst_dp hu
  unfold kernelStage at hv
  dsimp only at hv
  split at hv
  · rw [vwrite_dp h, ← Host.Outcome.next.inj hv, State.setDp_dp, hV]
    exact ⟨rfl, rfl, rfl, rfl, rfl, rfl, rfl, rfl, rfl⟩
  · cases hv

/-- The flags of VE that a command tests (rules R161, R164, log entry 15). -/
def testFlags (i : Instr) (d : Datapath) : Datapath :=
  match i with
  | .opOver a | .opOverM a => testOpaque a (testZero d)
  | .opOverrev _ | .opOverrevM _ => testZero d
  | .opOutrev _ | .opOutrevM _ | .opAdd _ | .opAddM _ => d

theorem testFlags_eq (i : Instr) (d : Datapath) :
    testFlags i d = { d with
      fZ := if i.func = 0 ∨ i.func = 1 then isZero d.VE else d.fZ
      fO := if i.func = 0 then isOpaque d.VE i.ach else d.fO } := by
  cases i <;> rfl

/-- A command's tail sets the tested flags and keeps what it only reads; with a zero source Over and OverReverse
write nothing more. -/
theorem tailStage_dp {i : Instr} {s t : State} (h : tailStage i s = .next t) :
    SourcesKept (testFlags i s.dp) t.dp ∧
      (i.func = 0 ∨ i.func = 1 → isZero s.dp.VE = true → t.dp = testFlags i s.dp) := by
  have over_case (a : Nat) (h : overFrom a s = .next t) : SourcesKept (testOpaque a (testZero s.dp)) t.dp ∧
      (isZero s.dp.VE = true → t.dp = testOpaque a (testZero s.dp)) := by
    unfold overFrom at h
    dsimp only at h
    split at h
    · rw [← Host.Outcome.next.inj h, State.setDp_dp]
      exact ⟨.refl _, fun _ => rfl⟩
    · rename_i hz
      refine ⟨?_, fun hz' => absurd hz' hz⟩
      split at h
      · rw [vwrite_dp h]; exact .refl _
      · exact composite_keeps h
  have overrev_case (a : Nat) (h : overrevFrom a s = .next t) : SourcesKept (testZero s.dp) t.dp ∧
      (isZero s.dp.VE = true → t.dp = testZero s.dp) := by
    unfold overrevFrom at h
    dsimp only at h
    split at h
    · rw [← Host.Outcome.next.inj h, State.setDp_dp]
      exact ⟨.refl _, fun _ => rfl⟩
    · rename_i hz
      exact ⟨composite_keeps h, fun hz' => absurd hz' hz⟩
  cases i with
  | opOver a | opOverM a => exact (over_case a h).imp_right fun hz _ => hz
  | opOverrev a | opOverrevM a => exact (overrev_case a h).imp_right fun hz _ => hz
  | opOutrev | opOutrevM | opAdd | opAddM => exact ⟨composite_keeps h, fun hf => by simp [Instr.func] at hf⟩

/-! ### An iteration -/

/-- The datapath of an iteration: its source stages, the tested flags, and what the destination stages keep. -/
theorem exec_datapath {i : Instr} {s t : State} (hi : i.wellFormed = true) (hb : s.regs.busy = true)
    (hn : s.eng.iN ≠ 0) (h : exec i s = .next t) :
    ∃ u, SourceLoaded i s u ∧ u.dp.LM = spanMask s.lanes s.eng.iN ∧
      u.dp.VE = lanesOf s.lanes (laneEffective i s) ∧ SourcesKept (testFlags i u.dp) t.dp ∧
      (i.func = 0 ∨ i.func = 1 → zeroSpan i s = true → t.dp = testFlags i u.dp) := by
  rw [exec_running hb hn] at h
  obtain ⟨v, hv, h⟩ := andThen_eq_next.mp h
  rw [bodyOf_eq] at hv
  obtain ⟨u, hu, hv⟩ := andThen_eq_next.mp hv
  have l := sourceStage_loads (spanned_spanStage s) hu
  have q := sourceStage_eq_next hi (spanned_spanStage s) hu
  have hVE : u.dp.VE = lanesOf s.lanes (laneEffective i s) := q.VE
  have hLM : u.dp.LM = spanMask u.lanes u.eng.iN := q.spanned
  rw [q.framed.lanes, q.framed.eng] at hLM
  have tail := tailStage_dp hv
  rw [hVE, isZero_effective] at tail
  rw [← Host.Outcome.next.inj h]
  exact ⟨u, { l with }, hLM, hVE, tail⟩

theorem effectiveLanes_eq (i : Instr) (s : State) : effectiveLanes i s = lanesOf s.lanes (laneEffective i s) := by
  rw [effectiveLanes, List.range_eq_range']
  refine List.map_congr_left fun j _ => ?_
  split
  · exact (laneEffective_active ‹_›).symm
  · exact (laneEffective_inactive ‹_›).symm

theorem loadedLanes_eq (s : State) (base : Addr) : loadedLanes s base = spanRead s base := by
  rw [loadedLanes, List.range_eq_range']
  rfl

/-- Settles O30: the destination stages only read these registers, so they are as the source stages and the flag
tests left them. -/
theorem iterationLoadsTheDatapath : Obligations.IterationLoadsTheDatapath := by
  intro i s t hi hb hn h
  obtain ⟨u, l, hLM, hVE, k, -⟩ := exec_datapath hi hb hn h
  rw [testFlags_eq] at k
  refine ⟨k.LM.trans hLM, ?_, ?_, fun hm => ?_, fun hf => ?_, fun hf => ?_⟩
  · rw [k.VE, effectiveLanes_eq]; exact hVE
  · rw [k.VS, loadedLanes_eq]; exact l.read
  · rw [k.VM, k.fT, loadedLanes_eq]; exact l.mask hm
  · rw [k.fZ, ← isZero_effective, ← hVE]; exact if_pos hf
  · rw [k.fO, ← isOpaque_effective, ← hVE]; exact if_pos hf

/-- Settles O31: completion leaves the datapath whole, and an iteration's stages write only their own registers. -/
theorem datapathRegistersLeftAlone : Obligations.DatapathRegistersLeftAlone := by
  intro i s t hi hb h
  by_cases hn : s.eng.iN = 0
  · rw [exec_complete hb hn] at h
    have e : t.dp = s.dp := by rw [← Host.Outcome.next.inj h]; rfl
    simp only [e, and_self, implies_true]
  obtain ⟨u, l, -, -, k, hzero⟩ := exec_datapath hi hb hn h
  rw [testFlags_eq] at k hzero
  refine ⟨fun hm => ?_, fun hf => ?_, fun hf => ?_, fun hm hT => ?_, fun hf hz => ?_, fun h0 => absurd h0 hn⟩
  · rw [k.VM, k.hVM, k.hVS, k.fT]; exact l.unmasked hm
  · rw [k.fO]; exact (if_neg hf).trans l.fO
  · rw [k.fZ]
    refine (if_neg ?_).trans l.fZ
    rcases hf with hf | hf <;> rw [hf] <;> decide
  · rw [k.VS, k.hVS]; exact l.skipped hm hT
  · rw [hzero hf hz]; exact ⟨l.VD, l.VR, l.hVD, l.hVR⟩

/-! ### The memory port (rules R38, R62, R164) -/

/-- Settles O32: an iteration's requests are those of the table, and their lane enables are the span mask's. -/
theorem iterationTrafficFollowsTheTable : Obligations.IterationTrafficFollowsTheTable := by
  intro i s t hi hb hn h
  rw [exec_running hb hn] at h
  obtain ⟨new, hport, htraffic, hen⟩ := (iterate_eq_next hi h).port
  refine ⟨new, hport, htraffic, fun m hm => ?_⟩
  rw [hen m hm, List.range_eq_range']
  exact laneEnables_spanMask _ _ _

end Sys2Proof.Machine
end

section
/-! Memory and its agents: the contract at acceptance, the ranges a running command keeps to, the accesses of other
agents, and an iteration whose first read is not backed (spec/20_memory.md, spec/60_exceptions.md rule R203). -/

namespace Sys2Proof.Machine

/-! ### Ranges (rules R57, R61, R70) -/

theorem inRange_iff {base : Addr} {n : Nat} {a : Addr} :
    inRange base n a = true ↔ base.toNat ≤ a.toNat ∧ a.toNat < base.toNat + 4 * n := by
  simp only [inRange, Bool.and_eq_true, decide_eq_true_eq]

theorem wraps_iff {base : Addr} {n : Nat} : wraps base n = true ↔ 2 ^ 32 < base.toNat + 4 * n :=
  decide_eq_true_iff

/-- Two ranges overlap other than exactly when their bases differ and they share an address: then the higher base is
one. -/
theorem overlapsPartly_iff {b c : Addr} {n : Nat} :
    overlapsPartly b c n = true ↔ c ≠ b ∧ ∃ a, inRange b n a = true ∧ inRange c n a = true := by
  simp only [overlapsPartly, Bool.and_eq_true, decide_eq_true_eq, inRange_iff]
  constructor
  · rintro ⟨⟨hne, hbc⟩, hcb⟩
    refine ⟨hne.symm, ?_⟩
    rcases Nat.le_total b.toNat c.toNat with h | h
    · exact ⟨c, by omega, by omega⟩
    · exact ⟨b, by omega, by omega⟩
  · rintro ⟨hne, a, hb, hc⟩
    exact ⟨⟨hne.symm, by omega⟩, by omega⟩

theorem holds_iff {r : Region} {a : Nat} : Region.holds r a = true ↔ r.base ≤ a ∧ a < r.base + r.size := by
  simp only [Region.holds, Bool.and_eq_true, decide_eq_true_eq]

/-- Side effects win where regions overlap (log entry 11). -/
theorem kindAt_eq_sideEffecting {map : List Region} {a : Nat} :
    kindAt map a = some .sideEffecting ↔ ∃ r ∈ map, r.kind = .sideEffecting ∧ Region.holds r a = true := by
  have h : kindAt map a = some .sideEffecting ↔
      map.any (fun r => r.kind == .sideEffecting && Region.holds r a) = true := by
    unfold kindAt
    split_ifs <;> simp_all
  rw [h, List.any_eq_true]
  simp only [Bool.and_eq_true, beq_iff_eq]

/-- A range that does not wrap touches side effects when one of its addresses has them: then the higher of the two
bases is one. -/
theorem touchesSideEffects_iff {map : List Region} {base : Addr} {n : Nat} (hn : n ≠ 0)
    (hw : ¬ 2 ^ 32 < base.toNat + 4 * n) : touchesSideEffects map base n = true ↔
      ∃ a, inRange base n a = true ∧ kindAt map a.toNat = some .sideEffecting := by
  simp only [touchesSideEffects, List.any_eq_true, Bool.and_eq_true, beq_iff_eq, decide_eq_true_eq, inRange_iff,
    kindAt_eq_sideEffecting, holds_iff]
  constructor
  · rintro ⟨r, hr, ⟨⟨hk, hlt⟩, hgt⟩, hsize⟩
    rcases Nat.le_total r.base base.toNat with h | h
    · exact ⟨base, by omega, r, hr, hk, by omega⟩
    · have e : (BitVec.ofNat 32 r.base).toNat = r.base := Nat.mod_eq_of_lt (by omega)
      exact ⟨BitVec.ofNat 32 r.base, by omega, r, hr, hk, by omega⟩
  · rintro ⟨a, ha, r, hr, hk, hra⟩
    exact ⟨r, hr, ⟨⟨hk, by omega⟩, by omega⟩, by omega⟩

theorem usedBases_eq (masked : Bool) (r : HostRegs) : usedBases masked r =
    [hardwire r.dst, hardwire r.src] ++ (if masked then [hardwire r.msk] else []) := by
  cases masked <;> rfl

theorem mem_usedBases {masked : Bool} {r : HostRegs} {b : Addr} : b ∈ usedBases masked r ↔
    b = hardwire r.dst ∨ b = hardwire r.src ∨ (masked = true ∧ b = hardwire r.msk) := by
  cases masked <;> simp [usedBases]

/-! ### The contract at acceptance (rules R59, R61, R70, R203) -/

theorem accept_refused {i : Instr} {s : State} {r : Refusal}
    (h : contractViolation i.masked s.cfg s.regs = some r) : accept i s = .refused r := by
  rw [accept, h]

theorem accept_next {i : Instr} {s : State} (h : contractViolation i.masked s.cfg s.regs = none) :
    accept i s = .next (accepted i s) := by
  rw [accept, h]

/-- Settles O19: each test of `contractViolation` says over the used bases what the statement says of addresses; that
a region meets a range at an address of the space needs that the range does not wrap. -/
theorem contractBreakingCommandsAreRefused : Obligations.ContractBreakingCommandsAreRefused := by
  intro i s hb hcount n d used wrapping overlapping device
  have hn : n ≠ 0 := fun h => hcount (BitVec.eq_of_toNat_eq h)
  have hused : usedBases i.masked s.regs = used := usedBases_eq _ _
  have hwrap : (usedBases i.masked s.regs).any (fun b => wraps b n) = true ↔ wrapping := by
    rw [List.any_eq_true, hused]
    exact exists_congr fun b => and_congr_right fun _ => wraps_iff
  have hover : (usedBases i.masked s.regs).any (fun b => overlapsPartly (hardwire s.regs.dst) b n) = true ↔
      overlapping := by
    rw [List.any_eq_true, hused]
    exact exists_congr fun b => and_congr_right fun _ => overlapsPartly_iff
  have hdev (hw : ¬ wrapping) :
      (usedBases i.masked s.regs).any (fun b => touchesSideEffects s.cfg.memMap b n) = true ↔ device := by
    rw [List.any_eq_true, hused]
    exact exists_congr fun b => and_congr_right fun hb => touchesSideEffects_iff hn fun h => hw ⟨b, hb, h⟩
  rw [exec_idle hb]
  refine ⟨fun hw => accept_refused ?_, fun hw ho => accept_refused ?_, fun hw ho hd => accept_refused ?_,
    fun hw ho hd => ⟨_, accept_next ?_, decide_eq_true hcount⟩⟩ <;> rw [contractViolation, if_neg hn]
  · rw [if_pos (hwrap.mpr hw)]
  · rw [if_neg (mt hwrap.mp hw), if_pos (hover.mpr ho)]
  · rw [if_neg (mt hwrap.mp hw), if_neg (mt hover.mp ho), if_pos ((hdev hw).mpr hd)]
  · rw [if_neg (mt hwrap.mp hw), if_neg (mt hover.mp ho), if_neg (mt (hdev hw).mp hd)]

/-- A command that keeps the contract has no used range that wraps. -/
theorem usedBases_not_wrapping {masked : Bool} {cfg : Params} {r : HostRegs}
    (h : contractViolation masked cfg r = none) {b : Addr} (hb : b ∈ usedBases masked r) :
    b.toNat + 4 * r.count.toNat ≤ 2 ^ 32 := by
  by_contra hw
  have hany : (usedBases masked r).any (fun b => wraps b r.count.toNat) = true :=
    List.any_eq_true.mpr ⟨b, hb, wraps_iff.mpr (by omega)⟩
  have hn : r.count.toNat ≠ 0 := fun h0 => by have := b.isLt; omega
  simp only [contractViolation, hn, hany, if_true, if_false, reduceCtorEq] at h

/-! ### The ranges of a running command (rule R57) -/

/-- Pixels `done` to `done + k - 1` of a buffer that does not wrap lie in its range. -/
theorem inRange_of_bufferHolds {base c : Addr} {done k n : Nat} (hw : base.toNat + 4 * n ≤ 2 ^ 32)
    (hk : done + k ≤ n) (h : bufferHolds (pixelAddr base done) k c = true) : inRange base n c = true := by
  obtain ⟨j, hj, hp⟩ := bufferHolds_eq_true.mp h
  rw [pixelAddr_add, ofPixel_iff] at hp
  rw [inRange_iff]
  unfold pixelAddr at hp
  bv_omega

theorem pixelsDone_add_activeLanes {s : State} (h : Running s) :
    pixelsDone s + activeLanes s ≤ s.regs.count.toNat := by
  have hleft := h.left
  have hk : activeLanes s ≤ s.eng.iN.toNat := Nat.min_le_left _ _
  unfold pixelsDone
  omega

/-- The pixels of the next iteration lie in the buffer's range, for each buffer that the command uses. -/
theorem Running.inRange_of_next {s : State} (h : Running s) {b c : Addr} (hb : b ∈ usedBases s.eng.cM s.regs)
    (hc : bufferHolds (pixelAddr b (pixelsDone s)) (activeLanes s) c = true) :
    inRange b s.regs.count.toNat c = true :=
  inRange_of_bufferHolds (usedBases_not_wrapping h.contract hb) (pixelsDone_add_activeLanes h) hc

theorem Running.inRange_dst {s : State} (h : Running s) {c : Addr}
    (hc : bufferHolds s.eng.iD (activeLanes s) c = true) :
    inRange (hardwire s.regs.dst) s.regs.count.toNat c = true :=
  h.inRange_of_next (mem_usedBases.mpr (.inl rfl)) (h.dst ▸ hc)

theorem Running.inRange_src {s : State} (h : Running s) {c : Addr}
    (hc : bufferHolds s.eng.iS (activeLanes s) c = true) :
    inRange (hardwire s.regs.src) s.regs.count.toNat c = true :=
  h.inRange_of_next (mem_usedBases.mpr (.inr (.inl rfl))) (h.src ▸ hc)

theorem Running.inRange_msk {s : State} (h : Running s) (hm : s.eng.cM = true) {c : Addr}
    (hc : bufferHolds s.eng.iM (activeLanes s) c = true) :
    inRange (hardwire s.regs.msk) s.regs.count.toNat c = true :=
  h.inRange_of_next (mem_usedBases.mpr (.inr (.inr ⟨hm, rfl⟩))) (by rwa [h.msk, if_pos hm] at hc)

theorem tailTraffic_base {i : Instr} {s : State} {q : AccessKind × Addr} (h : q ∈ tailTraffic i s) :
    q.2 = s.eng.iD := by
  have sub : tailTraffic i s ⊆ [(.read, s.eng.iD), (.write, s.eng.iD)] := by
    cases i <;> unfold tailTraffic <;> split_ifs <;> simp
  rcases List.mem_cons.mp (sub h) with rfl | h
  · rfl
  · rw [List.mem_singleton.mp h]

/-- Every write of an iteration is at the destination (rule R164). -/
theorem base_of_write_mem_traffic {i : Instr} {s : State} {base : Addr} (h : (.write, base) ∈ traffic i s) :
    base = s.eng.iD := by
  rw [traffic_eq] at h
  rcases List.mem_append.mp h with h | h
  · split_ifs at h <;> simp at h
  · exact tailTraffic_base h

/-- An enabled lane of an iteration's request is one of the active lanes. -/
theorem active_of_laneEn {s : State} {j : Nat} (h : (laneEnables (spanMask s.lanes s.eng.iN))[j]? = some true) :
    j < activeLanes s := by
  rw [spanMask, laneEnables_spanMask, List.getElem?_map, Option.map_eq_some_iff] at h
  obtain ⟨l, hl, hlt⟩ := h
  obtain ⟨hj, rfl⟩ := List.getElem?_eq_some_iff.mp hl
  simpa [activeLanes] using hlt

theorem bufferHolds_lane {base : Addr} {k j b : Nat} (hj : j < k) (hb : b < 4) :
    bufferHolds base k (pixelAddr base j + BitVec.ofNat 32 b) = true := by
  refine bufferHolds_eq_true.mpr ⟨j, hj, (ofPixel_iff _ _).mpr ?_⟩
  rw [BitVec.add_comm, BitVec.add_sub_cancel, BitVec.toNat_ofNat]
  omega

/-- The engine's turn of a busy block runs the latched command. -/
theorem step_of_engine {s : State} (hb : s.regs.busy = true)
    (hin : s.inputs = [] ∨ ∃ rest, s.inputs = .engine :: rest) :
    ∃ rest, step s = exec (running s) (s.takeTurn rest) := by
  rcases hin with hin | ⟨rest, hin⟩
  · exact ⟨[], (step_of_nil hin).trans (if_pos hb)⟩
  · exact ⟨rest, (step_of_cons hin).trans (if_pos hb)⟩

/-- Settles O34: completion accesses nothing, and an iteration accesses the next active pixels of its buffers, which
the contract and the lockstep keep in the ranges. -/
theorem accessesStayInTheRanges : Obligations.AccessesStayInTheRanges := by
  intro s t hinv hb hin hstep
  have hrun := hinv.running hb
  obtain ⟨rest, he⟩ := step_of_engine hb hin
  rw [he] at hstep
  rcases exec_cases (running_wellFormed s) hstep with ⟨hidle, -⟩ | ⟨-, -, rfl⟩ | ⟨-, -, adv⟩
  · exact absurd (hb.symm.trans hidle) (by decide)
  · exact ⟨fun m hm => absurd hm List.not_mem_nil, fun a _ => rfl⟩
  obtain ⟨new, hport, htraffic, hen⟩ := adv.port
  rw [← hinv.dst, ← hinv.src, ← hinv.msk]
  refine ⟨fun m hm j b hj hb4 => ?_, fun a ha => ?_⟩
  · have hm : m ∈ new := by rw [hport] at hm; exact hm
    have hlane : bufferHolds m.base (activeLanes s) (pixelAddr m.base j + BitVec.ofNat 32 b) = true :=
      bufferHolds_lane (active_of_laneEn (by rw [hen m hm] at hj; exact hj)) hb4
    have hmem : (m.kind, m.base) ∈ traffic (running s) (s.takeTurn rest) := htraffic ▸ List.mem_map_of_mem hm
    dsimp only
    split
    · rename_i hk
      rw [hk] at hmem
      exact hrun.inRange_dst (base_of_write_mem_traffic hmem ▸ hlane)
    · rcases base_of_mem_traffic hmem with e | e | ⟨hM, e⟩
      · exact .inl (hrun.inRange_dst (e ▸ hlane))
      · exact .inr (.inl (hrun.inRange_src (e ▸ hlane)))
      · rw [running_masked] at hM
        exact .inr (.inr ⟨hM, hrun.inRange_msk hM (e ▸ hlane)⟩)
  · refine (adv.outside hinv.mem).2 a ?_
    by_contra hh
    rw [hrun.inRange_dst (Bool.not_eq_false _ ▸ hh)] at ha
    cases ha

/-! ### Other agents (rules R65, R71, R72, R203) -/

theorem inUsedRange_iff {s : State} {a : Addr} : inUsedRange s a = true ↔ s.regs.busy = true ∧
    (inRange (hardwire s.regs.dst) s.regs.count.toNat a = true ∨
      inRange (hardwire s.regs.src) s.regs.count.toNat a = true ∨
      (s.eng.cM = true ∧ inRange (hardwire s.regs.msk) s.regs.count.toNat a = true)) := by
  simp only [inUsedRange, Bool.and_eq_true, List.any_eq_true, mem_usedBases, or_and_right, and_assoc, exists_or,
    exists_and_left, exists_eq_left]

/-- Settles O50: a race is asked for before anything else, in a write over the used ranges and in a read over the
destination's. -/
theorem racingAccesses : Obligations.RacingAccesses := by
  intro s a b rest hb n
  refine ⟨fun hin hr => ?_, fun hin hr => ?_⟩ <;> rw [step_of_cons hin]
  · exact if_pos (inUsedRange_iff.mpr ⟨hb, hr⟩)
  · exact if_pos (by rw [Bool.and_eq_true]; exact ⟨hb, hr⟩)

theorem plainAt_iff {cfg : Params} {a : Addr} : plainAt cfg a = true ↔ kindAt cfg.memMap a.toNat = some .plain :=
  beq_iff_eq

theorem checkByte_unbacked {cfg : Params} {a : Addr} (h : kindAt cfg.memMap a.toNat = none) :
    checkByte cfg a = .fault (.unbacked a) := by rw [checkByte, h]

theorem checkByte_sideEffecting {cfg : Params} {a : Addr} (h : kindAt cfg.memMap a.toNat = some .sideEffecting) :
    checkByte cfg a = .refused .sideEffectingMemory := by rw [checkByte, h]

/-- What follows the check of a byte, by what the platform has at its address. -/
theorem andThen_checkByte {α : Type} {cfg : Params} {a : Addr} {f : Unit → Res α} :
    (kindAt cfg.memMap a.toNat = some .plain → andThen (checkByte cfg a) f = f ()) ∧
    (kindAt cfg.memMap a.toNat = none → andThen (checkByte cfg a) f = .fault (.unbacked a)) ∧
    (kindAt cfg.memMap a.toNat = some .sideEffecting →
      andThen (checkByte cfg a) f = .refused .sideEffectingMemory) := by
  refine ⟨fun hk => ?_, fun hk => ?_, fun hk => ?_⟩
  · rw [checkByte_of_plain (plainAt_iff.mpr hk), andThen_next]
  · rw [checkByte_unbacked hk, andThen]
  · rw [checkByte_sideEffecting hk, andThen]

/-- An agent's write that does not race is checked and stored. -/
theorem step_memWrite {s : State} {a : Addr} {b : Byte} {rest : List HostEvent}
    (hin : s.inputs = .memWrite a b :: rest) (hr : inUsedRange s a = false) :
    step s = andThen (checkByte s.cfg a) fun _ => .next { s.takeTurn rest with mem := setByte s.mem a b } := by
  rw [step_of_cons hin]
  exact if_neg (Bool.eq_false_iff.mp hr)

/-- An agent's read that does not race is checked and receives the byte. -/
theorem step_memRead {s : State} {a : Addr} {rest : List HostEvent} (hin : s.inputs = .memRead a :: rest)
    (hr : (s.regs.busy && inRange (hardwire s.regs.dst) s.regs.count.toNat a) = false) :
    step s = andThen (checkByte s.cfg a) fun _ => .next { s.takeTurn rest with hostByte := byteAt s.mem a } := by
  rw [step_of_cons hin]
  exact if_neg (Bool.eq_false_iff.mp hr)

/-- An agent's write that does not race, by what the platform has at the address. -/
theorem step_memWrite_byKind {s : State} {a : Addr} {b : Byte} {rest : List HostEvent}
    (hin : s.inputs = .memWrite a b :: rest) (hr : inUsedRange s a = false) (hw : Memory.wf s.mem = true) :
    (kindAt s.cfg.memMap a.toNat = some .plain →
      ∃ m, step s = .next { s.takeTurn rest with mem := m } ∧ Memory.wf m = true ∧ byteAt m a = b ∧
        ∀ c, c ≠ a → byteAt m c = byteAt s.mem c) ∧
    (kindAt s.cfg.memMap a.toNat = none → step s = .fault (.unbacked a)) ∧
    (kindAt s.cfg.memMap a.toNat = some .sideEffecting → step s = .refused .sideEffectingMemory) := by
  rw [step_memWrite hin hr]
  refine andThen_checkByte.imp_left fun hplain hk =>
    ⟨setByte s.mem a b, hplain hk, wf_setByte a b hw, ?_, fun c hc => ?_⟩
  · rw [byteAt_setByte hw, if_pos rfl]
  · rw [byteAt_setByte hw, if_neg hc]

/-- An agent's read that does not race, by what the platform has at the address. -/
theorem step_memRead_byKind {s : State} {a : Addr} {rest : List HostEvent} (hin : s.inputs = .memRead a :: rest)
    (hr : (s.regs.busy && inRange (hardwire s.regs.dst) s.regs.count.toNat a) = false) :
    (kindAt s.cfg.memMap a.toNat = some .plain →
      step s = .next { s.takeTurn rest with hostByte := byteAt s.mem a }) ∧
    (kindAt s.cfg.memMap a.toNat = none → step s = .fault (.unbacked a)) ∧
    (kindAt s.cfg.memMap a.toNat = some .sideEffecting → step s = .refused .sideEffectingMemory) := by
  rw [step_memRead hin hr]
  exact andThen_checkByte

/-- Settles O51: an idle block uses no range, so no access of an agent races. -/
theorem agentAccessesWhileIdle : Obligations.AgentAccessesWhileIdle := by
  intro s a b rest hidle hw
  refine ⟨fun hin => step_memWrite_byKind hin ?_ hw, fun hin => step_memRead_byKind hin ?_⟩
  · rw [inUsedRange, hidle, Bool.false_and]
  · rw [hidle, Bool.false_and]

/-- Settles O60: an access outside the ranges it could race with goes as in an idle block. -/
theorem nonRacingAccessesWhileBusy : Obligations.NonRacingAccessesWhileBusy := by
  intro s a b rest _ hw n hdst
  refine ⟨fun hin hsrc hmsk => step_memWrite_byKind hin (Bool.eq_false_iff.mpr fun hr => ?_) hw,
    fun hin => step_memRead_byKind hin ?_⟩
  · obtain ⟨-, h | h | ⟨hM, h⟩⟩ := inUsedRange_iff.mp hr
    · exact absurd (hdst.symm.trans h) (by decide)
    · exact absurd (hsrc.symm.trans h) (by decide)
    · exact absurd ((hmsk hM).symm.trans h) (by decide)
  · exact (congrArg (s.regs.busy && ·) hdst).trans (Bool.and_false _)

/-! ### Reads that are not backed (rules R72, R203) -/

@[simp] theorem andThen_fault {α β : Type} (r : Fault) (f : α → Res β) :
    andThen (.fault r : Res α) f = .fault r := rfl

/-- The outcome is the fault of an address that no region backs and that is one of `P`. -/
def StuckIn {α : Type} (cfg : Params) (P : Addr → Prop) (o : Res α) : Prop :=
  ∃ a, o = .fault (.unbacked a) ∧ P a ∧ kindAt cfg.memMap a.toNat = none

theorem StuckIn.andThen {α β : Type} {cfg : Params} {P : Addr → Prop} {o : Res α} (h : StuckIn cfg P o)
    (f : α → Res β) : StuckIn cfg P (Machine.andThen o f) := by
  obtain ⟨a, rfl, hP, hk⟩ := h
  exact ⟨a, rfl, hP, hk⟩

/-- The outcome is an answer, or is stuck at one of `P`. -/
def AnswersOrStuckIn {α : Type} (cfg : Params) (P : Addr → Prop) (o : Res α) : Prop :=
  (∃ x, o = .next x) ∨ StuckIn cfg P o

theorem AnswersOrStuckIn.andThen {α β : Type} {cfg : Params} {P : Addr → Prop} {o : Res α} {f : α → Res β}
    (h : AnswersOrStuckIn cfg P o) (hf : ∀ x, AnswersOrStuckIn cfg P (f x)) :
    AnswersOrStuckIn cfg P (Machine.andThen o f) := by
  rcases h with ⟨x, rfl⟩ | h
  · exact hf x
  · exact .inr (h.andThen f)

theorem answersOrStuckIn_next {α : Type} {cfg : Params} {P : Addr → Prop} (x : α) :
    AnswersOrStuckIn cfg P (.next x) := .inl ⟨x, rfl⟩

section PlainPlatform

variable {cfg : Params} {P : Addr → Prop}

theorem checkByte_answersOrStuckIn (hmap : ∀ r ∈ cfg.memMap, r.kind = .plain) {a : Addr} (ha : P a) :
    AnswersOrStuckIn cfg P (checkByte cfg a) := by
  rcases hk : kindAt cfg.memMap a.toNat with _ | _ | _
  · exact .inr ⟨a, checkByte_unbacked hk, ha, hk⟩
  · exact .inl ⟨(), checkByte_of_plain (plainAt_iff.mpr hk)⟩
  · obtain ⟨r, hr, hse, -⟩ := kindAt_eq_sideEffecting.mp hk
    rw [hmap r hr] at hse
    cases hse

theorem memRead_answersOrStuckIn (hmap : ∀ r ∈ cfg.memMap, r.kind = .plain) (m : Memory) {a : Addr}
    (ha : ∀ c, ofPixel a c → P c) : AnswersOrStuckIn cfg P (memRead cfg m a) := by
  have byte (c : Addr) (hc : ofPixel a c) := checkByte_answersOrStuckIn hmap (ha c hc)
  refine .andThen ?_ fun _ => answersOrStuckIn_next _
  exact (byte a (.inl rfl)).andThen fun _ => (byte (a + 1) (.inr (.inl rfl))).andThen fun _ =>
    (byte (a + 2) (.inr (.inr (.inl rfl)))).andThen fun _ => byte (a + 3) (.inr (.inr (.inr rfl)))

theorem vecRead_answersOrStuckIn (hmap : ∀ r ∈ cfg.memMap, r.kind = .plain) (m : Memory) {base : Addr} {k : Nat} :
    ∀ w i : Nat, AnswersOrStuckIn cfg (fun a => bufferHolds base k a = true)
      (vecRead cfg m (pixelAddr base i) (spanMaskFrom k i w))
  | 0, _ => answersOrStuckIn_next _
  | w + 1, i => by
    rw [spanMaskFrom_head, vecRead, pixelAddr_succ]
    refine .andThen ?_ fun p => (vecRead_answersOrStuckIn hmap m w (i + 1)).andThen fun _ => answersOrStuckIn_next _
    by_cases hi : i < k
    · rw [if_pos hi, if_pos rfl]
      exact memRead_answersOrStuckIn hmap m fun c hc => bufferHolds_eq_true.mpr ⟨i, hi, hc⟩
    · rw [if_neg hi, if_neg active_ne_inactive]
      exact answersOrStuckIn_next _

end PlainPlatform

/-- A vector read of a buffer that is not backed throughout is stuck at one of its pixels. -/
theorem vread_stuckIn {s : State} {base : Addr} (hmap : ∀ r ∈ s.cfg.memMap, r.kind = .plain) (h : Spanned s)
    (hb : bufferBacked s.cfg base (activeLanes s) = false) :
    StuckIn s.cfg (fun a => bufferHolds base (activeLanes s) a = true) (vread base s) := by
  unfold vread
  rw [h]
  refine StuckIn.andThen ?_ _
  have hread := vecRead_answersOrStuckIn hmap s.mem (base := base) (k := activeLanes s) s.lanes 0
  rw [pixelAddr_zero] at hread
  rcases hread with ⟨V, hV⟩ | hstuck
  · exact absurd (hb.symm.trans (vecRead_span_next hV).2) (by decide)
  · exact hstuck

/-- The first read of a command: the mask of a masked command, else the source (rule R62). -/
theorem sourceStage_stuckIn {i : Instr} {s : State} {P : Addr → Prop}
    (h : StuckIn s.cfg P (vread (if i.masked then s.eng.iM else s.eng.iS) s)) : StuckIn s.cfg P (sourceStage i s) := by
  unfold sourceStage
  split
  · rename_i hm
    rw [if_pos hm] at h
    exact (h.andThen _).andThen _
  · rename_i hm
    rw [if_neg hm] at h
    exact (h.andThen _).andThen _

/-- Settles O52: the first read is stuck at one of its pixels, and nothing after it is reached. -/
theorem unbackedReadsAreStuck : Obligations.UnbackedReadsAreStuck := by
  intro i s _ hb hn hmap base hback
  have hread := vread_stuckIn (s := spanStage s) hmap (spanned_spanStage s) hback
  have hbody := (sourceStage_stuckIn (s := spanStage s) hread).andThen (tailStage i)
  rw [← bodyOf_eq] at hbody
  rw [exec_running hb hn]
  exact hbody.andThen _

end Sys2Proof.Machine
end

section
/-! The command word: decoder and encoder are inverse, and which words are legal; then WAIT and the
pseudo-instructions (spec/30_encoding.md). -/

namespace Sys2Proof.Machine

/-! ### The fields of a word as numbers (rule R81) -/

theorem fieldReserved_toNat (w : Word) : (fieldReserved w).toNat = w.toNat / 128 := by
  have hw := w.isLt
  rw [fieldReserved, BitVec.extractLsb'_toNat, Nat.shiftRight_eq_div_pow]
  omega

theorem fieldFUNC_toNat (w : Word) : (fieldFUNC w).toNat = w.toNat % 16 := BitVec.extractLsb'_toNat 0 4 w

theorem fieldM_toNat (w : Word) : (fieldM w).toNat = w.toNat / 16 % 2 := by
  rw [fieldM, BitVec.getLsbD, Nat.toNat_testBit]

theorem fieldACH_toNat (w : Word) : (fieldACH w).toNat = w.toNat / 32 % 4 := by
  rw [fieldACH, BitVec.extractLsb'_toNat, Nat.shiftRight_eq_div_pow]

theorem fieldReserved_eq_zero_iff (w : Word) :
    fieldReserved w = 0#25 ↔ ∀ b, 7 ≤ b → b < 32 → w.getLsbD b = false := by
  constructor
  · intro h b h7 h32
    have hb := congrArg (fun r : BitVec 25 => r.getLsbD (b - 7)) h
    simpa [fieldReserved, BitVec.getLsbD_extractLsb', show b - 7 < 25 by omega,
      show 7 + (b - 7) = b by omega] using hb
  · intro h
    refine BitVec.eq_of_getLsbD_eq fun b hb => ?_
    rw [fieldReserved, BitVec.getLsbD_extractLsb', h (7 + b) (by omega) (by omega), BitVec.getLsbD_zero,
      Bool.and_false]

theorem legal_iff_toNat (w : Word) : legal w = true ↔ w.toNat < 128 ∧ w.toNat % 16 ≤ 3 := by
  rw [legal_iff_fields, ← BitVec.toNat_inj, fieldReserved_toNat, fieldFUNC_toNat, BitVec.toNat_ofNat]
  omega

/-! ### The decoder (rules R86, R89) -/

/-- The command a word's fields name, whatever its other bits are. -/
def namedCommand (w : Word) : Instr := ofFields (w.extractLsb' 0 2) (fieldM w) (fieldACH w)

theorem decode_of_legal {w : Word} (h : legal w = true) : decode w = .ok (namedCommand w) := by
  obtain ⟨hr, hf⟩ := (legal_iff_fields w).mp h
  rw [decode, if_neg (not_not.mpr hr), if_neg (Nat.not_lt.mpr hf), namedCommand]

theorem decode_eq_ok_iff (w : Word) (i : Instr) : decode w = .ok i ↔ legal w = true ∧ namedCommand w = i := by
  constructor
  · intro h
    have hl := legal_of_decode h
    rw [decode_of_legal hl] at h
    exact ⟨hl, Except.ok.inj h⟩
  · rintro ⟨hl, rfl⟩
    exact decode_of_legal hl

theorem exists_decode_error_iff (w : Word) : (∃ e, decode w = .error e) ↔ legal w = false := by
  constructor
  · rintro ⟨e, he⟩
    exact not_legal_of_decode_error he
  · intro hl
    cases hd : decode w with
    | error e => exact ⟨e, rfl⟩
    | ok i => rw [legal_of_decode hd] at hl; cases hl

/-! ### The encoder (rules R81, R88) -/

/-- The word of each of the 32 commands, its fields at their places (rule R81). -/
theorem encode_ofFields_toNat (f : BitVec 2) (m : Bool) (a : BitVec 2) :
    (encode (ofFields f m a)).toNat = f.toNat + 16 * m.toNat + 32 * a.toNat := by
  revert f m a
  decide

theorem namedCommand_encode {i : Instr} (h : i.wellFormed = true) : namedCommand (encode i) = i := by
  have hw := encode_ofFields_toNat i.func i.masked (BitVec.ofNat 2 i.ach)
  rw [ofFields_of_wellFormed h] at hw
  have hf := i.func.isLt
  have hm := i.masked.toNat_le
  have ha := (BitVec.ofNat 2 i.ach).isLt
  have ef : (encode i).extractLsb' 0 2 = i.func := by
    apply BitVec.eq_of_toNat_eq
    rw [BitVec.extractLsb'_toNat, Nat.shiftRight_zero, hw]
    omega
  have em : fieldM (encode i) = i.masked := by
    apply (Bool.injective_iff (f := Bool.toNat)).mpr Nat.zero_ne_one
    rw [fieldM_toNat, hw]
    omega
  have ea : fieldACH (encode i) = BitVec.ofNat 2 i.ach := by
    apply BitVec.eq_of_toNat_eq
    rw [fieldACH_toNat, hw]
    omega
  rw [namedCommand, ef, em, ea, ofFields_of_wellFormed h]

theorem encode_namedCommand {w : Word} (h : legal w = true) : encode (namedCommand w) = w := by
  obtain ⟨hr, hf⟩ := (legal_iff_toNat w).mp h
  have e0 : (w.extractLsb' 0 2).toNat = w.toNat % 4 := BitVec.extractLsb'_toNat 0 2 w
  apply BitVec.eq_of_toNat_eq
  rw [namedCommand, encode_ofFields_toNat, e0, fieldM_toNat, fieldACH_toNat]
  omega

theorem ach_ofFields (f : BitVec 2) (m : Bool) (a : BitVec 2) : (ofFields f m a).ach = a.toNat := by
  unfold ofFields
  split_ifs <;> rfl

theorem encode_and_mask {i : Instr} (h : i.wellFormed = true) : encode i &&& 0xFFFFFF9F#32 = i.matchWord := by
  cases i with
  | opOver a => exact Laws.EncodeMatch.opOver a h
  | opOverM a => exact Laws.EncodeMatch.opOverM a h
  | opOverrev a => exact Laws.EncodeMatch.opOverrev a h
  | opOverrevM a => exact Laws.EncodeMatch.opOverrevM a h
  | opOutrev a => exact Laws.EncodeMatch.opOutrev a h
  | opOutrevM a => exact Laws.EncodeMatch.opOutrevM a h
  | opAdd a => exact Laws.EncodeMatch.opAdd a h
  | opAddM a => exact Laws.EncodeMatch.opAddM a h

/-- The mask of rule R88 leaves out exactly ACH, which the encoder puts back. -/
theorem and_mask_or_ach (w : Word) :
    (w &&& 0xFFFFFF9F#32) ||| (BitVec.ofNat 32 (fieldACH w).toNat <<< 5) = w := by
  have hmask : ∀ b < 32, (0xFFFFFF9F#32).getLsbD b = !(decide (5 ≤ b) && decide (b < 7)) := by decide
  refine BitVec.eq_of_getLsbD_eq fun b hb => ?_
  rw [BitVec.getLsbD_or, BitVec.getLsbD_and, hmask b hb, BitVec.getLsbD_shiftLeft, BitVec.ofNat_toNat,
    BitVec.getLsbD_setWidth, fieldACH, BitVec.getLsbD_extractLsb']
  by_cases h5 : 5 ≤ b
  · by_cases h7 : b < 7
    · simp [h5, h7, hb, show 5 + (b - 5) = b by omega, show b - 5 < 2 by omega, show b - 5 < 32 by omega,
        show ¬ b < 5 by omega]
    · simp [h7, show ¬ b - 5 < 2 by omega]
  · simp [h5, show b < 5 by omega]

/-! ### The statements of the encoding -/

/-- Settles O1: the word of a well-formed command is legal, and its fields name the command. -/
theorem encodedCommandDecodesToItself : Obligations.EncodedCommandDecodesToItself := by
  intro i h
  exact (decode_eq_ok_iff _ i).mpr ⟨legal_encode h, namedCommand_encode h⟩

/-- Settles O2: a word that decodes is legal, and nothing of a legal word lies outside the fields. -/
theorem decodedWordIsItsEncoding : Obligations.DecodedWordIsItsEncoding := by
  intro w i h
  refine ⟨wellFormed_of_decode h, ?_⟩
  obtain ⟨hl, rfl⟩ := (decode_eq_ok_iff w i).mp h
  exact encode_namedCommand hl

/-- Settles O3: the legal words are those below 128 with [3:0] at most 3, which are the sums of their fields. -/
theorem legalWordsAreTheThirtyTwo : Obligations.LegalWordsAreTheThirtyTwo := by
  intro w
  refine ⟨legal_iff_fields w, ⟨fun hl => ⟨_, decode_of_legal hl⟩, fun ⟨_, hi⟩ => legal_of_decode hi⟩, ?_⟩
  rw [legal_iff_toNat]
  constructor
  · rintro ⟨hr, hf⟩
    refine ⟨w.toNat % 4, w.toNat / 16 % 2, w.toNat / 32, by omega, by omega, by omega, ?_⟩
    rw [show w.toNat % 4 + 16 * (w.toNat / 16 % 2) + 32 * (w.toNat / 32) = w.toNat by omega,
      BitVec.ofNat_toNat, BitVec.setWidth_eq]
  · rintro ⟨f, m, a, hf, hm, ha, rfl⟩
    rw [BitVec.toNat_ofNat]
    omega

/-- Settles O4: the words that are rejected are the illegal ones, and a word is illegal by FUNC or by a set bit. -/
theorem illegalWordsAreRejected : Obligations.IllegalWordsAreRejected := by
  intro w
  rw [exists_decode_error_iff, ← Bool.not_eq_true, legal_iff_fields, fieldReserved_eq_zero_iff, not_and_or, or_comm,
    not_le]
  refine or_congr Iff.rfl ?_
  push Not
  simp only [Bool.not_eq_false]

/-- Settles O5: outside ACH the word is the match word, and with ACH put back it is the command's encoding. -/
theorem wordsMatchTheOpcodeTable : Obligations.WordsMatchTheOpcodeTable := by
  intro w i
  constructor
  · intro h
    obtain ⟨hl, rfl⟩ := (decode_eq_ok_iff w i).mp h
    refine ⟨?_, ach_ofFields _ _ _⟩
    rw [← encode_and_mask (wellFormed_of_decode h), encode_namedCommand hl]
  · rintro ⟨hmatch, hach⟩
    have hw : encode i = w := by
      rw [encode, ← hmatch, hach]
      exact and_mask_or_ach w
    have hwf : i.wellFormed = true := by
      rw [Instr.wellFormed, hach]
      exact decide_eq_true (fieldACH w).isLt
    rw [← hw]
    exact encodedCommandDecodesToItself i hwf

/-- Settles O6: the decoder runs on each of the ten words. -/
theorem wordsOfTheSpecDecode : Obligations.WordsOfTheSpecDecode := by
  unfold Obligations.WordsOfTheSpecDecode
  decide

/-! ### WAIT (rule R91) -/

theorem step_of_wait {s : State} {rest : List HostEvent} (h : s.inputs = .wait :: rest) :
    step s = .next (poll (s.takeTurn rest)) := step_of_cons h

theorem poll_idle {s : State} (h : s.regs.busy = false) : poll s = s.setRdata (statusWord s.regs) := by
  rw [poll, h]
  rfl

theorem poll_busy {s : State} (h : s.regs.busy = true) :
    poll s = (s.setRdata (statusWord s.regs)).pushTurns [.engine, .wait] := by
  rw [poll, h]
  rfl

theorem statusWord_idle {r : HostRegs} (h : r.busy = false) : statusWord r = if r.err then 2 else 0 := by
  rw [statusWord, h]
  cases r.err <;> rfl

theorem statusWord_busy {r : HostRegs} (h : r.busy = true) : statusWord r = if r.err then 3 else 1 := by
  rw [statusWord, h]
  cases r.err <;> rfl

/-- Settles O15: the poll receives STATUS, and a busy block's poll puts the engine and itself back in front. -/
theorem waitPollsUntilIdle : Obligations.WaitPollsUntilIdle := by
  intro s rest hin
  refine ⟨fun hb => ?_, fun hb => ?_⟩ <;> rw [step_of_wait hin]
  · rw [poll_idle (s := s.takeTurn rest) hb, State.takeTurn_regs, statusWord_idle hb]
    rfl
  · rw [poll_busy (s := s.takeTurn rest) hb, State.takeTurn_regs, statusWord_busy hb]
    rfl

/-! ### The pseudo-instructions (rule R92) -/

theorem writeTurn_cmd (cfg : Params) (v : Word) : writeTurn cfg .cmd v = .regWrite ⟨cfg.regBase, true, v⟩ := by
  rw [writeTurn, RegName.offset, BitVec.ofNat_eq_ofNat, BitVec.add_zero]

/-- A line whose first word is no statement keyword is a command or a pseudo-instruction. -/
theorem readWords_eq_readCommand {m : List Char} (hwr : m ≠ "WR".toList) (hrd : m ≠ "RD".toList)
    (hwait : m ≠ "WAIT".toList) (ws : List (List Char)) : readWords (m :: ws) = readCommand m ws := by
  unfold readWords
  exact (if_neg hwr).trans ((if_neg hrd).trans (if_neg hwait))

/-- Settles O16: only the write of CMD needs a word, its offset being 0; the rest is the expansion as it stands. -/
theorem pseudoInstructionsExpand : Obligations.PseudoInstructionsExpand := by
  refine ⟨fun cfg i d s n => ?_, fun cfg i d s m n => ?_,
    readWords_eq_readCommand (by decide) (by decide) (by decide), by decide⟩
  · rw [← writeTurn_cmd]
    rfl
  · rw [← writeTurn_cmd]
    rfl

end Sys2Proof.Machine
end

section
/-! The blend primitives: their laws, the widened lanes beside the bytes, and REV_CH, which no command uses
(spec/40_primitives.md). -/

namespace Sys2Proof.Machine

/-! ### The laws of the primitives (rules R102, R111) -/

/-- mul8 rounds: there is no tie, 255 being odd, so adding 127 before the division by 255 gives the nearest integer. -/
theorem mul8_toNat_eq_round (a b : Byte) : (mul8 a b).toNat = (a.toNat * b.toNat + 127) / 255 := by
  have hab := byte_mul_le a b
  rw [mul8_toNat]
  generalize a.toNat * b.toNat = x at hab ⊢
  obtain hr | hr : x % 255 ≤ 127 ∨ 128 ≤ x % 255 := by omega
  · have hq : (x + 127) / 255 = x / 255 := by omega
    omega
  · have hq : (x + 127) / 255 = x / 255 + 1 := by omega
    omega

theorem mul8_comm (a b : Byte) : mul8 a b = mul8 b a := by
  rw [mul8, mul8, Nat.mul_comm a.toNat]

theorem mul8_le_left (a b : Byte) : (mul8 a b).toNat ≤ a.toNat := by
  have hb : b.toNat ≤ 255 := by omega
  have hab : a.toNat * b.toNat ≤ a.toNat * 255 := Nat.mul_le_mul_left _ hb
  rw [mul8_toNat_eq_round]
  omega

theorem mul8_le_right (a b : Byte) : (mul8 a b).toNat ≤ b.toNat := by
  rw [mul8_comm]
  exact mul8_le_left b a

theorem sadd8_comm (x y : Byte) : sadd8 x y = sadd8 y x := by
  rw [sadd8, sadd8, Nat.add_comm]

theorem neg8_eq_not (a : Byte) : neg8 a = ~~~a := BitVec.allOnes_sub_eq_not a

theorem neg8_toNat (a : Byte) : (neg8 a).toNat = 255 - a.toNat := by
  rw [neg8_eq_not, BitVec.toNat_not]

theorem neg8_neg8 (a : Byte) : neg8 (neg8 a) = a := by
  rw [neg8_eq_not, neg8_eq_not, BitVec.not_not]

/-- Settles O35: the laws one by one; the two bounds of the rounding come from `mul8_toNat_eq_round`. -/
theorem primitivesObeyTheirLaws : Obligations.PrimitivesObeyTheirLaws := by
  intro a b x y
  have hround := mul8_toNat_eq_round a b
  exact ⟨mul8_comm a b, mul8_max a, mul8_zero a, le_min (mul8_le_left a b) (mul8_le_right a b), neg8_neg8 a,
    sadd8_comm x y, by omega, by omega⟩

/-! ### The widened lanes (rules R103, R104, R105, R108, R109) -/

/-- A lane of at most 255 is the widened lane of its low byte. -/
theorem widened_setWidth {v : WideLane} (h : v.toNat ≤ 255) : (v.setWidth 8).setWidth 16 = v := by
  apply BitVec.eq_of_toNat_eq
  rw [toNat_widened, BitVec.toNat_setWidth]
  omega

theorem mul16_eq_some {x y : WideLane} (hx : x.toNat ≤ 255) (hy : y.toNat ≤ 255) :
    mul16 x y = some (BitVec.ofNat 16 ((x.toNat * y.toNat + 128) % 2 ^ 16 * 0x0101 / 2 ^ 16)) := by
  have hlow : (x * y + 0x0080).toNat = (x.toNat * y.toNat + 128) % 2 ^ 16 := by
    rw [BitVec.toNat_add, BitVec.toNat_mul, Nat.mod_add_mod]
    rfl
  unfold mul16
  rw [if_pos ⟨hx, hy⟩, ← hlow, ← Nat.shiftRight_eq_div_pow]

theorem mul16_eq_mul8 {x y : WideLane} (hx : x.toNat ≤ 255) (hy : y.toNat ≤ 255) :
    mul16 x y = some ((mul8 (x.setWidth 8) (y.setWidth 8)).setWidth 16) := by
  rw [← mul16_widened, widened_setWidth hx, widened_setWidth hy]

theorem mul16_eq_none {x y : WideLane} (h : 255 < x.toNat ∨ 255 < y.toNat) : mul16 x y = none :=
  if_neg (by omega)

/-- Settles O36: the formula and mul8 on lanes of at most 255, and no result on a lane above. -/
theorem widenedMultiplyEqualsMul8 : Obligations.WidenedMultiplyEqualsMul8 := fun _ _ =>
  ⟨fun hx hy => ⟨mul16_eq_some hx hy, mul16_eq_mul8 hx hy⟩, mul16_eq_none⟩

theorem neg8_eq_xor (a : Byte) : neg8 a = a ^^^ 0xFF := (neg8_eq_not a).trans BitVec.xor_allOnes.symm

theorem neg16_toNat {v : WideLane} (h : v.toNat ≤ 255) : (neg16 v).toNat = 255 - v.toNat := by
  rw [← widened_setWidth h, neg16_widened, toNat_widened, toNat_widened, neg8_toNat]

theorem ch_bcastA (p : Pixel) (a : Nat) {k : Nat} (hk : k < 4) : ch (bcastA p a) k = ch p a :=
  ch_perChannel _ hk

/-- The broadcast on a half sets the first pixel's lanes and goes on with the others. -/
theorem bcastHalf_widen_append (p : Pixel) (ps : PixelVector) {a : Nat} (ha : a < 4) :
    bcastHalf a (widen p ++ widenHalf ps) = widen (bcastA p a) ++ bcastHalf a (widenHalf ps) := by
  rw [bcastHalf_widenHalf ha ps]
  exact bcastHalf_widenHalf ha (p :: ps)

/-- Settles O37: negate on bytes and on lanes, and the broadcast on pixels and on lanes. -/
theorem negateAndBroadcast : Obligations.NegateAndBroadcast :=
  ⟨fun a => ⟨neg8_toNat a, neg8_eq_xor a⟩, fun _ hv => ⟨rfl, neg16_toNat hv⟩,
    fun p a _ _ hk => ch_bcastA p a hk, fun p ps _ ha => bcastHalf_widen_append p ps ha⟩

theorem narrow16_toNat (v : WideLane) : (narrow16 v).toNat = if v.toNat ≤ 255 then v.toNat else 255 := by
  unfold narrow16
  split
  · rw [BitVec.toNat_setWidth]
    omega
  · rfl

/-- The sum of two widened bytes does not wrap, so narrowing saturates the sum of the bytes. -/
theorem sadd8_eq_narrow16 (x y : Byte) : sadd8 x y = narrow16 (x.setWidth 16 + y.setWidth 16) := by
  have hsum : (x.setWidth 16 + y.setWidth 16 : WideLane).toNat = x.toNat + y.toNat := by
    rw [BitVec.toNat_add, toNat_widened, toNat_widened]
    omega
  apply BitVec.eq_of_toNat_eq
  rw [sadd8_toNat, narrow16_toNat, hsum]
  exact Nat.min_def

theorem ch_narrow (w : Nat → WideLane) {k : Nat} (hk : k < 4) :
    ch (narrow (w 0) (w 1) (w 2) (w 3)) k = narrow16 (w k) :=
  ch_perChannel (fun k => narrow16 (w k)) hk

/-- Settles O38: the saturating add as a minimum and as a narrowed sum, and the narrower lane by lane. -/
theorem saturatingAddAndNarrower : Obligations.SaturatingAddAndNarrower :=
  ⟨fun x y => ⟨sadd8_toNat x y, sadd8_eq_narrow16 x y⟩, narrow16_toNat, fun w _ hk => ch_narrow w hk⟩

/-! ### No command uses REV_CH (rule R106)

An operation on the state ignores REV_CH when it does the same whatever REV_CH is. Every stage of a command
does, and so does whatever is put together from such stages. -/

/-- Setting REV_CH before an operation is setting it afterwards. -/
def IgnoresRevCh (f : State → Res State) : Prop :=
  ∀ (c : BitVec 2) (s : State), f (s.withRevCh c) = andThen (f s) fun t => .next (t.withRevCh c)

/-- An update of the state that keeps the parameters and does not look at REV_CH. -/
theorem ignoresRevCh_next {f : State → State} (h : ∀ c s, f (s.withRevCh c) = (f s).withRevCh c) :
    IgnoresRevCh fun s => .next (f s) := fun c s => congrArg Host.Outcome.next (h c s)

theorem IgnoresRevCh.andThen {f g : State → Res State} (hf : IgnoresRevCh f) (hg : IgnoresRevCh g) :
    IgnoresRevCh fun s => andThen (f s) g := by
  intro c s
  dsimp only
  rw [hf c s]
  cases f s with
  | next t => exact hg c t
  | fault r => rfl
  | refused r => rfl

/-- A choice by a test that REV_CH does not sway. -/
theorem IgnoresRevCh.ite {p : State → Prop} [DecidablePred p] {f g : State → Res State}
    (hp : ∀ c s, p (s.withRevCh c) ↔ p s) (hf : IgnoresRevCh f) (hg : IgnoresRevCh g) :
    IgnoresRevCh fun s => if p s then f s else g s := by
  intro c s
  dsimp only
  by_cases h : p s
  · rw [if_pos ((hp c s).mpr h), if_pos h, hf c s]
  · rw [if_neg (mt (hp c s).mp h), if_neg h, hg c s]

/-! The vector accesses look at the memory map only. -/

theorem vecRead_withRevCh (c : BitVec 2) (s : State) (m : Memory) (lm : SpanMask) (base : Addr) :
    vecRead (s.withRevCh c).cfg m base lm = vecRead s.cfg m base lm := by
  induction lm generalizing base with
  | nil => rfl
  | cons l lm ih =>
    rw [vecRead, vecRead, ih]
    rfl

theorem vecWrite_withRevCh (c : BitVec 2) (s : State) (lm : SpanMask) (m : Memory) (base : Addr) (V : PixelVector) :
    vecWrite (s.withRevCh c).cfg m base lm V = vecWrite s.cfg m base lm V := by
  induction lm generalizing m base V with
  | nil => rfl
  | cons l lm ih =>
    cases V with
    | nil => rfl
    | cons p ps =>
      simp only [vecWrite, ih]
      rfl

/-- A vector read whose lanes go into the state by an update that ignores REV_CH. -/
theorem ignoresRevCh_vread {base : State → Addr} {f : PixelVector → State → State}
    (hbase : ∀ c s, base (s.withRevCh c) = base s)
    (hf : ∀ V c s, f V (s.withRevCh c) = (f V s).withRevCh c) :
    IgnoresRevCh fun s => andThen (vread (base s) s) fun q => .next (f q.1 q.2) := by
  intro c s
  dsimp only [vread]
  rw [hbase, vecRead_withRevCh]
  change andThen (andThen (vecRead s.cfg s.mem (base s) s.dp.LM) _) _ = _
  cases vecRead s.cfg s.mem (base s) s.dp.LM with
  | next V => exact congrArg Host.Outcome.next (hf V c (s.addAccess ⟨.read, base s, laneEnables s.dp.LM, V⟩))
  | fault r => rfl
  | refused r => rfl

theorem ignoresRevCh_vwrite {base : State → Addr} {V : State → PixelVector}
    (hbase : ∀ c s, base (s.withRevCh c) = base s) (hV : ∀ c s, V (s.withRevCh c) = V s) :
    IgnoresRevCh fun s => vwrite (base s) (V s) s := by
  intro c s
  dsimp only [vwrite]
  rw [hbase, hV, vecWrite_withRevCh]
  change andThen (vecWrite s.cfg s.mem (base s) s.dp.LM (V s)) _ = _
  cases vecWrite s.cfg s.mem (base s) s.dp.LM (V s) with
  | next m => rfl
  | fault r => rfl
  | refused r => rfl

/-! The stages of an iteration (rule R172). -/

theorem ignoresRevCh_loadMask (a : Nat) : IgnoresRevCh (loadMask a) :=
  ignoresRevCh_vread (f := fun V t => t.setDp (testTransparent a { t.dp with VM := V })) (fun _ _ => rfl)
    fun _ _ _ => rfl

theorem ignoresRevCh_loadSource : IgnoresRevCh loadSource :=
  ignoresRevCh_vread (f := fun V t => t.setDp { t.dp with VS := V }) (fun _ _ => rfl) fun _ _ _ => rfl

theorem ignoresRevCh_loadDst : IgnoresRevCh loadDst :=
  ignoresRevCh_vread (f := fun V t => t.setDp { t.dp with VD := V }) (fun _ _ => rfl) fun _ _ _ => rfl

theorem ignoresRevCh_combineMask (a : Nat) : IgnoresRevCh (combineMask a) := by
  intro c s
  simp only [combineMask, State.withRevCh]
  split <;> rfl

theorem ignoresRevCh_sourceStage (i : Instr) : IgnoresRevCh (sourceStage i) := by
  have hplain : IgnoresRevCh plainSource :=
    ignoresRevCh_loadSource.andThen (ignoresRevCh_next fun _ _ => rfl)
  have hmasked : IgnoresRevCh (maskedSource i.ach) :=
    (ignoresRevCh_loadMask i.ach).andThen
      (.ite (fun _ _ => .rfl) (ignoresRevCh_next fun _ _ => rfl)
        (ignoresRevCh_loadSource.andThen (ignoresRevCh_combineMask i.ach)))
  exact .ite (p := fun _ => i.masked = true) (fun _ _ => .rfl) hmasked hplain

theorem ignoresRevCh_kernelStage (kernel : Halves → Halves → Option Halves)
    (finish : PixelVector → Datapath → PixelVector) : IgnoresRevCh (kernelStage kernel finish) := by
  intro c s
  simp only [kernelStage, State.withRevCh]
  split <;> rfl

theorem ignoresRevCh_composite (kernel : Halves → Halves → Option Halves)
    (finish : PixelVector → Datapath → PixelVector) : IgnoresRevCh (composite kernel finish) :=
  ignoresRevCh_loadDst.andThen
    ((ignoresRevCh_kernelStage kernel finish).andThen (ignoresRevCh_vwrite (fun _ _ => rfl) fun _ _ => rfl))

theorem ignoresRevCh_overFrom (a : Nat) : IgnoresRevCh (overFrom a) :=
  (ignoresRevCh_next (f := fun s => s.setDp (testOpaque a (testZero s.dp))) fun _ _ => rfl).andThen
    (g := fun t => if t.dp.fZ then .next t else if t.dp.fO then storeEffective t else compositeOver a t)
    (.ite (fun _ _ => .rfl) (ignoresRevCh_next fun _ _ => rfl)
      (.ite (fun _ _ => .rfl) (ignoresRevCh_vwrite (fun _ _ => rfl) fun _ _ => rfl) (ignoresRevCh_composite _ _)))

theorem ignoresRevCh_overrevFrom (a : Nat) : IgnoresRevCh (overrevFrom a) :=
  (ignoresRevCh_next (f := fun s => s.setDp (testZero s.dp)) fun _ _ => rfl).andThen
    (g := fun t => if t.dp.fZ then .next t else compositeOverrev a t)
    (.ite (fun _ _ => .rfl) (ignoresRevCh_next fun _ _ => rfl) (ignoresRevCh_composite _ _))

theorem ignoresRevCh_tailStage (i : Instr) : IgnoresRevCh (tailStage i) := by
  cases i with
  | opOver a | opOverM a => exact ignoresRevCh_overFrom a
  | opOverrev a | opOverrevM a => exact ignoresRevCh_overrevFrom a
  | opOutrev _ | opOutrevM _ | opAdd _ | opAddM _ => exact ignoresRevCh_composite _ _

/-! The row driver (spec/44_row_driver.md). -/

theorem ignoresRevCh_bodyOf (i : Instr) : IgnoresRevCh (bodyOf i) := by
  rw [funext (bodyOf_eq i)]
  exact (ignoresRevCh_sourceStage i).andThen (ignoresRevCh_tailStage i)

/-- The contract looks at the memory map only. -/
theorem ignoresRevCh_accept (i : Instr) : IgnoresRevCh (accept i) := by
  intro c s
  have h : contractViolation i.masked (s.withRevCh c).cfg (s.withRevCh c).regs =
      contractViolation i.masked s.cfg s.regs := rfl
  rw [accept, accept, h]
  split <;> rfl

theorem ignoresRevCh_iterate (masked : Bool) {body : State → Res State} (h : IgnoresRevCh body) :
    IgnoresRevCh (iterate masked body) := by
  intro c s
  change andThen (body ((spanStage s).withRevCh c)) _ = andThen (andThen (body (spanStage s)) _) _
  rw [h c (spanStage s)]
  cases body (spanStage s) <;> rfl

theorem ignoresRevCh_exec (i : Instr) : IgnoresRevCh (exec i) := by
  rw [funext (exec_eq_drive i)]
  exact .ite (fun _ _ => .rfl)
    (.ite (fun _ _ => .rfl) (ignoresRevCh_next fun _ _ => rfl) (ignoresRevCh_iterate _ (ignoresRevCh_bodyOf i)))
    (ignoresRevCh_accept i)

/-- Settles O40: the channel and the default by their definitions, and exec because each of its stages ignores
REV_CH. -/
theorem reverseBroadcastUsedByNoCommand : Obligations.ReverseBroadcastUsedByNoCommand :=
  ⟨fun _ _ _ hk => ch_perChannel _ hk, rfl, fun i s c => ignoresRevCh_exec i c s⟩

end Sys2Proof.Machine
end

section
/-! The run of a launched command that no other turn disturbs: the memory after its first pixels, its iterations and
its completion (spec/44_row_driver.md rules R170 to R181). -/

namespace Sys2Proof.Machine

/-! ### The contract and the buffers (rules R61, R70) -/

/-- A command that keeps the contract has no used range that overlaps the destination other than exactly. -/
theorem usedBases_not_overlapping {masked : Bool} {cfg : Params} {r : HostRegs}
    (h : contractViolation masked cfg r = none) {b : Addr} (hb : b ∈ usedBases masked r) (hn : r.count.toNat ≠ 0) :
    overlapsPartly (hardwire r.dst) b r.count.toNat = false := by
  by_contra ho
  have hany : (usedBases masked r).any (fun b => overlapsPartly (hardwire r.dst) b r.count.toNat) = true :=
    List.any_eq_true.mpr ⟨b, hb, Bool.not_eq_false _ ▸ ho⟩
  simp only [contractViolation, hn, hany, if_true, if_false] at h
  split at h <;> cases h

theorem inRange_of_ofPixel {base c : Addr} {p n : Nat} (hw : base.toNat + 4 * n ≤ 2 ^ 32) (hp : p < n)
    (h : ofPixel (pixelAddr base p) c) : inRange base n c = true :=
  inRange_of_bufferHolds (done := p) (k := 1) hw hp
    (bufferHolds_eq_true.mpr ⟨0, Nat.one_pos, by rwa [pixelAddr_zero]⟩)

/-- Pixel p of a used buffer shares no byte with the destination pixels before p. -/
theorem usedPixel_not_before {masked : Bool} {cfg : Params} {r : HostRegs}
    (h : contractViolation masked cfg r = none) {b c : Addr} (hb : b ∈ usedBases masked r) {k p : Nat} (hk : k ≤ p)
    (hp : p < r.count.toNat) (hc : ofPixel (pixelAddr b p) c) : bufferHolds (hardwire r.dst) k c = false := by
  have hd : hardwire r.dst ∈ usedBases masked r := mem_usedBases.mpr (.inl rfl)
  have hwd := usedBases_not_wrapping h hd
  have hwb := usedBases_not_wrapping h hb
  refine bufferHolds_eq_false.mpr fun j hj hcj => ?_
  by_cases hbd : b = hardwire r.dst
  · have := ofPixel_unique (by omega) (by omega) (hbd ▸ hc) hcj
    omega
  · have hover := overlapsPartly_iff.mpr
      ⟨hbd, c, inRange_of_ofPixel hwd (by omega) hcj, inRange_of_ofPixel hwb hp hc⟩
    rw [usedBases_not_overlapping h hb (by omega)] at hover
    cases hover

theorem bufferBacked_from {cfg : Params} {base : Addr} {i k n : Nat} (h : bufferBacked cfg base n = true)
    (hk : i + k ≤ n) : bufferBacked cfg (pixelAddr base i) k = true :=
  bufferBacked_iff.mpr fun j hj => by rw [pixelAddr_add]; exact bufferBacked_iff.mp h _ (by omega)

theorem sameOutside.append {base : Addr} {k l : Nat} {m m' m'' : Memory} (h : sameOutside base k m m')
    (h' : sameOutside (pixelAddr base k) l m' m'') : sameOutside base (k + l) m m'' := by
  obtain ⟨hp, hb⟩ := h
  obtain ⟨hp', hb'⟩ := h'
  refine ⟨hp'.trans hp, fun a ha => ?_⟩
  rw [bufferHolds_eq_false] at ha
  rw [hb' a (bufferHolds_eq_false.mpr fun j hj => by rw [pixelAddr_add]; exact ha _ (by omega)),
    hb a (bufferHolds_eq_false.mpr fun j hj => ha j (by omega))]

/-! ### Memory after the first pixels (rule R181) -/

/-- Memory m once the first k destination pixels of a command hold their closed form, the command presented with
registers r over memory m₀. -/
structure Composed (i : Instr) (m₀ : Memory) (r : HostRegs) (k : Nat) (m : Memory) : Prop where
  wf      : Memory.wf m = true
  stored  : ∀ j, j < k → readPixel m (pixelAddr (hardwire r.dst) j) = closedPixel i m₀ r j
  outside : sameOutside (hardwire r.dst) k m₀ m

theorem composed_zero (i : Instr) {m : Memory} (r : HostRegs) (h : Memory.wf m = true) : Composed i m r 0 m :=
  ⟨h, fun _ hj => absurd hj (Nat.not_lt_zero _), sameOutside_refl _ _ _⟩

/-- Storing the closed form of the next l pixels, and nothing else, leaves the first k + l pixels composed. -/
theorem Composed.append {i : Instr} {m₀ m m' : Memory} {r : HostRegs} {k l : Nat} (h : Composed i m₀ r k m)
    (hkl : k + l ≤ 2 ^ 30) (hwf : Memory.wf m' = true)
    (hnew : ∀ j, j < l → readPixel m' (pixelAddr (pixelAddr (hardwire r.dst) k) j) = closedPixel i m₀ r (k + j))
    (hout : sameOutside (pixelAddr (hardwire r.dst) k) l m m') : Composed i m₀ r (k + l) m' := by
  refine ⟨hwf, fun j hj => ?_, h.outside.append hout⟩
  obtain hlt | ⟨j', rfl⟩ := (Nat.lt_or_ge j k).imp_right Nat.exists_eq_add_of_le
  · rw [← h.stored j hlt]
    refine readPixel_congr fun c hc => hout.2 c (bufferHolds_eq_false.mpr fun j' hj' hc' => ?_)
    rw [pixelAddr_add] at hc'
    have := ofPixel_unique (by omega) (by omega) hc hc'
    omega
  · rw [← hnew j' (by omega), pixelAddr_add]

/-- The pixels of the used buffers from k on read as before the command. -/
theorem Composed.readPixel_undone {i : Instr} {m₀ m : Memory} {r : HostRegs} {k : Nat} (h : Composed i m₀ r k m)
    {masked : Bool} {cfg : Params} (hc : contractViolation masked cfg r = none) {b : Addr}
    (hb : b ∈ usedBases masked r) {p : Nat} (hk : k ≤ p) (hp : p < r.count.toNat) :
    readPixel m (pixelAddr b p) = readPixel m₀ (pixelAddr b p) :=
  readPixel_congr fun c hpc => h.outside.2 c (usedPixel_not_before hc hb hk hp hpc)

/-- Two commands with the same closed form leave the same memory: each byte is in a stored pixel or untouched. -/
theorem Composed.unique {i i' : Instr} {m₀ m m' : Memory} {r : HostRegs} {k : Nat} (h : Composed i m₀ r k m)
    (h' : Composed i' m₀ r k m') (he : ∀ j, j < k → closedPixel i m₀ r j = closedPixel i' m₀ r j) : m = m' := by
  refine memory_ext (h.outside.1.trans h'.outside.1.symm) h.wf h'.wf fun a => ?_
  cases ha : bufferHolds (hardwire r.dst) k a with
  | false => rw [h.outside.2 a ha, h'.outside.2 a ha]
  | true =>
    obtain ⟨j, hj, hp⟩ := bufferHolds_eq_true.mp ha
    exact byteAt_congr (by rw [h.stored j hj, h'.stored j hj, he j hj]) a hp

/-! ### A command under way -/

/-- A busy state of the undisturbed run of command i launched in state s: its engine is in lockstep, and memory is
composed up to the pixels done. -/
structure Underway (i : Instr) (s u : State) : Prop where
  cfg      : u.cfg = s.cfg
  inputs   : u.inputs = []
  regs     : u.regs = { s.regs with cmd := encode i, err := false, busy := true }
  latched  : running u = i
  lockstep : Running u
  mem      : Composed i s.mem s.regs (pixelsDone u) u.mem

section Underway

variable {i : Instr} {s u : State}

theorem Underway.masked (h : Underway i s u) : u.eng.cM = i.masked := by rw [← h.latched, running_masked]

theorem Underway.contract (h : Underway i s u) : contractViolation i.masked s.cfg s.regs = none := by
  have hc := h.lockstep.contract
  rw [h.masked, h.cfg, h.regs] at hc
  exact hc

theorem Underway.count (h : Underway i s u) : u.regs.count = s.regs.count := by rw [h.regs]

theorem Underway.iD (h : Underway i s u) : u.eng.iD = pixelAddr (hardwire s.regs.dst) (pixelsDone u) := by
  rw [h.lockstep.dst, h.regs]

theorem Underway.iS (h : Underway i s u) : u.eng.iS = pixelAddr (hardwire s.regs.src) (pixelsDone u) := by
  rw [h.lockstep.src, h.regs]

theorem Underway.iM (h : Underway i s u) (hm : i.masked = true) :
    u.eng.iM = pixelAddr (hardwire s.regs.msk) (pixelsDone u) := by
  rw [h.lockstep.msk, h.masked, if_pos hm, h.regs]

theorem Underway.next_le_count (h : Underway i s u) : pixelsDone u + activeLanes u ≤ s.regs.count.toNat :=
  h.count ▸ pixelsDone_add_activeLanes h.lockstep

theorem Underway.takeTurn (h : Underway i s u) : Underway i s (u.takeTurn []) :=
  ⟨h.cfg, rfl, h.regs, h.latched, h.lockstep.congr rfl rfl rfl, h.mem⟩

/-- The next iteration reads each used buffer as it was at the launch. -/
theorem Underway.readPixel_next (h : Underway i s u) {b : Addr} (hb : b ∈ usedBases i.masked s.regs) {j : Nat}
    (hj : j < activeLanes u) : readPixel u.mem (pixelAddr (pixelAddr b (pixelsDone u)) j) =
      readPixel s.mem (pixelAddr b (pixelsDone u + j)) := by
  have := h.next_le_count
  rw [pixelAddr_add]
  exact h.mem.readPixel_undone h.contract hb (Nat.le_add_right _ _) (by omega)

/-- The next iteration's results are the closed form of its pixels (rule R181). -/
theorem Underway.laneResult_next (h : Underway i s u) {j : Nat} (hj : j < activeLanes u) :
    laneResult i u j = closedPixel i s.mem s.regs (pixelsDone u + j) := by
  unfold laneResult closedPixel effective
  rw [h.iD, h.iS, h.readPixel_next (mem_usedBases.mpr (.inl rfl)) hj,
    h.readPixel_next (mem_usedBases.mpr (.inr (.inl rfl))) hj]
  split
  · rename_i hm
    rw [h.iM hm, h.readPixel_next (mem_usedBases.mpr (.inr (.inr ⟨hm, rfl⟩))) hj]
  · rfl

theorem Underway.backed_next (h : Underway i s u) (hb : commandBacked i.masked s.cfg s.regs = true) :
    iterationBacked i.masked u = true := by
  have hused : ∀ b ∈ usedBases i.masked s.regs,
      bufferBacked u.cfg (pixelAddr b (pixelsDone u)) (activeLanes u) = true := fun b hbu =>
    bufferBacked_from (h.cfg ▸ List.all_eq_true.mp hb b hbu) h.next_le_count
  unfold iterationBacked
  rw [h.iD, h.iS, hused _ (mem_usedBases.mpr (.inl rfl)), hused _ (mem_usedBases.mpr (.inr (.inl rfl)))]
  cases hm : i.masked with
  | false => rfl
  | true => rw [h.iM hm, hused _ (mem_usedBases.mpr (.inr (.inr ⟨hm, rfl⟩)))]; rfl

/-- An iteration of a command under way leaves it under way, with W pixels fewer left, or none (rule R173). -/
theorem Underway.advanced {t : State} (h : Underway i s u) (adv : Advanced i u t) :
    Underway i s t ∧ t.eng.iN.toNat = u.eng.iN.toNat - s.lanes := by
  have hiN : t.eng.iN.toNat = u.eng.iN.toNat - activeLanes u := by rw [adv.eng]; exact iN_advance u
  have hk : activeLanes u = min u.eng.iN.toNat s.lanes := by unfold activeLanes State.lanes; rw [h.cfg]; rfl
  have hleft := h.lockstep.left
  have hnext := h.next_le_count
  have hwrap := usedBases_not_wrapping h.contract (mem_usedBases.mpr (.inl rfl))
  have done : pixelsDone t = pixelsDone u + activeLanes u := by
    unfold pixelsDone; rw [adv.regs, hiN]; omega
  refine ⟨{
    cfg := adv.cfg.trans h.cfg
    inputs := adv.inputs.trans h.inputs
    regs := adv.regs.trans h.regs
    latched := by rw [← h.latched]; unfold running; rw [adv.eng]; rfl
    lockstep := h.lockstep.advanced (h.latched.symm ▸ adv)
    mem := ?_ }, by omega⟩
  rw [done]
  refine h.mem.append (by omega) (adv.memWf h.mem.wf) (fun j hj => ?_) (h.iD ▸ adv.outside h.mem.wf)
  rw [← h.iD, adv.lanes h.mem.wf j hj, h.laneResult_next hj]

theorem Underway.step_eq_exec (h : Underway i s u) : step u = exec i (u.takeTurn []) := by
  have hb : u.regs.busy = true := by rw [h.regs]
  rw [step_of_nil h.inputs, engineTurn, State.takeTurn_regs, if_pos hb]
  exact congrArg (exec · _) h.latched

/-- A step of a command under way with pixels left is an iteration. -/
theorem Underway.step_iterates (h : Underway i s u) (hi : i.wellFormed = true)
    (hb : commandBacked i.masked s.cfg s.regs = true) (hn : u.eng.iN ≠ 0) :
    ∃ t, step u = .next t ∧ Underway i s t ∧ t.eng.iN.toNat = u.eng.iN.toNat - s.lanes := by
  have h' := h.takeTurn
  have hbusy : (u.takeTurn []).regs.busy = true := by rw [h'.regs]
  obtain ⟨t, ht⟩ := iterate_answers hi (h'.backed_next hb)
  exact ⟨t, by rw [h.step_eq_exec, exec_running hbusy hn, ht], h'.advanced (iterate_eq_next hi ht)⟩

/-- With no pixel left the next step completes the command (rule R177). -/
theorem Underway.step_completes (h : Underway i s u) (hn : u.eng.iN = 0) :
    step u = .next (complete (u.takeTurn [])) := by
  have hbusy : (u.takeTurn []).regs.busy = true := by rw [h.takeTurn.regs]
  rw [h.step_eq_exec, exec_complete hbusy hn]

end Underway

/-! ### Whole commands (rules R171, R174, R175) -/

theorem runSteps_add (m : Nat) : ∀ (k : Nat) (s : State), runSteps (k + m) s = andThen (runSteps k s) (runSteps m)
  | 0, s => by rw [Nat.zero_add]; rfl
  | k + 1, s => by
    rw [Nat.succ_add, runSteps, runSteps]
    cases step s with
    | next t => exact runSteps_add m k t
    | fault _ | refused _ => rfl

theorem runSteps_one (s : State) : runSteps 1 s = step s := by
  rw [runSteps]
  cases step s <;> rfl

/-- An iteration of W pixels leaves one iteration fewer. -/
theorem iterations_succ_le {w n m : Nat} (hw : 0 < w) (h : m + 1 ≤ iterations w n) :
    n ≠ 0 ∧ m ≤ iterations w (n - w) := by
  unfold iterations at h ⊢
  rw [Nat.le_div_iff_mul_le hw, Nat.succ_mul] at h
  rw [Nat.le_div_iff_mul_le hw]
  omega

/-- ceil(n / W) iterations leave no pixel. -/
theorem le_mul_iterations {w n : Nat} (hw : 0 < w) : n ≤ w * iterations w n := by
  have h := Nat.div_add_mod (n + w - 1) w
  have := Nat.mod_lt (n + w - 1) hw
  unfold iterations
  omega

/-- The command of a launch is accepted (rule R170). -/
theorem Launch.step_eq {i : Instr} {s : State} (h : Launch i s) : step s = .next (accepted i (s.takeTurn [])) := by
  have hcmd := commandWriteRunsTheDecodedCommand s (encode i) i [] ⟨h.inputs, h.idle⟩
    (encodedCommandDecodesToItself i h.wellFormed)
  rw [hcmd, exec_idle (s := s.takeTurn []) h.idle]
  exact accept_next h.contract

/-- Accepted with COUNT ≠ 0, the command is under way at pixel 0. -/
theorem Launch.underway {i : Instr} {s : State} (h : Launch i s) (hn : s.regs.count ≠ 0) :
    Underway i s (accepted i (s.takeTurn [])) where
  cfg := rfl
  inputs := rfl
  regs := by
    change { s.regs with cmd := encode i, err := false, busy := decide (s.regs.count ≠ 0) } = _
    rw [decide_eq_true hn]
  latched := running_accepted h.wellFormed _
  lockstep := running_of_accepted h.wellFormed h.contract hn
  mem := by
    have done : pixelsDone (accepted i (s.takeTurn [])) = 0 := Nat.sub_self _
    rw [done]
    exact composed_zero i s.regs h.mem

/-- A command under way does iterations, one a step, as long as it has pixels left. -/
theorem Underway.runs_iterations {i : Instr} {s : State} (hl : Launch i s) : ∀ (m : Nat) {u : State}, Underway i s u →
    m ≤ iterations s.lanes u.eng.iN.toNat →
    ∃ v, runSteps m u = .next v ∧ Underway i s v ∧ v.eng.iN.toNat = u.eng.iN.toNat - s.lanes * m
  | 0, u, h, _ => ⟨u, rfl, h, rfl⟩
  | m + 1, u, h, hm => by
    obtain ⟨hn, hm⟩ := iterations_succ_le (count_pos s.cfg.lanes) hm
    obtain ⟨t, hstep, ht, hiN⟩ := h.step_iterates hl.wellFormed hl.backed fun e => hn (by rw [e]; rfl)
    obtain ⟨v, hrun, hv, hiN'⟩ := Underway.runs_iterations hl m ht (by rw [hiN]; exact hm)
    refine ⟨v, ?_, hv, by rw [hiN', hiN, Nat.sub_sub, Nat.mul_succ, Nat.add_comm]⟩
    rw [runSteps, hstep, andThen_next, hrun]

/-- After acceptance and m iterations, a launched command is under way with the first W·m pixels done, or all. -/
theorem Launch.runs_iterations {i : Instr} {s : State} (h : Launch i s) (hn : s.regs.count ≠ 0) {m : Nat}
    (hm : m ≤ iterations s.lanes s.regs.count.toNat) :
    ∃ u, runSteps (1 + m) s = .next u ∧ Underway i s u ∧ u.eng.iN.toNat = s.regs.count.toNat - s.lanes * m := by
  obtain ⟨u, hrun, hu⟩ := (h.underway hn).runs_iterations h m hm
  exact ⟨u, by rw [Nat.add_comm, runSteps, h.step_eq, andThen_next, hrun], hu⟩

/-- What a launched command leaves once it is complete (rules R177, R181). -/
structure Completed (i : Instr) (s t : State) : Prop where
  cfg    : t.cfg = s.cfg
  inputs : t.inputs = []
  regs   : t.regs = { s.regs with cmd := encode i, err := false, busy := false }
  mem    : Composed i s.mem s.regs s.regs.count.toNat t.mem

theorem Underway.completed {i : Instr} {s u : State} (h : Underway i s u) (hn : u.eng.iN = 0) :
    Completed i s (complete (u.takeTurn [])) where
  cfg := h.cfg
  inputs := rfl
  regs := by unfold complete; rw [State.setRegs_regs, State.takeTurn_regs, h.regs]
  mem := by
    have done : pixelsDone u = s.regs.count.toNat := by
      unfold pixelsDone; rw [h.count, hn]; rfl
    exact done ▸ h.mem

/-- A launched command runs to completion in the steps of rule R174: acceptance alone when COUNT = 0, else also the
iterations and the completion. -/
theorem Launch.runs_to_completion {i : Instr} {s : State} (h : Launch i s) :
    ∃ t, runSteps (commandSteps s.lanes s.regs.count.toNat) s = .next t ∧ Completed i s t := by
  unfold commandSteps
  split
  · rename_i hn
    have hcount : s.regs.count = 0 := BitVec.eq_of_toNat_eq hn
    refine ⟨_, (runSteps_one s).trans h.step_eq, rfl, rfl, ?_, ?_⟩
    · change { s.regs with cmd := encode i, err := false, busy := decide (s.regs.count ≠ 0) } = _
      rw [decide_eq_false (not_not.mpr hcount)]
    · rw [hn]; exact composed_zero i s.regs h.mem
  · rename_i hn
    obtain ⟨u, hrun, hu, hiN⟩ := h.runs_iterations (fun e => hn (by rw [e]; rfl)) (le_refl _)
    have hzero : u.eng.iN = 0 := BitVec.eq_of_toNat_eq
      (hiN.trans (Nat.sub_eq_zero_of_le (le_mul_iterations (count_pos s.cfg.lanes))))
    exact ⟨_, by rw [runSteps_add, hrun, andThen_next, runSteps_one, hu.step_completes hzero], hu.completed hzero⟩

end Sys2Proof.Machine
end

section
/-! The operators of spec/41_operators.md: one iteration of each command, a mask of alpha 255 everywhere, and the
per-pixel formulas with their corner cases. -/

namespace Sys2Proof.Machine

/-! ### A full mask (rule R133) -/

theorem maskc_full {p m : Pixel} {a : Nat} (h : ch m a = 255) : maskc p m a = p :=
  pixel_ext fun k hk => by rw [maskc, ch_perChannel _ hk, h, mul8_max]

/-- With mask alpha 255 the masked form computes what the unmasked command computes. -/
theorem closedPixel_maskedForm {i : Instr} {m : Memory} {r : HostRegs} {j : Nat} (hi : i.masked = false)
    (h : ch (readPixel m (pixelAddr (hardwire r.msk) j)) i.ach = 255) :
    closedPixel i m r j = closedPixel (maskedForm i) m r j := by
  cases i with
  | opOver a | opOverrev a | opOutrev a | opAdd a =>
    exact congrArg (opPixel _ · _) (maskc_full h).symm
  | opOverM a | opOverrevM a | opOutrevM a | opAddM a => cases hi

/-- Settles O46: both commands run to completion, and the memory each leaves is decided by its closed form, which is
the same where the mask's alpha is 255. -/
theorem fullMaskEqualsNoMask : Obligations.FullMaskEqualsNoMask := by
  rintro i s _ hi hlaunch rfl hlaunch' hfull
  obtain ⟨t, hrun, ht⟩ := hlaunch.runs_to_completion
  obtain ⟨u, hrun', hu⟩ := hlaunch'.runs_to_completion
  exact ⟨t, u, hrun, hrun', ht.mem.unique hu.mem fun j hj => closedPixel_maskedForm hi (hfull j hj)⟩

/-! ### One iteration of a command (rules R125 to R132, R173) -/

theorem Advanced.frame {i : Instr} {s t : State} (adv : Advanced i s t) :
    IterationFrame i.masked (activeLanes s) s t where
  iD := by rw [adv.eng]; rfl
  iS := by rw [adv.eng]; rfl
  iM := by rw [adv.eng]; rfl
  iN := by rw [adv.eng]; exact iN_advance s
  latch := by rw [adv.eng]; exact ⟨rfl, rfl, rfl⟩
  regs := adv.regs
  cfg := adv.cfg
  rest := ⟨adv.hostRdata, adv.hostByte, adv.draws, adv.inputs⟩

/-- An iteration over backed pixels answers, with the operator's result in each active destination pixel, every other
byte unchanged, and the frame of rule R173. -/
theorem exec_iteration {i : Instr} {s : State} (hi : i.wellFormed = true) (hb : s.regs.busy = true)
    (hn : s.eng.iN ≠ 0) (hm : Memory.wf s.mem = true) (hbacked : iterationBacked i.masked s = true) :
    ∃ t, exec i s = .next t ∧
      (∀ j, j < activeLanes s → readPixel t.mem (pixelAddr s.eng.iD j) = laneResult i s j) ∧
      sameOutside s.eng.iD (activeLanes s) s.mem t.mem ∧ IterationFrame i.masked (activeLanes s) s t := by
  obtain ⟨t, ht⟩ := iterate_answers hi hbacked
  have adv := iterate_eq_next hi ht
  exact ⟨t, (exec_running hb hn).trans ht, adv.lanes hm, adv.outside hm, adv.frame⟩

/-- Settles O22: `laneResult` of OVER is over(src, dst, a). -/
theorem overIteration : Obligations.OverIteration := fun a _ ha =>
  exec_iteration (i := .opOver a) (decide_eq_true ha)

/-- Settles O23: `laneResult` of OVER.M is over(maskc(src, msk, a), dst, a). -/
theorem overMIteration : Obligations.OverMIteration := fun a _ ha =>
  exec_iteration (i := .opOverM a) (decide_eq_true ha)

/-- Settles O24: `laneResult` of OVERREV is overrev(src, dst, a). -/
theorem overrevIteration : Obligations.OverrevIteration := fun a _ ha =>
  exec_iteration (i := .opOverrev a) (decide_eq_true ha)

/-- Settles O25: `laneResult` of OVERREV.M is overrev(maskc(src, msk, a), dst, a). -/
theorem overrevMIteration : Obligations.OverrevMIteration := fun a _ ha =>
  exec_iteration (i := .opOverrevM a) (decide_eq_true ha)

/-- Settles O26: `laneResult` of OUTREV is outrev(src, dst, a). -/
theorem outrevIteration : Obligations.OutrevIteration := fun a _ ha =>
  exec_iteration (i := .opOutrev a) (decide_eq_true ha)

/-- Settles O27: `laneResult` of OUTREV.M is outrev(maskc(src, msk, a), dst, a). -/
theorem outrevMIteration : Obligations.OutrevMIteration := fun a _ ha =>
  exec_iteration (i := .opOutrevM a) (decide_eq_true ha)

/-- Settles O28: `laneResult` of ADD is add(src, dst, a). -/
theorem addIteration : Obligations.AddIteration := fun a _ ha =>
  exec_iteration (i := .opAdd a) (decide_eq_true ha)

/-- Settles O29: `laneResult` of ADD.M is add(maskc(src, msk, a), dst, a). -/
theorem addMIteration : Obligations.AddMIteration := fun a _ ha =>
  exec_iteration (i := .opAddM a) (decide_eq_true ha)

/-! ### The per-pixel functions (rules R120 to R123) -/

section Formulas

variable (e d : Pixel) (a : Nat) {k : Nat} (hk : k < 4)

include hk

theorem ch_overPixel : ch (overPixel e d a) k = sadd8 (ch e k) (mul8 (ch d k) (neg8 (ch e a))) :=
  ch_perChannel _ hk

theorem ch_overrevPixel : ch (overrevPixel e d a) k = sadd8 (ch d k) (mul8 (ch e k) (neg8 (ch d a))) :=
  ch_perChannel _ hk

theorem ch_outrevPixel : ch (outrevPixel e d a) k = mul8 (ch d k) (neg8 (ch e a)) :=
  ch_perChannel _ hk

theorem ch_addPixel : ch (addPixel e d a) k = sadd8 (ch e k) (ch d k) :=
  ch_perChannel _ hk

theorem ch_outrevPixel_le : (ch (outrevPixel e d a) k).toNat ≤ (ch d k).toNat := by
  rw [ch_outrevPixel e d a hk]
  exact mul8_le_left _ _

/-- Over does not saturate where the channel is at most alpha: the multiple of 255 - alpha is at most that. -/
theorem ch_overPixel_premultiplied (h : (ch e k).toNat ≤ (ch e a).toNat) :
    (ch (overPixel e d a) k).toNat = (ch e k).toNat + (mul8 (ch d k) (neg8 (ch e a))).toNat := by
  have hle := mul8_le_right (ch d k) (neg8 (ch e a))
  rw [neg8_toNat] at hle
  rw [ch_overPixel e d a hk, sadd8_toNat]
  omega

end Formulas

/-! The corner cases that the shortcuts do not use. -/

theorem overrevPixel_opaque (e : Pixel) {d : Pixel} {a : Nat} (h : ch d a = 255) : overrevPixel e d a = d :=
  pixel_ext fun k hk => by rw [ch_overrevPixel e d a hk, h, neg8_max, mul8_zero, sadd8_zero]

theorem overrevPixel_zero_dst (e : Pixel) (a : Nat) : overrevPixel e 0 a = e :=
  pixel_ext fun k hk => by rw [ch_overrevPixel e 0 a hk, ch_zero, ch_zero, neg8_zero, mul8_max, zero_sadd8]

theorem outrevPixel_transparent {e : Pixel} (d : Pixel) {a : Nat} (h : ch e a = 0) : outrevPixel e d a = d :=
  pixel_ext fun k hk => by rw [ch_outrevPixel e d a hk, h, neg8_zero, mul8_max]

theorem outrevPixel_opaque {e : Pixel} (d : Pixel) {a : Nat} (h : ch e a = 255) : outrevPixel e d a = 0 :=
  pixel_ext fun k hk => by rw [ch_outrevPixel e d a hk, h, neg8_max, mul8_zero, ch_zero]

theorem addPixel_zero (d : Pixel) (a : Nat) : addPixel 0 d a = d :=
  pixel_ext fun k hk => by rw [ch_addPixel 0 d a hk, ch_zero, zero_sadd8]

/-- Settles O42: the formulas channel by channel, the corner cases pixel by pixel, and the four examples by
computation. -/
theorem operatorFormulasAndCornerCases : Obligations.OperatorFormulasAndCornerCases := by
  refine ⟨fun e d a k _ hk => ?_, fun e d a _ => ?_, by decide, by decide, by decide, by decide⟩
  · exact ⟨ch_overPixel e d a hk, ch_overrevPixel e d a hk, ch_outrevPixel e d a hk, ch_addPixel e d a hk,
      ch_outrevPixel_le e d a hk, fun h => ch_overPixel_premultiplied e d a hk (h k hk)⟩
  · exact ⟨overPixel_zero d a, overPixel_opaque d, overrevPixel_zero d a, overrevPixel_opaque e,
      overrevPixel_zero_dst e a, outrevPixel_transparent d, outrevPixel_opaque d, addPixel_zero d a⟩

end Sys2Proof.Machine
end

section
/-! The span mask (spec/42_span_mask_iterator.md), and the number of iterations of a command (rules R154, R174). -/

namespace Sys2Proof.Machine

/-! ### The span mask lane by lane (rules R150 to R152) -/

theorem spanMaskFrom_eq_map (k : Nat) : ∀ w i : Nat,
    spanMaskFrom k i w = (List.range' i w).map fun j => if j < k then activeLane else inactiveLane
  | 0, _ => rfl
  | w + 1, i => by rw [spanMaskFrom_head, spanMaskFrom_eq_map k w (i + 1), List.range'_succ, List.map_cons]

theorem spanMask_getElem? {w i : Nat} (n : Word) (hi : i < w) :
    (spanMask w n)[i]? = some (if i < activeCount w n then activeLane else inactiveLane) := by
  rw [spanMask, spanMaskFrom_eq_map, List.getElem?_map, List.getElem?_range' hi, Nat.zero_add, Nat.one_mul]
  rfl

@[simp] theorem length_spanMaskTable (w t : Nat) : (spanMaskTable w t).length = w := by
  rw [spanMaskTable, List.length_append, List.length_replicate, List.length_replicate]
  omega

/-- Lane i of entry t of the table is active when it is one of the first W - t. -/
theorem spanMaskTable_getElem? {w t i : Nat} (hi : i < w) :
    (spanMaskTable w t)[i]? = some (if i < w - t then activeLane else inactiveLane) := by
  rw [spanMaskTable, List.getElem?_append, List.length_replicate, List.getElem?_replicate, List.getElem?_replicate]
  by_cases h : i < w - t
  · rw [if_pos h, if_pos h, if_pos h]
  · rw [if_neg h, if_neg h, if_pos (by omega)]

/-- Entry W - k of the table has k active lanes. -/
theorem spanMask_eq_table (w : Nat) (n : Word) : spanMask w n = spanMaskTable w (w - activeCount w n) := by
  refine List.ext_getElem?' fun i hi => ?_
  have hw : i < w := by simpa [spanMask] using hi
  rw [spanMask_getElem? n hw, spanMaskTable_getElem? hw, Nat.sub_sub_self (activeCount_le w n)]

theorem activeCount_pos {w : Nat} {n : Word} (hw : 0 < w) (hn : n ≠ 0) : 1 ≤ activeCount w n :=
  Nat.le_min.mpr ⟨Nat.pos_of_ne_zero fun h => hn (BitVec.eq_of_toNat_eq h), hw⟩

/-- Settles O41: the mask lane by lane, and the table's entry W - k because its lanes are the same. -/
theorem spanMaskIsTheTableEntry : Obligations.SpanMaskIsTheTableEntry := fun w n =>
  ⟨length_spanMaskFrom _ w 0, fun _ hi => spanMask_getElem? n hi, spanMask_eq_table w n, rfl, activeCount_pos⟩

/-! ### The iterations of a command (rules R154, R173, R174) -/

/-- What is done of COUNT is what is no longer left. -/
theorem Underway.pixelsDone_eq {i : Instr} {s u : State} (h : Underway i s u) {k : Nat}
    (hiN : u.eng.iN.toNat = s.regs.count.toNat - k) : pixelsDone u = min s.regs.count.toNat k := by
  unfold pixelsDone
  rw [h.count, hiN]
  omega

/-- Settles O44: m iterations of the run leave n - W·m pixels, lockstep puts the buffers at the pixels done, and
ceil(n / W) iterations leave none, so the next step completes. -/
theorem commandTakesCeilIterations : Obligations.CommandTakesCeilIterations := by
  intro i s m hlaunch n w hn hm
  obtain ⟨u, hrun, hu, hiN⟩ := hlaunch.runs_iterations (fun e => hn.ne' (congrArg BitVec.toNat e)) hm
  have done : pixelsDone u = min n (w * m) := hu.pixelsDone_eq hiN
  refine ⟨u, hrun, by rw [hu.regs], hiN.trans tsub_min.symm, done ▸ hu.iD, done ▸ hu.iS,
    fun hi => done ▸ hu.iM hi, fun hlast => ?_⟩
  have hle : n ≤ w * m := hlast ▸ le_mul_iterations (count_pos s.cfg.lanes)
  exact hu.step_completes (BitVec.eq_of_toNat_eq (hiN.trans (Nat.sub_eq_zero_of_le hle)))

end Sys2Proof.Machine
end

section
/-! The shortcuts (spec/43_fast_path.md rule R165): the path without shortcuts stores the result of every active lane,
and so does every iteration. -/

namespace Sys2Proof.Machine

/-! ### The source stages without the transparent-mask shortcut -/

/-- Stages 2 to 4 of a command on the path without shortcuts. -/
def fullSource (i : Instr) (s : State) : Res State :=
  if i.masked then fullMaskedSource i.ach s else plainSource s

theorem fullPath_eq (i : Instr) (s : State) : fullPath i s = andThen (fullSource i s) (compositeStage i) := by
  cases i <;> rfl

/-- What the source stages leave for the composite stages: memory as it was, and the effective source in VE. -/
structure SourceReady (i : Instr) (s t : State) : Prop where
  framed  : Framed s t
  mem     : t.mem = s.mem
  spanned : Spanned t
  VE      : t.dp.VE = lanesOf s.lanes (laneEffective i s)

/-- Masking source lanes f by mask lanes g answers with maskc of each pair in VE. -/
theorem combineMask_lanes {a w : Nat} {s : State} {f g : Nat → Pixel} (ha : a < 4) (hS : s.dp.VS = lanesOf w f)
    (hM : s.dp.VM = lanesOf w g) :
    ∃ t, combineMask a s = .next t ∧ t.dp.VE = lanesOf w fun j => maskc (f j) (g j) a := by
  have hc := combine_widenV ha (V := s.dp.VS) (M := s.dp.VM) (by rw [hS, hM, length_lanesOf, length_lanesOf])
  unfold combineMask
  simp only [hc]
  exact ⟨_, rfl, by rw [State.setDp_dp, narrowV_widenV, hS, hM, zipWith_lanesOf]⟩

/-- Rule R165 (a): reading the source under any mask, a transparent one included, leaves the effective source in VE. -/
theorem fullMaskedSource_ready {i : Instr} {s : State} (hi : i.wellFormed = true) (hm : i.masked = true)
    (h : Spanned s) (hS : bufferBacked s.cfg s.eng.iS (activeLanes s) = true)
    (hM : bufferBacked s.cfg s.eng.iM (activeLanes s) = true) :
    ∃ t, fullMaskedSource i.ach s = .next t ∧ SourceReady i s t := by
  obtain ⟨u, hu⟩ := loadMask_answers i.ach h hM
  have r := loadMask_eq_next h hu
  have hsu : Spanned u := h.of_framed r.framed (by rw [r.dp])
  obtain ⟨v, hv⟩ := loadSource_answers hsu (by rwa [r.framed.cfg, r.framed.eng, activeLanes_framed r.framed])
  have r' := loadSource_eq_next hsu hv
  rw [spanRead_congr r.framed r.mem, r.framed.eng, r.dp] at r'
  obtain ⟨t, ht, hVE⟩ := combineMask_lanes (of_decide_eq_true hi) (congrArg Datapath.VS r'.dp)
    (congrArg Datapath.VM r'.dp)
  refine ⟨t, by rw [fullMaskedSource, hu, andThen_next, hv, andThen_next, ht], ?_⟩
  have hf := r.framed.trans r'.framed
  obtain ⟨hE, rfl⟩ := combineMask_eq_next ht
  exact {
    framed := hf.trans (framed_setDp _ _)
    mem := r'.mem.trans r.mem
    spanned := h.of_framed (hf.trans (framed_setDp _ _)) (by rw [State.setDp_dp, r'.dp])
    VE := hVE.trans (lanesOf_congr fun j _ => by rw [laneEffective, effective, if_pos hm]) }

/-- The source stages without a shortcut answer over backed pixels, with the effective source in VE. -/
theorem fullSource_ready {i : Instr} {s : State} (hi : i.wellFormed = true) (h : Spanned s)
    (hS : bufferBacked s.cfg s.eng.iS (activeLanes s) = true)
    (hM : i.masked = true → bufferBacked s.cfg s.eng.iM (activeLanes s) = true) :
    ∃ t, fullSource i s = .next t ∧ SourceReady i s t := by
  unfold fullSource
  split
  case isTrue hm => exact fullMaskedSource_ready hi hm h hS (hM hm)
  case isFalse hm =>
    obtain ⟨t, ht⟩ := sourceStage_answers hi h hS hM
    have q := sourceStage_eq_next hi h ht
    rw [sourceStage, if_neg hm] at ht
    exact ⟨t, ht, q.framed, q.mem, q.spanned, q.VE⟩

/-! ### The memory both paths leave -/

/-- The lanes the path without shortcuts stores: the operator on the lanes of VE and VD. -/
def fullResult (i : Instr) (s : State) (j : Nat) : Pixel :=
  opPixel i (laneEffective i s j) (laneRead s.mem s.eng.iD (activeLanes s) j)

theorem fullResult_active {i : Instr} {s : State} {j : Nat} (hj : j < activeLanes s) :
    fullResult i s j = laneResult i s j := by
  rw [fullResult, laneEffective_active hj, laneRead, if_pos hj, laneResult_eq]

/-- The path without shortcuts answers over backed pixels, and stores its result in the active lanes. -/
theorem fullPath_stores {i : Instr} {s : State} (hi : i.wellFormed = true) (h : Spanned s)
    (hb : iterationBacked i.masked s = true) :
    ∃ u, fullPath i s = .next u ∧ u.mem = spanStore s s.eng.iD (fullResult i s) := by
  simp only [iterationBacked, Bool.and_eq_true, Bool.or_eq_true, Bool.not_eq_true'] at hb
  obtain ⟨⟨hD, hS⟩, hM⟩ := hb
  obtain ⟨t, ht, q⟩ := fullSource_ready hi h hS fun hm => hM.resolve_left (by simp [hm])
  have hact := activeLanes_framed q.framed
  obtain ⟨hanswer, hleave⟩ := compositeStage_eq hi q.spanned (q.VE.trans (by rw [q.framed.lanes]))
  obtain ⟨u, hu⟩ := hanswer (by rwa [q.framed.cfg, q.framed.eng, hact])
  refine ⟨u, by rw [fullPath_eq, ht, andThen_next, hu], ?_⟩
  rw [(hleave u hu).mem, spanStore, hact, q.framed.lanes, q.framed.eng, q.mem]
  rfl

/-- A canonical memory that holds the stored lanes and is as before elsewhere is the memory after the store. -/
theorem eq_spanStore {s : State} {m : Memory} {base : Addr} {f : Nat → Pixel} (hw : Memory.wf s.mem = true)
    (hm : Memory.wf m = true) (lanes : ∀ j, j < activeLanes s → readPixel m (pixelAddr base j) = f j)
    (outside : sameOutside base (activeLanes s) s.mem m) : m = spanStore s base f := by
  have store := sameOutside_spanStore hw base f
  refine memory_ext (outside.1.trans store.1.symm) hm (wf_spanStore hw base f) fun a => ?_
  cases ha : bufferHolds base (activeLanes s) a with
  | false => rw [outside.2 a ha, store.2 a ha]
  | true =>
    obtain ⟨j, hj, hp⟩ := bufferHolds_eq_true.mp ha
    exact byteAt_congr ((lanes j hj).trans (readPixel_spanStore hw base f hj).symm) a hp

/-- Settles O33: the path without shortcuts stores `laneResult` in every active lane, and an iteration, whatever
shortcut it takes, leaves `laneResult` there and every other byte as it was. -/
theorem shortcutsLeaveTheSameMemory : Obligations.ShortcutsLeaveTheSameMemory := by
  intro i s t hi hb hn hw hbacked ht
  have adv := iterate_eq_next hi ((exec_running hb hn).symm.trans ht)
  obtain ⟨u, hu, hmem⟩ := fullPath_stores hi (spanned_spanStage s) hbacked
  refine ⟨u, hu, ?_⟩
  calc t.mem = spanStore s s.eng.iD (fullResult i s) :=
        eq_spanStore hw (adv.memWf hw) (fun j hj => (adv.lanes hw j hj).trans (fullResult_active hj).symm)
          (adv.outside hw)
    _ = u.mem := hmem.symm

end Sys2Proof.Machine
end

section
/-! The row driver's own statements (spec/44_row_driver.md): acceptance, the engine's turns and the completion, what an
idle block leaves alone, and the memory of a whole command. -/

namespace Sys2Proof.Machine

/-! ### The engine's turn and the completion (rules R171, R177, R209) -/

/-- The engine's turn is the one it is given, or the one it has when no turn waits (log entry 16). -/
theorem step_eq_engineTurn {s : State} {rest : List HostEvent}
    (h : s.inputs = .engine :: rest ∨ (s.inputs = [] ∧ rest = [])) : step s = engineTurn exec (s.takeTurn rest) := by
  obtain hin | ⟨hin, rfl⟩ := h
  · exact step_of_cons hin
  · exact step_of_nil hin

theorem engineTurn_busy {run : Instr → State → Res State} {s : State} (h : s.regs.busy = true) :
    engineTurn run s = run (running s) s := if_pos h

theorem engineTurn_idle {run : Instr → State → Res State} {s : State} (h : s.regs.busy = false) :
    engineTurn run s = .next s := by
  rw [engineTurn, h]
  rfl

/-- Settles O8: the step is the engine's turn, which BUSY decides. -/
theorem engineTurnRunsTheLatchedCommand : Obligations.EngineTurnRunsTheLatchedCommand := by
  intro s rest hin
  rw [step_eq_engineTurn hin]
  exact ⟨engineTurn_busy (s := s.takeTurn rest), engineTurn_idle (s := s.takeTurn rest)⟩

/-- Settles O20: a busy engine with no pixel left completes. -/
theorem completionClearsBusy : Obligations.CompletionClearsBusy := fun _ _ => exec_complete

/-- Settles O21: completion and an iteration keep these registers, and CMD holds the latched command's encoding. -/
theorem runningCommandKeepsTheHostRegisters : Obligations.RunningCommandKeepsTheHostRegisters := by
  intro s t hb hrun ht
  have kept : t.regs = { s.regs with busy := t.regs.busy } := by
    obtain ⟨hidle, -⟩ | ⟨-, -, rfl⟩ | ⟨-, -, adv⟩ := exec_cases (running_wellFormed s) ht
    · rw [hb] at hidle; cases hidle
    · rfl
    · rw [adv.regs]
  rw [kept]
  refine ⟨rfl, rfl, rfl, rfl, rfl, ?_⟩
  change decode s.regs.cmd = _
  rw [hrun.command]
  exact encodedCommandDecodesToItself _ (running_wellFormed s)

/-! ### Acceptance (rules R170, R175) -/

theorem func_ofFields (f : BitVec 2) (m : Bool) (a : BitVec 2) : (ofFields f m a).func = f := by
  revert f m a
  decide

theorem masked_ofFields (f : BitVec 2) (m : Bool) (a : BitVec 2) : (ofFields f m a).masked = m := by
  revert f m a
  decide

/-- A command that keeps the contract is accepted when its word is presented. -/
theorem step_accepts {s : State} {w : Word} {i : Instr} {rest : List HostEvent} (hp : presents s w rest)
    (hw : decode w = .ok i) (hc : contractViolation i.masked s.cfg s.regs = none) :
    step s = .next (accepted i (s.takeTurn rest)) := by
  rw [commandWriteRunsTheDecodedCommand s w i rest hp hw, exec_idle (s := s.takeTurn rest) hp.2]
  exact accept_next hc

/-- Settles O17: the command is accepted, its word is the one presented and its fields are those of the word. -/
theorem acceptanceLatchesTheCommand : Obligations.AcceptanceLatchesTheCommand := by
  intro s w i rest hp hw hc
  obtain ⟨hl, rfl⟩ := (decode_eq_ok_iff w i).mp hw
  rw [step_accepts hp hw hc, accepted, encode_namedCommand hl, namedCommand, func_ofFields, masked_ofFields,
    ach_ofFields, BitVec.ofNat_toNat, BitVec.setWidth_eq]
  rfl

/-- With COUNT = 0 a command uses no range, so it breaks no contract (log entry 10). -/
theorem contractViolation_zero {masked : Bool} {cfg : Params} {r : HostRegs} (h : r.count = 0) :
    contractViolation masked cfg r = none := if_pos (congrArg BitVec.toNat h)

/-- Settles O18: the command is accepted with BUSY 0, so that the engine's next turn changes nothing. -/
theorem zeroCountTouchesNoMemory : Obligations.ZeroCountTouchesNoMemory := by
  intro s w i rest hp hw hn
  have idle : (accepted i (s.takeTurn rest)).regs.busy = false := decide_eq_false (not_not.mpr hn)
  refine ⟨_, step_accepts hp hw (contractViolation_zero hn), rfl, rfl, idle, rfl, ?_⟩
  rintro rfl
  exact (step_of_nil rfl).trans (engineTurn_idle idle)

/-! ### An idle block (rules R170, R175, R201, R209, R222) -/

@[simp] theorem writeRegister_mem (r : RegName) (v : Word) (s : State) : (writeRegister r v s).mem = s.mem := by
  cases r <;> rfl

@[simp] theorem writeRegister_memPort (r : RegName) (v : Word) (s : State) :
    (writeRegister r v s).memPort = s.memPort := by
  cases r <;> rfl

theorem eq_of_byteAt_setByte_ne {m : Memory} (h : Memory.wf m = true) {a c : Addr} {b : Byte}
    (hne : byteAt (setByte m c b) a ≠ byteAt m a) : a = c := by
  by_contra hac
  exact hne (by rw [byteAt_setByte h, if_neg hac])

/-- A step of an idle block makes no request, and memory is as before or another agent wrote a byte of it. -/
theorem idle_step_memory {s t : State} (hb : s.regs.busy = false) (h : step s = .next t) :
    t.memPort = [] ∧ (t.mem = s.mem ∨ ∃ a b rest, s.inputs = .memWrite a b :: rest ∧ t.mem = setByte s.mem a b) := by
  cases stepped_of_step h with
  | quiet q => exact ⟨q.memPort, q.mem⟩
  | reset w rest _ ht => rw [ht]; exact ⟨rfl, .inl (memoryAtReset_same (s := s.takeTurn rest) (.inl hb))⟩
  | stored w rest r _ _ _ ht => rw [ht]; exact ⟨writeRegister_memPort r _ _, .inl (writeRegister_mem r _ _)⟩
  | rejected w rest _ _ ht => rw [ht]; exact ⟨rfl, .inl rfl⟩
  | accepted w rest i _ _ _ ht => rw [ht]; exact ⟨rfl, .inl rfl⟩
  | completed rest busy | iterated rest busy => rw [hb] at busy; cases busy

/-- Settles O58: only a write of another agent changes memory, and only in the byte it names. -/
theorem idleBlockAccessesNoMemory : Obligations.IdleBlockAccessesNoMemory := by
  intro s t hw hb h
  obtain ⟨hport, hmem | ⟨c, b, rest, hin, hmem⟩⟩ := idle_step_memory hb h
  · exact ⟨hport, fun a hne => absurd (by rw [hmem]) hne⟩
  · refine ⟨hport, fun a hne => ⟨b, rest, ?_⟩⟩
    rw [hmem] at hne
    rw [hin, eq_of_byteAt_setByte_ne hw hne]

/-! ### The memory of a whole command (rules R180, R181) -/

/-- Outside the destination range of a composed memory every byte is as before the command. -/
theorem Composed.byteAt_outside {i : Instr} {m₀ m : Memory} {r : HostRegs} (h : Composed i m₀ r r.count.toNat m)
    {masked : Bool} {cfg : Params} (hc : contractViolation masked cfg r = none) {a : Addr}
    (ha : inRange (hardwire r.dst) r.count.toNat a = false) : byteAt m a = byteAt m₀ a := by
  have hw := usedBases_not_wrapping hc (mem_usedBases.mpr (.inl rfl))
  refine h.outside.2 a (bufferHolds_eq_false.mpr fun j hj hp => ?_)
  rw [inRange_of_ofPixel hw hj hp] at ha
  cases ha

/-- Settles O43: the launched command runs to completion, with memory composed in all its pixels. -/
theorem commandLeavesTheClosedForm : Obligations.CommandLeavesTheClosedForm := by
  intro i s hlaunch
  obtain ⟨t, hrun, ht⟩ := hlaunch.runs_to_completion
  exact ⟨t, hrun, ht.regs, ht.mem.stored, fun _ ha => ht.mem.byteAt_outside hlaunch.contract ha, ht.cfg, ht.inputs⟩

/-- What a program assures at a launch does not speak of the lane count. -/
theorem Launch.withLanes {i : Instr} {s : State} (h : Launch i s) (l : Lanes) : Launch i (s.withLanes l) :=
  ⟨h.wellFormed, h.mem, h.idle, h.inputs, h.contract, h.backed⟩

/-- Settles O45: both runs complete, and the closed form, in which no lane count stands, decides the memory each
leaves. -/
theorem finalMemoryDoesNotDependOnLanes : Obligations.FinalMemoryDoesNotDependOnLanes := by
  intro i s l hlaunch
  obtain ⟨t, hrun, ht⟩ := hlaunch.runs_to_completion
  obtain ⟨u, hrun', hu⟩ := (hlaunch.withLanes l).runs_to_completion
  exact ⟨t, u, hrun, hrun', ht.mem.unique hu.mem fun _ _ => rfl⟩

end Sys2Proof.Machine
end

section
/-! The block's one error at its source: an illegal word presented while idle (spec/60_exceptions.md). -/

namespace Sys2Proof.Machine

theorem presentCommand_illegal {run : Instr → State → Res State} {w : Word} {s : State} (hw : legal w = false) :
    presentCommand run w s = .next (raiseIllegalCommand s) := by
  obtain ⟨e, he⟩ := (exists_decode_error_iff w).mpr hw
  rw [presentCommand, he]

/-- Settles O9: the step presents the word, and the decoder, which rejects it, leaves only the error flag. -/
theorem illegalCommandSetsErrOnly : Obligations.IllegalCommandSetsErrOnly := by
  intro s w rest hp hw
  rw [step_of_presents hp, presentCommand_illegal hw]
  rfl

end Sys2Proof.Machine
end
